-- ==== Sys2Proof/Word.lean ====
section
/-! DEFINITION. The one word type of the block: every register, every bus item and every frame-buffer item is one
byte (20_memory.md R65, R69). -/

namespace Sys2Proof

/-- A u8: bits 7..0, bit 0 the least significant (00_scope.md R18). -/
abbrev Byte := BitVec 8

end Sys2Proof
end

