-- ==== Sys2Proof/Config.lean ====
section
/-! DEFINITION. What is fixed for one block: the parameters of 00_scope.md R8-R17, and the free values that stand
for the spec's draws (00_scope.md R19, log 2, 3, 4, 5). -/

namespace Sys2Proof

/-- TWCR_LAYOUT (00_scope.md R11): which bit layout of 10_state.md R24 the control register has. -/
inductive TwcrLayout where
  | source
  | avrSilicon
  deriving DecidableEq, Repr

/-- REG_ADDR (00_scope.md R12): the low byte of each register's address in the host's data space (20_memory.md R61). -/
structure RegAddr where
  twbr : Byte
  twsr : Byte
  twdr : Byte
  twcr : Byte
  deriving DecidableEq, Repr

/-- The open parameters of the block (00_scope.md R10-R16). The spec makes them arguments of the step relation, fixed at
construction (10_state.md R42). The model keeps them in the state, unchanged by every step (log 1). -/
structure Config where
  /-- WIDTH: pixels in a row, bytes in a page (R10). -/
  width : Nat
  /-- TWCR_LAYOUT (R11). -/
  layout : TwcrLayout
  /-- REG_ADDR (R12). -/
  regAddr : RegAddr
  /-- POLL_LIMIT: `none` is the unbounded wait (R13). -/
  pollLimit : Option Nat
  /-- SLAVE_MAY_STALL (R14). -/
  slaveMayStall : Bool
  /-- BUS_ERROR_POSSIBLE (R15). -/
  busErrorPossible : Bool
  /-- INIT_SEQUENCE (R16). -/
  initSequence : List Byte
  deriving DecidableEq, Repr

namespace Config

/-- DEV_ADDR (00_scope.md R8). -/
def devAddr : Byte := 0x3C#8
/-- PAGES (R9). -/
def pages : Nat := 8
/-- HEIGHT = PAGES * 8 (R9). -/
def height : Nat := 64
/-- CTRL_CMD: one command byte follows (R17, 30_encoding.md R95). -/
def ctrlCmd : Byte := 0x00#8
/-- CTRL_DATA: display data bytes follow (R17, 30_encoding.md R95). -/
def ctrlData : Byte := 0x40#8

/-- BUF_SIZE = PAGES * WIDTH (R10). -/
def bufSize (c : Config) : Nat := pages * c.width

/-- How many argument bytes follow a first byte of the display's command table; none for a byte that is not in the table
(30_encoding.md R96, R97). -/
def commandArgs (b : Byte) : Option Nat :=
  if b = 0x81#8 ∨ b = 0x20#8 then some 1
  else if b = 0x21#8 then some 2
  else if b = 0xAE#8 ∨ b = 0xAF#8 ∨ b &&& 0xF8#8 = 0xB0#8 ∨ b &&& 0xF0#8 = 0x00#8 ∨ b &&& 0xF0#8 = 0x10#8 ∨
      b &&& 0xC0#8 = 0x40#8 then some 0
  else none

/-- The list is commands with their arguments, the last of them display-on, after `k` bytes that are still arguments. The
length of a command that is not in the table is unknown: such a list need only end with display-on (43_display_commands.md
R205, constraints 3 and 5; log 26). -/
def endsOn : Nat → List Byte → Bool
  | _, [] => false
  | k + 1, _ :: rest => endsOn k rest
  | 0, b :: rest =>
    match commandArgs b with
    | some n => (b == 0xAF#8 && rest.isEmpty) || endsOn n rest
    | none => rest.getLast? == some 0xAF#8

/-- A conforming INIT_SEQUENCE (43_display_commands.md R205, constraints 1 to 5; log 26): display-off; the addressing-mode
setup `0x20, m`; the contrast setup `0x81, c`; the start-line setup `0x40 | l`; where the document's "…" stands, any commands
more; display-on. -/
def conformingInit (seq : List Byte) : Bool :=
  match seq with
  | off :: mode :: _ :: contrast :: _ :: line :: rest =>
    off == 0xAE#8 && mode == 0x20#8 && contrast == 0x81#8 && line &&& 0xC0#8 == 0x40#8 && endsOn 0 rest
  | _ => false

/-- The four addresses are four different bytes. -/
def RegAddr.distinct (r : RegAddr) : Bool :=
  r.twbr != r.twsr && r.twbr != r.twdr && r.twbr != r.twcr && r.twsr != r.twdr && r.twsr != r.twcr && r.twdr != r.twcr

/-- The constraints the spec puts on the parameters: `1 <= WIDTH <= 255` (R10), four addresses (R12), `L >= 1` (R13), a
conforming INIT_SEQUENCE (R16). -/
def wf (c : Config) : Bool :=
  decide (1 ≤ c.width) && decide (c.width ≤ 255) && RegAddr.distinct c.regAddr &&
    (match c.pollLimit with | none => true | some l => decide (1 ≤ l)) && conformingInit c.initSequence

/-- The reference value of every parameter: 00_scope.md R10-R16, 43_display_commands.md R205, 92_eei_decisions.md D11. -/
def reference : Config where
  width := 128
  layout := .source
  regAddr := { twbr := 0xB8#8, twsr := 0xB9#8, twdr := 0xBB#8, twcr := 0xBC#8 }
  pollLimit := none
  slaveMayStall := true
  busErrorPossible := false
  initSequence := [0xAE#8, 0x20#8, 0x02#8, 0x81#8, 0x7F#8, 0x40#8, 0xAF#8]

/-! Free values. Each stands for one of the spec's draws, which any value of its type may answer; none has a body. The
argument is the number of the draw (`Oracle.count`). -/

/-- TWDR at reset (10_state.md R37, R51; log 3). -/
opaque resetTwdr : Byte
/-- Whether the operation launched stalls (10_state.md R36, 40_twi_unit.md R130). -/
opaque freeStall : Nat → Bool
/-- Whether a completion ends in a bus error (40_twi_unit.md R146). -/
opaque freeBusErr : Nat → Bool
/-- Whether the slave acknowledges the byte (40_twi_unit.md R142-R144). -/
opaque freeAck : Nat → Bool
/-- The byte the slave drives on a receive (40_twi_unit.md R145). -/
opaque freeRx : Nat → Byte
/-- What a TWDR read returns while an operation is in flight (40_twi_unit.md R123). -/
opaque freeTwdr : Nat → Byte
/-- How many steps of the other agents come before the completion (40_twi_unit.md R140; log 5). -/
opaque freeDelay : Nat → Nat
/-- A Nat local of the sequencer between requests: which one, and the draw (10_state.md R46, R51; log 4). -/
opaque freeNatLocal : Nat → Nat → Nat
/-- An Int local of the sequencer between requests: which one, and the draw (10_state.md R46, R51; log 4). -/
opaque freeIntLocal : Nat → Nat → Int

end Config
end Sys2Proof
end

