-- ==== Sys2Proof/Syntax.lean ====
section
/-! DEFINITION. The instructions: one constructor for every row of spec/opcode_table.json, and the small types their
operands and their decoding need. -/

namespace Sys2Proof

/-- The engine's protocol mode (10_state.md R33). Decoding a TWCR write reads it (30_encoding.md R89). -/
inductive Mode where
  | none
  | afterStart
  | mt
  | mr
  | mrEnd
  deriving DecidableEq, Repr

/-- `role` of a BUS_SEND request (30_encoding.md R102). -/
inductive Role where
  | addrW
  | addrR
  | data
  deriving DecidableEq, Repr

/-- The lines of the TWCR write table (30_encoding.md R89), one for each row of the opcode table with format ACCESS and
register TWCR. Line 4 is two rows there: TWSTA set, and TWSTO alone. -/
inductive TwcrLine where
  | whileBusy
  | disable
  | hold
  | noIntSta
  | noIntSto
  | staSto
  | start
  | stop
  | sla
  | tx
  | rxAck
  | rxNack
  | byteRefused
  deriving DecidableEq, Repr

/-- The formats of 30_encoding.md R86 in which an instruction can be written. `wideAccess` is an access to the register
window that is not 8 bits wide, which the block refuses (20_memory.md R70). -/
inductive Format where
  | access
  | wideAccess
  | seq
  | devcmd
  | ctrl
  | sla
  deriving DecidableEq, Repr

/-- One constructor per row of spec/opcode_table.json. The operand `v` is the written byte of a register write
(30_encoding.md R87); for the TWCR rows its fixed bits are checked by `Instr.wf`. -/
inductive Instr where
  -- ACCESS (30_encoding.md R87, 40_twi_unit.md R121-R125)
  | rdTwbr
  | wrTwbr (v : Byte)
  | rdTwsr
  | wrTwsr (v : Byte)
  | rdTwdr
  | wrTwdr (v : Byte)
  | rdTwcr
  -- ACCESS, TWCR writes (30_encoding.md R89, 40_twi_unit.md R126-R138)
  | wrTwcrDisable (v : Byte)
  | wrTwcrHold (v : Byte)
  | wrTwcrNointSta (v : Byte)
  | wrTwcrNointSto (v : Byte)
  | twiStasto (v : Byte)
  | twiStart (v : Byte)
  | twiStop (v : Byte)
  | twiSla (v : Byte)
  | twiTx (v : Byte)
  | twiRxAck (v : Byte)
  | twiRxNack (v : Byte)
  | twiByteRefused (v : Byte)
  | wrTwcrWhileBusy (v : Byte)
  -- SEQ (30_encoding.md R101)
  | busStart
  | busStop
  | busSend (data : Byte) (role : Role)
  | busRecv (ack : Bool)
  | writeTxn (a : Byte) (bytes : List Byte)
  | readTxn (a : Byte) (n : Byte)
  | dispInit
  | dispCmd (b : Byte)
  | dispSetCol (first : Byte) (last : Byte)
  | dispSetPage (p : Byte)
  | dispFlush
  | fbPixel (x : Byte) (y : Byte) (on : Bool)
  | fbLine (x0 : Byte) (y0 : Byte) (x1 : Byte) (y1 : Byte) (on : Bool)
  -- DEVCMD (30_encoding.md R96)
  | displayOff
  | displayOn
  | setContrast (c : Byte)
  | setColumnWindow (first : Byte) (last : Byte)
  | setPageStart (p : BitVec 3)
  | setLowerCol (n : BitVec 4)
  | setUpperCol (n : BitVec 4)
  | setStartLine (l : BitVec 6)
  | setAddrMode (m : Byte)
  -- CTRL (30_encoding.md R95)
  | ctrlCmd
  | ctrlData
  -- SLA (30_encoding.md R93)
  | slaW (a : BitVec 7)
  | slaR (a : BitVec 7)
  deriving DecidableEq, Repr

end Sys2Proof
end

