-- ==== Sys2Proof/Machine/Operands.lean ====
section
/-! DEFINITION. The operand forms: the fields of a byte written to TWCR, the line of the TWCR table it is on, the command
words, the address byte, and the bytes of a display command. -/

namespace Sys2Proof.Machine

/-! ### Fields of a TWCR byte (30_encoding.md R88) -/

/-- INT: bit 7 in both layouts. -/
def fieldInt (v : Byte) : Bool := v.getLsbD 7
/-- EA: bit 6 in both layouts. -/
def fieldEa (v : Byte) : Bool := v.getLsbD 6
/-- STA: bit 5 in both layouts. -/
def fieldSta (v : Byte) : Bool := v.getLsbD 5
/-- STO: bit 4 in both layouts. -/
def fieldSto (v : Byte) : Bool := v.getLsbD 4
/-- EN: bit 0 under SOURCE, bit 2 under AVR_SILICON. -/
def fieldEn (l : TwcrLayout) (v : Byte) : Bool :=
  match l with
  | .source => v.getLsbD 0
  | .avrSilicon => v.getLsbD 2
/-- IE: bit 0 under AVR_SILICON. SOURCE has no such bit. -/
def fieldIe (v : Byte) : Bool := v.getLsbD 0

/-- The line of 30_encoding.md R89 that a write of `v` to TWCR meets, in the table's order. -/
def twcrLine (l : TwcrLayout) (busy : Bool) (mode : Mode) (v : Byte) : TwcrLine :=
  if busy && fieldEn l v then .whileBusy
  else if !fieldEn l v then .disable
  else if !fieldInt v then
    if fieldSta v then .noIntSta else if fieldSto v then .noIntSto else .hold
  else if fieldSta v then
    if fieldSto v then .staSto else .start
  else if fieldSto v then .stop
  else
    match mode with
    | .afterStart => .sla
    | .mt => .tx
    | .mr => if fieldEa v then .rxAck else .rxNack
    | .none => .byteRefused
    | .mrEnd => .byteRefused

/-- Lines 1, 4, 5 and 12 of the table: the write is refused (30_encoding.md R89, 40_twi_unit.md R133, R138). -/
def lineRefuses : TwcrLine → Bool
  | .whileBusy => true
  | .noIntSta => true
  | .noIntSto => true
  | .staSto => true
  | .byteRefused => true
  | .disable => false
  | .hold => false
  | .start => false
  | .stop => false
  | .sla => false
  | .tx => false
  | .rxAck => false
  | .rxNack => false

/-- The bits of `v` that a line fixes (30_encoding.md R91 and the match and mask of the opcode table's rows): what of the
line does not depend on the engine's state. -/
def lineBits (l : TwcrLayout) (line : TwcrLine) (v : Byte) : Bool :=
  match line with
  | .whileBusy => fieldEn l v
  | .disable => !fieldEn l v
  | .hold => fieldEn l v && !fieldInt v && !fieldSta v && !fieldSto v
  | .noIntSta => fieldEn l v && !fieldInt v && fieldSta v
  | .noIntSto => fieldEn l v && !fieldInt v && !fieldSta v && fieldSto v
  | .staSto => fieldEn l v && fieldInt v && fieldSta v && fieldSto v
  | .start => fieldEn l v && fieldInt v && fieldSta v && !fieldSto v
  | .stop => fieldEn l v && fieldInt v && !fieldSta v && fieldSto v
  | .sla => fieldEn l v && fieldInt v && !fieldSta v && !fieldSto v
  | .tx => fieldEn l v && fieldInt v && !fieldSta v && !fieldSto v
  | .rxAck => fieldEn l v && fieldInt v && !fieldSta v && !fieldSto v && fieldEa v
  | .rxNack => fieldEn l v && fieldInt v && !fieldSta v && !fieldSto v && !fieldEa v
  | .byteRefused => fieldEn l v && fieldInt v && !fieldSta v && !fieldSto v

/-! ### The sequencer's command words (30_encoding.md R90) -/

/-- CMD_START: INT, STA, EN. -/
def cmdStart (l : TwcrLayout) : Byte :=
  match l with
  | .source => 0xA1#8
  | .avrSilicon => 0xA4#8
/-- CMD_STOP: INT, STO, EN. -/
def cmdStop (l : TwcrLayout) : Byte :=
  match l with
  | .source => 0x91#8
  | .avrSilicon => 0x94#8
/-- CMD_TX: INT, EN. -/
def cmdTx (l : TwcrLayout) : Byte :=
  match l with
  | .source => 0x81#8
  | .avrSilicon => 0x84#8
/-- CMD_RX_ACK: INT, EA, EN. -/
def cmdRxAck (l : TwcrLayout) : Byte :=
  match l with
  | .source => 0xC1#8
  | .avrSilicon => 0xC4#8
/-- CMD_RX_NACK: INT, EN; the same byte as CMD_TX. -/
def cmdRxNack (l : TwcrLayout) : Byte :=
  match l with
  | .source => 0x81#8
  | .avrSilicon => 0x84#8
/-- CMD_DISABLE: no bit. -/
def cmdDisable : Byte := 0x00#8

/-! ### Bus and display bytes -/

/-- The address byte `((a << 1) & 0xFE) | d` in u8: bit 7 of `a` is lost (30_encoding.md R94). -/
def slaByte (a : Byte) (read : Bool) : Byte :=
  ((a <<< 1) &&& 0xFE#8) ||| (if read then 0x01#8 else 0x00#8)

/-- SET_PAGE_START = `0xB0 | p` (43_display_commands.md R198, R204). -/
def pageStartByte (p : Byte) : Byte := 0xB0#8 ||| p

end Sys2Proof.Machine
end

