-- ==== Sys2Proof/Machine/State.lean ====
section
/-! DEFINITION. The state of the block: every piece of 10_state.md, and the model's own fields for the outside world. Plain
data throughout. -/

namespace Sys2Proof.Machine

/-! ### The TWI unit (10_state.md sections 1 and 2) -/

/-- The operation in flight (10_state.md R34). -/
inductive Op where
  | start
  | stop
  | sla
  | tx
  | rx
  deriving DecidableEq, Repr

/-- Registers and hidden state of the TWI unit. TWCR and TWSR are held as their fields; reserved bits have no storage, since
they read 0 and ignore writes (10_state.md R24, R31, R32). -/
structure Twi where
  /-- TWBR (R22). -/
  twbr : Byte
  /-- TWDR (R37). -/
  twdr : Byte
  /-- TWSR[7:3], the status code shifted right by 3 (R32). -/
  tws : BitVec 5
  /-- TWSR[1:0], the prescaler bits (R32). -/
  twps : BitVec 2
  /-- The completion flag (R25). -/
  twint : Bool
  /-- Acknowledge enable (R26). -/
  twea : Bool
  /-- Start request (R27). -/
  twsta : Bool
  /-- Stop request (R28). -/
  twsto : Bool
  /-- Write collision (R29). -/
  twwc : Bool
  /-- Enable (R30). -/
  twen : Bool
  /-- Interrupt enable, AVR_SILICON only (R31). -/
  twie : Bool
  /-- The protocol mode (R33). -/
  mode : Mode
  /-- `busy` and `op` of R34 in one: `none` is not busy (log 17). -/
  op : Option Op
  /-- The operation in flight never completes (R36). -/
  stalled : Bool
  /-- The model's own: steps of the other agents that come before the completion (log 5). Meaningful while busy. -/
  delay : Nat
  deriving DecidableEq, Repr

/-- `busy` (10_state.md R34). -/
abbrev Twi.busy (t : Twi) : Bool := t.op.isSome

/-- The document's conceptual bus states (10_state.md R38). -/
inductive BusState where
  | idle
  | startAsserted
  | byteInFlight
  | stopAsserted
  deriving DecidableEq, Repr

/-! ### The bus trace (00_scope.md R20) -/

/-- The one-bit answer to a byte. -/
inductive Ack where
  | ack
  | nack
  deriving DecidableEq, Repr

/-- A bus event. -/
inductive Event where
  | start
  | repStart
  | tx (b : Byte) (a : Ack)
  | rx (b : Byte) (a : Ack)
  | stop
  | busErr
  | abort
  deriving DecidableEq, Repr

/-! ### Results (60_exceptions.md R241, 43_display_commands.md R199) -/

/-- The kind of a bus error (60_exceptions.md R241). -/
inductive ErrKind where
  | protocol
  | nack
  | writeCollision
  | timeout
  deriving DecidableEq, Repr

/-- The step of a transaction an error names (60_exceptions.md R241). -/
inductive BusStep where
  | start
  | addrW
  | addrR
  | data (i : Nat)
  | rx (i : Nat)
  | stop
  deriving DecidableEq, Repr

/-- BusError (60_exceptions.md R241). -/
structure BusError where
  kind : ErrKind
  step : BusStep
  status : Option Byte
  released : Option Bool
  deriving DecidableEq, Repr

/-- DisplayError (43_display_commands.md R199). -/
structure DisplayError where
  page : Option Nat
  command : Option Byte
  cause : BusError
  deriving DecidableEq, Repr

/-- The response of a request (60_exceptions.md R241): `Ok` with the value's bytes (none for unit), or an error. -/
inductive Response where
  | ok (value : List Byte)
  | busErr (e : BusError)
  | displayErr (e : DisplayError)
  deriving DecidableEq, Repr

/-! ### The sequencer's position (10_state.md R46, R52) -/

/-- The role of a sent byte (41_bus_primitives.md R165). -/
inductive SendRole where
  | addrW
  | addrR
  | data (i : Nat)
  deriving DecidableEq, Repr

/-- A bus primitive with its operands (41_bus_primitives.md R163-R166). -/
inductive Prim where
  | start
  | stop
  | send (b : Byte) (role : SendRole)
  | recv (ack : Bool) (i : Nat)
  deriving DecidableEq, Repr

/-- The next register access of a primitive: its first write; sendByte's TWWC check; sendByte's launch; a read of the
busy-wait; the recovery write; the status read; receiveByte's data read. -/
inductive Phase where
  | write
  | check
  | launch
  | poll
  | recover
  | status
  | data
  deriving DecidableEq, Repr

/-- The next micro-step of the sequencer. -/
inductive Pos where
  /-- No request in progress. -/
  | idle
  /-- A bus primitive. -/
  | prim (p : Prim) (ph : Phase)
  /-- flush reads the next byte of its page (44_framebuffer.md R226, R228; log 19). -/
  | gather
  /-- drawPixel's one micro-step (44_framebuffer.md R221). -/
  | pixel (x y : Byte) (on : Bool)
  /-- The next pass of drawLine's loop (44_framebuffer.md R224). -/
  | line (x1 y1 : Byte) (on : Bool)
  /-- A request with nothing to send: its one micro-step makes no access and responds (42_bus_transactions.md R183; log 20). -/
  | done
  deriving DecidableEq, Repr

/-- A whole transaction with its operands (42_bus_transactions.md R181, R183). -/
inductive Txn where
  | write (a : Byte) (bytes : List Byte)
  | read (a : Byte) (n : Nat)
  deriving DecidableEq, Repr

/-- The transaction in progress: what it is, `buf` of a read, and the primary error while the release stop runs
(42_bus_transactions.md R183, R185). -/
structure TxnFrame where
  txn : Txn
  buf : List Byte
  releasing : Option BusError
  deriving DecidableEq, Repr

/-- A transaction a display request makes: one command byte (43_display_commands.md R196), or the data of the current page
(44_framebuffer.md R228). -/
inductive Job where
  | cmd (b : Byte)
  | frame
  deriving DecidableEq, Repr

/-- The locals of a request (10_state.md R46). -/
structure Locals where
  p : Nat
  i : Nat
  x : Int
  y : Int
  dx : Int
  dy : Int
  sx : Int
  sy : Int
  err : Int
  e2 : Int
  deriving DecidableEq, Repr

/-- Any values: the locals between requests are unspecified (10_state.md R46, R51; log 4). -/
def Locals.free (n : Nat) : Locals where
  p := Config.freeNatLocal 0 n
  i := Config.freeNatLocal 1 n
  x := Config.freeIntLocal 0 n
  y := Config.freeIntLocal 1 n
  dx := Config.freeIntLocal 2 n
  dy := Config.freeIntLocal 3 n
  sx := Config.freeIntLocal 4 n
  sy := Config.freeIntLocal 5 n
  err := Config.freeIntLocal 6 n
  e2 := Config.freeIntLocal 7 n

/-- The sequencer (10_state.md section 3). -/
structure Seq where
  /-- A request is in progress (R43). -/
  seqBusy : Bool
  /-- The request in progress (R43). -/
  req : Option Instr
  /-- The last response (R43). -/
  resp : Option Response
  /-- `open`: a raw BUS_START has no BUS_STOP yet (R44). -/
  isOpen : Bool
  /-- The masked status as last read (R53). -/
  lastStatus : Byte
  /-- The busy-wait counter (R45). -/
  polls : Nat
  /-- The locals of the request (R46). -/
  locals : Locals
  /-- The next micro-step (R52). -/
  pos : Pos
  /-- The transaction in progress. -/
  txn : Option TxnFrame
  /-- The display transaction in progress. -/
  job : Option Job
  /-- The display transactions still to make (in flush: of the current page). -/
  jobs : List Job
  /-- The payload that flush is reading out of the frame buffer (44_framebuffer.md R228). -/
  acc : List Byte
  deriving DecidableEq, Repr

/-! ### The outside world (model's own fields; log 2, 5, 6, 16) -/

/-- The answers of the bus slave and of the engine's timing. Each list holds answers given in advance, oldest first; where a
list is empty the answer is a free value, numbered by `count` (log 2). -/
structure Oracle where
  stalls : List Bool
  delays : List Nat
  busErrs : List Bool
  acks : List Ack
  rxs : List Byte
  twdrs : List Byte
  count : Nat
  deriving DecidableEq, Repr

/-- Bytes the host issues in one format, one instruction after another. `eager`: the host issues them without waiting for
a response or for a completion that is due (log 7). -/
structure Burst where
  fmt : Format
  bytes : List Byte
  eager : Bool
  deriving DecidableEq, Repr

/-- What the host has been given: the value of a register read, or a response. -/
inductive Received where
  | value (v : Byte)
  | response (r : Response)
  deriving DecidableEq, Repr

/-- The host: what it will issue, and what it has received, oldest first. -/
structure HostSide where
  stream : List Burst
  received : List Received
  deriving DecidableEq, Repr

/-- The frame buffer: index and byte of every non-zero byte, indices rising (`Memory.wf`). -/
abbrev Memory := List Host.Cell

/-- The state of the machine. -/
structure State where
  /-- The parameters, fixed at construction (10_state.md R42; log 1). -/
  cfg : Config
  /-- The TWI unit. -/
  twi : Twi
  /-- The sequencer. -/
  seq : Seq
  /-- FB (10_state.md R40). -/
  fb : Memory
  /-- The bus trace (10_state.md R47), oldest first. -/
  trace : List Event
  /-- Answers of the outside world. -/
  oracle : Oracle
  /-- The host. -/
  host : HostSide
  deriving DecidableEq, Repr

/-! ### How a step can stop -/

/-- The block itself never faults: its errors are responses (60_exceptions.md R245). -/
inductive Fault where
  /-- Raised by flush's frame-buffer read when the index is not below BUF_SIZE, an address the spec says does not exist
  (20_memory.md R61). No run from reset reaches it. Safe: the machine stops. -/
  | frameBufferRange
  deriving DecidableEq, Repr

/-- `refuse(reason)` (60_exceptions.md R258): the spec gives the step no meaning. All are safe: a refused run proves
nothing. -/
inductive Refusal where
  /-- Raised by an arm of `exec` that has no meaning yet. Safe. -/
  | notModelled (mnemonic : String)
  /-- TWCR_UNMODELLED: raised by a TWCR write on line 1, 4, 5 or 12 (30_encoding.md R89). Safe. -/
  | twcrUnmodelled
  /-- HOST_EXCLUSIVE: raised by a host register access while seqBusy or open (20_memory.md R78). Safe. -/
  | hostExclusive
  /-- ACCESS_WIDTH: raised by the fetch of an access that is not 8 bits wide (20_memory.md R70). Safe. -/
  | accessWidth
  /-- SEQ_BUSY: raised by a request issued while seqBusy. Safe. -/
  | seqBusy
  /-- RESERVED_OP: raised by the fetch of a request with a reserved operation byte (30_encoding.md R103). Safe. -/
  | reservedOp
  /-- ILL_FORMED: raised by the fetch of an ill-formed request, and by DISP_SET_PAGE with page >= 8 (30_encoding.md R102,
  43_display_commands.md R198). Safe. -/
  | illFormed
  /-- HOST_PAIRING: raised by a request that breaks the pairing of raw primitives (41_bus_primitives.md R167,
  42_bus_transactions.md R186). Safe. -/
  | hostPairing
  /-- Raised by the fetch of a byte that is no display command or control byte (30_encoding.md R95, R96). Safe. -/
  | unknownByte
  /-- Raised by `exec` of a TWCR row in a state, or with a byte, that is on another line of 30_encoding.md R89, so that the
  row is not what is written; a step never raises it (log 13). Safe. -/
  | offLine
  deriving DecidableEq, Repr

/-! ### Reset (70_reset_and_hazards.md R266) -/

/-- The TWI unit after reset: TWBR 0x00, TWCR 0x00, TWSR 0xF8, TWDR unspecified, mode NONE, not busy, not stalled. -/
def Twi.reset : Twi where
  twbr := 0x00#8
  twdr := Config.resetTwdr
  tws := 0x1F#5
  twps := 0#2
  twint := false
  twea := false
  twsta := false
  twsto := false
  twwc := false
  twen := false
  twie := false
  mode := .none
  op := none
  stalled := false
  delay := 0

/-- The sequencer after reset: idle, no request, no response, `open` false, lastStatus 0xF8, polls 0, locals unspecified. -/
def Seq.reset : Seq where
  seqBusy := false
  req := none
  resp := none
  isOpen := false
  lastStatus := 0xF8#8
  polls := 0
  locals := Locals.free 0
  pos := .idle
  txn := none
  job := none
  jobs := []
  acc := []

/-- No answer given in advance (log 25). The first draw number is 1: number 0 is the locals' at reset. -/
def Oracle.reset : Oracle where
  stalls := []
  delays := []
  busErrs := []
  acks := []
  rxs := []
  twdrs := []
  count := 1

/-- The block after reset, with given parameters. -/
def State.resetWith (c : Config) : State where
  cfg := c
  twi := Twi.reset
  seq := Seq.reset
  fb := []
  trace := []
  oracle := Oracle.reset
  host := { stream := [], received := [] }

/-- The block after reset, with the reference parameters (log 1). -/
def State.reset : State := State.resetWith Config.reference

end Sys2Proof.Machine
end

