-- ==== Sys2Proof/Machine/Flags.lean ====
section
/-! DEFINITION. The registers as read, the flag rules of a TWCR and a TWDR write, and the status codes. -/

namespace Sys2Proof.Machine

/-- One bit as a bit vector. -/
def bit (b : Bool) : BitVec 1 := BitVec.ofBool b

/-- TWCR as read (40_twi_unit.md R125). -/
def Twi.twcr (l : TwcrLayout) (t : Twi) : Byte :=
  match l with
  | .source =>
    bit t.twint ++ bit t.twea ++ bit t.twsta ++ bit t.twsto ++ bit t.twwc ++ 0#1 ++ 0#1 ++ bit t.twen
  | .avrSilicon =>
    bit t.twint ++ bit t.twea ++ bit t.twsta ++ bit t.twsto ++ bit t.twwc ++ bit t.twen ++ 0#1 ++ bit t.twie

/-- TWSR as read: `{TWS, 0, TWPS}` (40_twi_unit.md R122). -/
def Twi.twsr (t : Twi) : Byte := t.tws ++ 0#1 ++ t.twps

/-- The interrupt request output `TWINT ∧ TWIE`, under AVR_SILICON only; it is not connected (10_state.md R39). -/
def Twi.irq (l : TwcrLayout) (t : Twi) : Bool :=
  match l with
  | .source => false
  | .avrSilicon => t.twint && t.twie

/-- The master holds the bus (10_state.md R35). -/
def Twi.owned (t : Twi) : Bool := decide (t.mode ≠ .none)

/-- The document's conceptual bus state, where it has one for this state (10_state.md R38). -/
def Twi.busState (t : Twi) : Option BusState :=
  match t.op with
  | some .start => some .startAsserted
  | some .stop => some .stopAsserted
  | some .sla => some .byteInFlight
  | some .tx => some .byteInFlight
  | some .rx => some .byteInFlight
  | none =>
    match t.mode with
    | .none => some .idle
    | .afterStart => some .startAsserted
    | .mt => none
    | .mr => none
    | .mrEnd => none

/-- The field update of a TWCR write (40_twi_unit.md R126): TWINT is cleared by writing it one, TWWC is unchanged. -/
def Twi.fieldUpdate (l : TwcrLayout) (v : Byte) (t : Twi) : Twi :=
  { t with
    twea := fieldEa v
    twsta := fieldSta v
    twsto := fieldSto v
    twen := fieldEn l v
    twie := match l with
      | .source => t.twie
      | .avrSilicon => fieldIe v
    twint := if fieldInt v then false else t.twint }

/-- A TWDR write (40_twi_unit.md R124): stored while TWINT = 1, and a collision otherwise. -/
def Twi.writeTwdr (v : Byte) (t : Twi) : Twi :=
  if t.twint then { t with twdr := v, twwc := false } else { t with twwc := true }

/-- A TWSR write: only TWPS (40_twi_unit.md R122). -/
def Twi.writeTwsr (v : Byte) (t : Twi) : Twi := { t with twps := v.truncate 2 }

/-- TWS for a status code (30_encoding.md R98): the code without its three low zero bits. -/
def twsOf (code : Byte) : BitVec 5 := code.extractLsb' 3 5

/-- The mask of the status code (30_encoding.md R92). -/
def statusMask : Byte := 0xF8#8

/-- 0xF8, "no relevant state information" (30_encoding.md R98). -/
def codeNone : Byte := 0xF8#8
/-- 0x00, bus error. -/
def codeBusError : Byte := 0x00#8
/-- 0x08, START transmitted. -/
def codeStart : Byte := 0x08#8
/-- 0x10, repeated START transmitted. -/
def codeRepStart : Byte := 0x10#8
/-- 0x18 / 0x20, SLA+W transmitted and answered. -/
def codeSlaW : Ack → Byte
  | .ack => 0x18#8
  | .nack => 0x20#8
/-- 0x40 / 0x48, SLA+R transmitted and answered. -/
def codeSlaR : Ack → Byte
  | .ack => 0x40#8
  | .nack => 0x48#8
/-- 0x28 / 0x30, data transmitted and answered. -/
def codeTx : Ack → Byte
  | .ack => 0x28#8
  | .nack => 0x30#8
/-- 0x50 / 0x58, data received and answered by the master. -/
def codeRx : Ack → Byte
  | .ack => 0x50#8
  | .nack => 0x58#8

end Sys2Proof.Machine
end

