-- ==== Sys2Proof/Machine/Ops.lean ====
section
/-! DEFINITION. The operations every meaning is written with: the frame buffer, the draws, the trace, register reads and
writes (with the engine's launch), what the host is given, and ending a request with its response, which is this block's
"taking an exception" (60_exceptions.md R245: no trap, no vector, nothing to return from). -/

namespace Sys2Proof.Machine

/-- The outcome of a step of this machine. -/
abbrev Out := Host.Outcome State Fault Refusal

/-- Go on from a next state; a fault or a refusal stays one. -/
def andThen (o : Out) (f : State → Out) : Out :=
  match o with
  | .next s => f s
  | .fault r => .fault r
  | .refused r => .refused r

/-! ### The frame buffer (10_state.md R40, R41) -/

/-- The byte at an index: an index that is not listed reads 0x00, the buffer's reset value (10_state.md R40). -/
def Memory.read (m : Memory) (a : Nat) : Byte :=
  match m with
  | [] => 0#8
  | (b, v) :: rest => if b = a then v else Memory.read rest a

/-- Write one byte. The list stays in its canonical form: indices rising, no zero byte listed. -/
def Memory.write (m : Memory) (a : Nat) (v : Byte) : Memory :=
  match m with
  | [] => if v = 0#8 then [] else [(a, v)]
  | (b, w) :: rest =>
    if a < b then (if v = 0#8 then (b, w) :: rest else (a, v) :: (b, w) :: rest)
    else if a = b then (if v = 0#8 then rest else (a, v) :: rest)
    else (b, w) :: Memory.write rest a v

/-- Every listed index is above `a`. -/
def Memory.above (a : Nat) : Memory → Bool
  | [] => true
  | (b, _) :: rest => decide (a < b) && Memory.above a rest

/-- The canonical form: indices strictly rising, no byte 0x00 listed. -/
def Memory.wf : Memory → Bool
  | [] => true
  | (a, v) :: rest => v != 0#8 && Memory.above a rest && Memory.wf rest

/-- Every listed index is below `n`. -/
def Memory.below (n : Nat) : Memory → Bool
  | [] => true
  | (a, _) :: rest => decide (a < n) && Memory.below n rest

/-- MemRead(a, 1) (00_scope.md R19): nothing outside the buffer (20_memory.md R61). -/
def State.memRead (s : State) (a : Nat) : Option Byte :=
  if a < s.cfg.bufSize then some (Memory.read s.fb a) else none

/-! ### Draws (00_scope.md R19; log 2) -/

/-- The next answer of a list given in advance, or the free value with the current number. -/
def draw {α : Type} (q : List α) (free : Nat → α) (n : Nat) : α × List α × Nat :=
  match q with
  | v :: rest => (v, rest, n)
  | [] => (free n, [], n + 1)

/-- Draw(Bool): does the operation stall? -/
def Oracle.stall (o : Oracle) : Bool × Oracle :=
  let d := draw o.stalls Config.freeStall o.count
  (d.1, { o with stalls := d.2.1, count := d.2.2 })

/-- After how many other steps does it complete? -/
def Oracle.delay (o : Oracle) : Nat × Oracle :=
  let d := draw o.delays Config.freeDelay o.count
  (d.1, { o with delays := d.2.1, count := d.2.2 })

/-- Draw(Bool): does it end in a bus error? -/
def Oracle.busErr (o : Oracle) : Bool × Oracle :=
  let d := draw o.busErrs Config.freeBusErr o.count
  (d.1, { o with busErrs := d.2.1, count := d.2.2 })

/-- Draw of ACK or NACK. -/
def Oracle.ack (o : Oracle) : Ack × Oracle :=
  let d := draw o.acks (fun n => if Config.freeAck n then Ack.ack else Ack.nack) o.count
  (d.1, { o with acks := d.2.1, count := d.2.2 })

/-- Draw(u8): the byte the slave drives. -/
def Oracle.rx (o : Oracle) : Byte × Oracle :=
  let d := draw o.rxs Config.freeRx o.count
  (d.1, { o with rxs := d.2.1, count := d.2.2 })

/-- Draw(u8): a TWDR read while busy. -/
def Oracle.twdr (o : Oracle) : Byte × Oracle :=
  let d := draw o.twdrs Config.freeTwdr o.count
  (d.1, { o with twdrs := d.2.1, count := d.2.2 })

/-- SLAVE_MAY_STALL ∧ Draw(Bool) (40_twi_unit.md R130): no draw where the parameter is false (log 22). -/
def State.drawStall (s : State) : Bool × Oracle :=
  if s.cfg.slaveMayStall then s.oracle.stall else (false, s.oracle)

/-- BUS_ERROR_POSSIBLE ∧ Draw(Bool) (40_twi_unit.md R141-R145): no draw where the parameter is false (log 22). -/
def State.drawBusErr (s : State) : Bool × Oracle :=
  if s.cfg.busErrorPossible then s.oracle.busErr else (false, s.oracle)

/-! ### The host -/

/-- The host receives something (log 16). -/
def State.give (r : Received) (s : State) : State :=
  { s with host := { s.host with received := s.host.received ++ [r] } }

/-! ### Register reads (40_twi_unit.md R121-R125) -/

/-- A TWDR read: while busy a fresh draw, else the register (40_twi_unit.md R123). -/
def State.readTwdr (s : State) : Byte × State :=
  if s.twi.busy then (s.oracle.twdr.1, { s with oracle := s.oracle.twdr.2 }) else (s.twi.twdr, s)

/-- TWCR as read now (40_twi_unit.md R125). -/
def State.twcr (s : State) : Byte := s.twi.twcr s.cfg.layout

/-! ### TWCR writes (40_twi_unit.md R126-R138) -/

/-- TWCR_DISABLE (40_twi_unit.md R128). -/
def State.disable (v : Byte) (s : State) : State :=
  { s with
    twi := { s.twi.fieldUpdate s.cfg.layout v with
      op := none, stalled := false, delay := 0, mode := .none, tws := twsOf codeNone }
    trace := if s.twi.mode = .none then s.trace else s.trace ++ [.abort] }

/-- TWCR_HOLD (40_twi_unit.md R129): the field update only. -/
def State.hold (v : Byte) (s : State) : State := { s with twi := s.twi.fieldUpdate s.cfg.layout v }

/-- The common part of a launch (40_twi_unit.md R130). -/
def State.launch (k : Op) (v : Byte) (s : State) : State :=
  { s with
    twi := { s.twi.fieldUpdate s.cfg.layout v with
      tws := twsOf codeNone, op := some k, stalled := s.drawStall.1, delay := s.drawStall.2.delay.1 }
    oracle := s.drawStall.2.delay.2 }

/-- The line of 30_encoding.md R89 a write of `v` meets in this state. -/
def State.line (s : State) (v : Byte) : TwcrLine := twcrLine s.cfg.layout s.twi.busy s.twi.mode v

/-- The effect of the TWCR lines that have one, and none for the lines the spec refuses (40_twi_unit.md R127). -/
def State.lineEffect (line : TwcrLine) (v : Byte) (s : State) : Option State :=
  match line with
  | .disable => some (s.disable v)
  | .hold => some (s.hold v)
  | .start => some (s.launch .start v)
  | .stop => some (s.launch .stop v)
  | .sla => some (s.launch .sla v)
  | .tx => some (s.launch .tx v)
  | .rxAck => some (s.launch .rx v)
  | .rxNack => some (s.launch .rx v)
  | .whileBusy => none
  | .noIntSta => none
  | .noIntSto => none
  | .staSto => none
  | .byteRefused => none

/-- RegWrite(TWCR, v): the dispatch of 40_twi_unit.md R127. -/
def State.writeTwcr (v : Byte) (s : State) : Out :=
  match s.lineEffect (s.line v) v with
  | some t => .next t
  | none => .refused .twcrUnmodelled

/-- RegWrite(TWDR, v) (40_twi_unit.md R124). -/
def State.writeTwdr (v : Byte) (s : State) : State := { s with twi := s.twi.writeTwdr v }

/-! ### Host register accesses -/

/-- The register set is the sequencer's: a request runs or a raw transaction is open (20_memory.md R78). -/
def State.locked (s : State) : Bool := s.seq.seqBusy || s.seq.isOpen

/-- A host register access (20_memory.md R78): refused while the set is the sequencer's. -/
def hostAccess (s : State) (o : Out) : Out := if s.locked then .refused .hostExclusive else o

/-- A host read: the value goes to the host, and nothing of the block changes (20_memory.md R72). -/
def hostRead (s : State) (r : Byte × State) : Out := hostAccess s (.next (r.2.give (.value r.1)))

/-- A host write of a TWCR row: its effect on its own line; a refused line refuses; in a state where `v` is on another line
the row is not what is written (log 13). -/
def hostTwcr (line : TwcrLine) (v : Byte) (s : State) : Out :=
  hostAccess s
    (if s.line v = line ∨ lineRefuses (s.line v) then s.writeTwcr v else .refused .offLine)

/-! ### Requests: issue and response (10_state.md R43, 60_exceptions.md R245) -/

/-- The request is in progress from here (10_state.md R43), with no transaction begun. -/
def State.issue (i : Instr) (s : State) : State :=
  { s with seq := { s.seq with seqBusy := true, req := some i, txn := none, job := none, jobs := [], acc := [] } }

/-- The end of a request: `resp` holds the response, the sequencer is idle, the locals are unspecified again
(10_state.md R43, R46; 60_exceptions.md R245; log 4, log 18). -/
def State.respond (r : Response) (s : State) : State :=
  { s with
    seq := { s.seq with
      seqBusy := false, req := none, resp := some r, pos := .idle, txn := none, job := none, jobs := [], acc := []
      locals := Locals.free s.oracle.count }
    oracle := { s.oracle with count := s.oracle.count + 1 }
    host := { s.host with received := s.host.received ++ [.response r] } }

/-- `raise E(info)` for a BusError: the request ends with it, nothing is trapped (60_exceptions.md R245). -/
def State.raiseBus (e : BusError) (s : State) : State := s.respond (.busErr e)

/-- `raise E(info)` for a DisplayError (60_exceptions.md R245, 43_display_commands.md R199). -/
def State.raiseDisplay (e : DisplayError) (s : State) : State := s.respond (.displayErr e)

/-- The next micro-step is the first access of a primitive. -/
def State.call (p : Prim) (s : State) : State := { s with seq := { s.seq with pos := .prim p .write } }

/-- The next micro-step. -/
def State.goto (q : Pos) (s : State) : State := { s with seq := { s.seq with pos := q } }

/-- A request with no bus activity: one at a time, accepted while open (60_exceptions.md R258). -/
def request (i : Instr) (s : State) (run : State → State) : Out :=
  if s.seq.seqBusy then .refused .seqBusy else .next (run (s.issue i))

/-- A request with a condition on the pairing of raw primitives (41_bus_primitives.md R167, 42_bus_transactions.md R186);
log 14 for the order of the two refusals. -/
def pairedRequest (i : Instr) (ok : Bool) (s : State) (run : State → State) : Out :=
  if s.seq.seqBusy then .refused .seqBusy
  else if ok then .next (run (s.issue i)) else .refused .hostPairing

end Sys2Proof.Machine
end

