-- ==== Sys2Proof/Machine/Engine.lean ====
section
/-! DEFINITION. The TWI engine's completions (40_twi_unit.md R140-R149), each one atomic step. -/

namespace Sys2Proof.Machine

/-- Bus-error completion (40_twi_unit.md R146). -/
def completeBusErr (s : State) : State :=
  { s with
    twi := { s.twi with twint := true, tws := twsOf codeBusError, mode := .none, op := none }
    trace := s.trace ++ [.busErr] }

/-- The end of a completion other than a bus error or a STOP: TWINT set, the status, the next mode, not busy, one event. -/
def completeWith (code : Byte) (mode : Mode) (ev : Event) (s : State) : State :=
  { s with
    twi := { s.twi with twint := true, tws := twsOf code, mode := mode, op := none }
    trace := s.trace ++ [ev] }

/-- Completion of START (40_twi_unit.md R141). -/
def completeStart (s : State) : State :=
  if s.twi.mode = .none then completeWith codeStart .afterStart .start s
  else completeWith codeRepStart .afterStart .repStart s

/-- Completion of SLA (40_twi_unit.md R142 for d = 0, R143 for d = 1); d is TWDR[0]. -/
def completeSla (s : State) : State :=
  let a := s.oracle.ack
  let t := { s with oracle := a.2 }
  if s.twi.twdr.getLsbD 0 then
    completeWith (codeSlaR a.1) (if a.1 = .ack then .mr else .mrEnd) (.tx s.twi.twdr a.1) t
  else completeWith (codeSlaW a.1) .mt (.tx s.twi.twdr a.1) t

/-- Completion of TX (40_twi_unit.md R144). -/
def completeTx (s : State) : State :=
  let a := s.oracle.ack
  completeWith (codeTx a.1) .mt (.tx s.twi.twdr a.1) { s with oracle := a.2 }

/-- The master's answer to a received byte: ACK with TWEA = 1 (10_state.md R26). -/
def Twi.answer (t : Twi) : Ack := if t.twea then .ack else .nack

/-- Completion of RX (40_twi_unit.md R145). -/
def completeRx (s : State) : State :=
  let r := s.oracle.rx
  let m := s.twi.answer
  completeWith (codeRx m) (if m = .ack then .mr else .mrEnd) (.rx r.1 m)
    { s with twi := { s.twi with twdr := r.1 }, oracle := r.2 }

/-- Completion of STOP (40_twi_unit.md R147): no event where the bus was not held, and TWINT is not set. -/
def completeStop (s : State) : State :=
  { s with
    twi := { s.twi with twsto := false, tws := twsOf codeNone, mode := .none, op := none }
    trace := if s.twi.mode = .none then s.trace else s.trace ++ [.stop] }

/-- The normal completion, or a bus error where the oracle chooses one (40_twi_unit.md R141-R146). -/
def orBusErr (s : State) (normal : State → State) : State :=
  let e := s.drawBusErr
  if e.1 then completeBusErr { s with oracle := e.2 } else normal { s with oracle := e.2 }

/-- The engine's step: the completion of the operation in flight (40_twi_unit.md R140). -/
def complete (s : State) : State :=
  match s.twi.op with
  | none => s
  | some .start => orBusErr s completeStart
  | some .sla => orBusErr s completeSla
  | some .tx => orBusErr s completeTx
  | some .rx => orBusErr s completeRx
  | some .stop => completeStop s

/-- The operation in flight will complete (40_twi_unit.md R140). -/
def State.running (s : State) : Bool := s.twi.busy && !s.twi.stalled

/-- One step of another agent passes while an operation runs (log 5). -/
def State.tick (s : State) : State :=
  if s.running then { s with twi := { s.twi with delay := s.twi.delay - 1 } } else s

end Sys2Proof.Machine
end

