-- ==== Sys2Proof/Machine/FrameBuffer.lean ====
section
/-! DEFINITION. The frame-buffer requests FB_PIXEL and FB_LINE and their micro-steps (44_framebuffer.md R221-R225). -/

namespace Sys2Proof.Machine

/-- `idx = x + (y / 8) * WIDTH` in Nat (44_framebuffer.md R221). -/
def pixelIndex (width x y : Nat) : Nat := x + (y / 8) * width

/-- Bit `y % 8` of a byte set or cleared (44_framebuffer.md R221). -/
def setBit (b : Byte) (n : Nat) (on : Bool) : Byte :=
  if on then b ||| (1#8 <<< n) else b &&& ~~~(1#8 <<< n)

/-- The pixel at column x, row y: bit `y % 8` of its byte (10_state.md R41). -/
def pixelAt (width : Nat) (fb : Memory) (x y : Nat) : Bool :=
  (Memory.read fb (pixelIndex width x y)).getLsbD (y % 8)

/-- drawPixel on the frame buffer (44_framebuffer.md R221): clipped outside WIDTH × HEIGHT, else one read-modify-write. -/
def drawPixel (width : Nat) (fb : Memory) (x y : Nat) (on : Bool) : Memory :=
  if width ≤ x ∨ Config.height ≤ y then fb
  else
    Memory.write fb (pixelIndex width x y)
      (setBit (Memory.read fb (pixelIndex width x y)) (y % 8) on)

/-- drawPixel as a change of the state (20_memory.md R79: one micro-step). -/
def State.plot (x y : Nat) (on : Bool) (s : State) : State := { s with fb := drawPixel s.cfg.width s.fb x y on }

/-- FB_PIXEL's micro-step. -/
def pixelStep (x y : Byte) (on : Bool) (s : State) : State := (s.plot x.toNat y.toNat on).respond (.ok [])

/-- The locals at the start of drawLine's loop (44_framebuffer.md R223), in unbounded Int. -/
def lineLocals (x0 y0 x1 y1 : Byte) (l : Locals) : Locals :=
  let ax : Int := x0.toNat
  let ay : Int := y0.toNat
  let bx : Int := x1.toNat
  let bY : Int := y1.toNat
  { l with
    x := ax
    y := ay
    dx := |bx - ax|
    dy := |bY - ay|
    sx := if ax < bx then 1 else -1
    sy := if ay < bY then 1 else -1
    err := |bx - ax| - |bY - ay| }

/-- `if e2 > -dy: err <- err - dy; x <- x + sx` (44_framebuffer.md R224). -/
def lineStepX (l : Locals) : Locals :=
  if l.e2 > -l.dy then { l with err := l.err - l.dy, x := l.x + l.sx } else l

/-- `if e2 < dx: err <- err + dx; y <- y + sy` (44_framebuffer.md R224). -/
def lineStepY (l : Locals) : Locals :=
  if l.e2 < l.dx then { l with err := l.err + l.dx, y := l.y + l.sy } else l

/-- The step to the next point: both tests on the same e2, in this order (44_framebuffer.md R224). -/
def lineAdvance (l : Locals) : Locals := lineStepY (lineStepX { l with e2 := 2 * l.err })

/-- One pass of drawLine's loop: plot, test for the end point, step (44_framebuffer.md R224). -/
def linePass (x1 y1 : Byte) (on : Bool) (s : State) : State :=
  let l := s.seq.locals
  let t := s.plot l.x.toNat l.y.toNat on
  if l.x = x1.toNat ∧ l.y = y1.toNat then t.respond (.ok [])
  else { t with seq := { t.seq with locals := lineAdvance l } }

/-- The micro-step before the loop is the issue itself: the locals are set (log 8). -/
def State.startLine (x0 y0 x1 y1 : Byte) (on : Bool) (s : State) : State :=
  { s with seq := { s.seq with locals := lineLocals x0 y0 x1 y1 s.seq.locals, pos := .line x1 y1 on } }

/-- FB_PIXEL (44_framebuffer.md R221); accepted while open. -/
def execFbPixel (x y : Byte) (on : Bool) (s : State) : Out :=
  request (.fbPixel x y on) s (State.goto (.pixel x y on))

/-- FB_LINE (44_framebuffer.md R223); accepted while open. -/
def execFbLine (x0 y0 x1 y1 : Byte) (on : Bool) (s : State) : Out :=
  request (.fbLine x0 y0 x1 y1 on) s (State.startLine x0 y0 x1 y1 on)

end Sys2Proof.Machine
end

