-- ==== Sys2Proof/Machine/Sequencer.lean ====
section
/-! DEFINITION. The sequencer's micro-steps: the bus primitives (41_bus_primitives.md R161-R168), the transactions built of
them with the release policy (42_bus_transactions.md R181-R185), the display commands (43_display_commands.md R196-R205) and
flush (44_framebuffer.md R226-R229). A micro-step is one register or frame-buffer access and the local computation after it
(log 8). -/

namespace Sys2Proof.Machine

/-- The step an error of sendByte names (41_bus_primitives.md R165). -/
def SendRole.step : SendRole → BusStep
  | .addrW => .addrW
  | .addrR => .addrR
  | .data i => .data i

/-- The status sendByte requires (41_bus_primitives.md R165, R168). -/
def SendRole.expected : SendRole → Byte
  | .addrW => codeSlaW .ack
  | .addrR => codeSlaR .ack
  | .data _ => codeTx .ack

/-- The error of a status mismatch in sendByte (41_bus_primitives.md R165). -/
def SendRole.mismatch (r : SendRole) (status : Byte) : BusError :=
  match r with
  | .addrW => { kind := .protocol, step := .addrW, status := some status, released := none }
  | .addrR => { kind := .protocol, step := .addrR, status := some status, released := none }
  | .data i => { kind := .nack, step := .data i, status := some status, released := none }

/-- The step of a primitive, as the errors of its wait name it (41_bus_primitives.md R163-R166). -/
def Prim.step : Prim → BusStep
  | .start => .start
  | .stop => .stop
  | .send _ role => role.step
  | .recv _ i => .rx i

/-- `Protocol(step, s)` (60_exceptions.md R241). -/
def protocolError (step : BusStep) (status : Byte) : BusError :=
  { kind := .protocol, step := step, status := some status, released := none }

/-- `WriteCollision(step)` (60_exceptions.md R241). -/
def collisionError (step : BusStep) : BusError :=
  { kind := .writeCollision, step := step, status := none, released := none }

/-- `Timeout(step)` (60_exceptions.md R241). -/
def timeoutError (step : BusStep) : BusError :=
  { kind := .timeout, step := step, status := none, released := none }

/-! ### Display level: the next transaction of the request, or its response -/

/-- The transactions of one page of flush after its page command: the three column-window commands, then the data
(44_framebuffer.md R226-R228). -/
def pageJobs (width : Nat) : List Job :=
  [.cmd 0x21#8, .cmd 0x00#8, .cmd (BitVec.ofNat 8 (width - 1)), .frame]

/-- Start a transaction: its first primitive is `start` (42_bus_transactions.md R181, R183). -/
def State.startTxn (t : Txn) (s : State) : State :=
  State.call .start { s with seq := { s.seq with txn := some { txn := t, buf := [], releasing := none } } }

/-- Start a display transaction: a command is the write transaction `[CTRL_CMD, b]` to DEV_ADDR (43_display_commands.md
R196); the data of a page is read from the frame buffer first (44_framebuffer.md R226, R228; log 19). -/
def State.startJob (j : Job) (rest : List Job) (s : State) : State :=
  let t := { s with seq := { s.seq with job := some j, jobs := rest } }
  match j with
  | .cmd b => t.startTxn (.write Config.devAddr [Config.ctrlCmd, b])
  | .frame => { t with seq := { t.seq with pos := .gather, acc := [], locals := { t.seq.locals with i := 0 } } }

/-- The request in progress is DISP_FLUSH. -/
def State.flushing (s : State) : Bool := decide (s.seq.req = some .dispFlush)

/-- Start flush's pass for page `p`: the page command first (44_framebuffer.md R226). -/
def State.startPage (p : Nat) (s : State) : State :=
  State.startJob (.cmd (pageStartByte (BitVec.ofNat 8 p))) (pageJobs s.cfg.width)
    { s with seq := { s.seq with locals := { s.seq.locals with p := p } } }

/-- After a display transaction that succeeded: the next one; in flush the next page, in increasing order; else the request
is done (43_display_commands.md R197, R205, 44_framebuffer.md R226). -/
def State.nextJob (s : State) : State :=
  match s.seq.jobs with
  | j :: rest => s.startJob j rest
  | [] =>
    if s.flushing ∧ s.seq.locals.p + 1 < Config.pages then s.startPage (s.seq.locals.p + 1)
    else s.respond (.ok [])

/-- The DisplayError of the transaction in progress (43_display_commands.md R199, 44_framebuffer.md R229): the page in flush
only, the command byte where it is a command. -/
def State.displayError (job : Job) (e : BusError) (s : State) : DisplayError where
  page := if s.flushing then some s.seq.locals.p else none
  command := match job with
    | .cmd b => some b
    | .frame => none
  cause := e

/-! ### Transaction level -/

/-- The end of a transaction (or of WRITE_TXN / READ_TXN itself): a display request goes on or ends with a DisplayError. -/
def State.txnDone (r : Except BusError (List Byte)) (s : State) : State :=
  let t := { s with seq := { s.seq with txn := none } }
  match s.seq.job, r with
  | none, .ok v => t.respond (.ok v)
  | none, .error e => t.raiseBus e
  | some _, .ok _ => t.nextJob
  | some j, .error e => t.raiseDisplay (s.displayError j e)

/-- The byte loop of a write transaction from index `i`: `sendByte(bytes[i], DATA(i))`, or the final stop
(42_bus_transactions.md R181). -/
def State.sendFrom (bytes : List Byte) (i : Nat) (s : State) : State :=
  let t := { s with seq := { s.seq with locals := { s.seq.locals with i := i } } }
  match bytes.drop i with
  | b :: _ => t.call (.send b (.data i))
  | [] => t.call .stop

/-- The byte loop of a read transaction from index `i`: `receiveByte(i < n-1, i)`, or the final stop
(42_bus_transactions.md R183). -/
def State.recvFrom (n i : Nat) (s : State) : State :=
  let t := { s with seq := { s.seq with locals := { s.seq.locals with i := i } } }
  if i < n then t.call (.recv (decide (i + 1 < n)) i) else t.call .stop

/-- What follows a primitive that succeeded inside a transaction (42_bus_transactions.md R181, R183). -/
def State.txnNext (t : TxnFrame) (p : Prim) (v : List Byte) (s : State) : State :=
  match t.txn, p with
  | .write a _, .start => s.call (.send (slaByte a false) .addrW)
  | .write _ bytes, .send _ .addrW => s.sendFrom bytes 0
  | .write _ bytes, .send _ _ => s.sendFrom bytes (s.seq.locals.i + 1)
  | .write _ _, .recv _ _ => s.call .stop
  | .write _ _, .stop => s.txnDone (.ok [])
  | .read a _, .start => s.call (.send (slaByte a true) .addrR)
  | .read _ n, .send _ _ => s.recvFrom n 0
  | .read _ n, .recv _ _ =>
    State.recvFrom n (s.seq.locals.i + 1) { s with seq := { s.seq with txn := some { t with buf := t.buf ++ v } } }
  | .read _ _, .stop => s.txnDone (.ok t.buf)

/-- `release(e)` (42_bus_transactions.md R185): nothing after a Timeout, else a stop whose outcome is recorded. -/
def State.release (t : TxnFrame) (e : BusError) (s : State) : State :=
  if e.kind = .timeout then s.txnDone (.error { e with released := none })
  else State.call .stop { s with seq := { s.seq with txn := some { t with releasing := some e } } }

/-- Whether a result is `Ok`. -/
def isOk (r : Except BusError (List Byte)) : Bool :=
  match r with
  | .ok _ => true
  | .error _ => false

/-- The return of a primitive with its result: to the host for a raw request (41_bus_primitives.md R167), into `release` while
releasing, and else on with the transaction or into its release (42_bus_transactions.md R181-R185). -/
def State.primDone (p : Prim) (r : Except BusError (List Byte)) (s : State) : State :=
  match s.seq.txn with
  | none =>
    match r with
    | .ok v => s.respond (.ok v)
    | .error e => s.raiseBus e
  | some t =>
    match t.releasing with
    | some e => s.txnDone (.error { e with released := some (isOk r) })
    | none =>
      match r with
      | .ok v => s.txnNext t p v
      | .error e => s.release t e

/-! ### Primitive level -/

/-- The wait begins: `polls <- 0` (41_bus_primitives.md R161). -/
def State.beginWait (p : Prim) (s : State) : State :=
  { s with seq := { s.seq with polls := 0, pos := .prim p .poll } }

/-- The first access of a primitive (41_bus_primitives.md R163-R166). -/
def primWrite (p : Prim) (s : State) : Out :=
  match p with
  | .start => andThen (s.writeTwcr (cmdStart s.cfg.layout)) (fun t => .next (t.beginWait p))
  | .stop => andThen (s.writeTwcr (cmdStop s.cfg.layout)) (fun t => .next (t.beginWait p))
  | .send b _ => .next ((s.writeTwdr b).goto (.prim p .check))
  | .recv ack _ =>
    andThen (s.writeTwcr (if ack then cmdRxAck s.cfg.layout else cmdRxNack s.cfg.layout))
      (fun t => .next (t.beginWait p))

/-- sendByte's TWWC check, on bit 3 of TWCR (41_bus_primitives.md R165). -/
def primCheck (p : Prim) (s : State) : State :=
  if s.twcr.getLsbD 3 then s.primDone p (.error (collisionError p.step)) else s.goto (.prim p .launch)

/-- sendByte's launch (41_bus_primitives.md R165). -/
def primLaunch (p : Prim) (s : State) : Out :=
  andThen (s.writeTwcr (cmdTx s.cfg.layout)) (fun t => .next (t.beginWait p))

/-- The wait condition on a TWCR value: TWSTO clear for stop, TWINT set otherwise (41_bus_primitives.md R161). -/
def waitCond (p : Prim) (c : Byte) : Bool :=
  match p with
  | .stop => !c.getLsbD 4
  | .start => c.getLsbD 7
  | .send _ _ => c.getLsbD 7
  | .recv _ _ => c.getLsbD 7

/-- What follows the wait: the status read, or for stop the return (41_bus_primitives.md R163-R166). -/
def State.afterWait (p : Prim) (s : State) : State :=
  match p with
  | .stop => s.primDone p (.ok [])
  | .start => s.goto (.prim p .status)
  | .send _ _ => s.goto (.prim p .status)
  | .recv _ _ => s.goto (.prim p .status)

/-- POLL_LIMIT = SOME L and `n >= L` (41_bus_primitives.md R161). -/
def limitReached (limit : Option Nat) (n : Nat) : Bool :=
  match limit with
  | none => false
  | some l => decide (l ≤ n)

/-- One read of the busy-wait (41_bus_primitives.md R161): the condition is tested on the mask. -/
def primPoll (p : Prim) (s : State) : State :=
  if waitCond p s.twcr then s.afterWait p
  else
    let t := { s with seq := { s.seq with polls := s.seq.polls + 1 } }
    if limitReached s.cfg.pollLimit (s.seq.polls + 1) then t.goto (.prim p .recover) else t

/-- `recover()` and the Timeout (41_bus_primitives.md R161, R162). -/
def primRecover (p : Prim) (s : State) : Out :=
  andThen (s.writeTwcr cmdDisable) (fun t => .next (t.primDone p (.error (timeoutError p.step))))

/-- What the status read decides (41_bus_primitives.md R163, R165, R166, R168). -/
def State.statusResult (p : Prim) (status : Byte) (s : State) : State :=
  match p with
  | .start =>
    if status = codeStart then s.primDone p (.ok []) else s.primDone p (.error (protocolError .start status))
  | .stop => s.primDone p (.ok [])
  | .send _ role =>
    if status = role.expected then s.primDone p (.ok []) else s.primDone p (.error (role.mismatch status))
  | .recv ack i =>
    if status = codeRx (if ack then .ack else .nack) then s.goto (.prim p .data)
    else s.primDone p (.error (protocolError (.rx i) status))

/-- The status read: `s <- RegRead(TWSR) & 0xF8`, kept in lastStatus (10_state.md R53, 30_encoding.md R92). -/
def primStatus (p : Prim) (s : State) : State :=
  let status := s.twi.twsr &&& statusMask
  State.statusResult p status { s with seq := { s.seq with lastStatus := status } }

/-- receiveByte's data read (41_bus_primitives.md R166). -/
def primData (p : Prim) (s : State) : State := s.readTwdr.2.primDone p (.ok [s.readTwdr.1])

/-- One micro-step of a primitive. -/
def primStep (p : Prim) (ph : Phase) (s : State) : Out :=
  match ph with
  | .write => primWrite p s
  | .check => .next (primCheck p s)
  | .launch => primLaunch p s
  | .poll => .next (primPoll p s)
  | .recover => primRecover p s
  | .status => .next (primStatus p s)
  | .data => .next (primData p s)

/-- flush reads the next byte of its page; with WIDTH of them it starts the data transaction (44_framebuffer.md R226, R228). -/
def gatherStep (s : State) : Out :=
  match s.memRead (s.seq.locals.p * s.cfg.width + s.seq.locals.i) with
  | none => .fault .frameBufferRange
  | some b =>
    let acc := s.seq.acc ++ [b]
    let i := s.seq.locals.i + 1
    let t := { s with seq := { s.seq with acc := acc, locals := { s.seq.locals with i := i } } }
    if i < s.cfg.width then .next t else .next (t.startTxn (.write Config.devAddr (Config.ctrlData :: acc)))

/-- One micro-step of the sequencer (00_scope.md R7, 10_state.md R52). -/
def seqStep (s : State) : Out :=
  match s.seq.pos with
  | .idle => .next s
  | .prim p ph => primStep p ph s
  | .gather => gatherStep s
  | .pixel x y on => .next (pixelStep x y on s)
  | .line x1 y1 on => .next (linePass x1 y1 on s)
  | .done => .next (s.respond (.ok []))

end Sys2Proof.Machine
end

