-- ==== Sys2Proof/Machine/Bus.lean ====
section
/-! DEFINITION. The raw primitive requests BUS_START, BUS_STOP, BUS_SEND, BUS_RECV (41_bus_primitives.md R163-R167), and the
control and address bytes sent on their own in their role (formats CTRL and SLA; log 12). -/

namespace Sys2Proof.Machine

/-- `open <- b` (41_bus_primitives.md R167). -/
def State.setOpen (b : Bool) (s : State) : State := { s with seq := { s.seq with isOpen := b } }

/-- The role of a raw BUS_SEND: code 2 means DATA(0) (41_bus_primitives.md R165). -/
def Role.sendRole : Role → SendRole
  | .addrW => .addrW
  | .addrR => .addrR
  | .data => .data 0

/-- A raw sendByte: refused unless open (41_bus_primitives.md R167). -/
def rawSend (i : Instr) (b : Byte) (role : SendRole) (s : State) : Out :=
  pairedRequest i s.seq.isOpen s (State.call (.send b role))

/-- BUS_START: refused while open, then `open <- true` and start() (41_bus_primitives.md R163, R167). -/
def execBusStart (s : State) : Out :=
  pairedRequest .busStart (!s.seq.isOpen) s (fun t => (t.setOpen true).call .start)

/-- BUS_STOP: `open <- false` and stop(), whether open or not (41_bus_primitives.md R164, R167). -/
def execBusStop (s : State) : Out := request .busStop s (fun t => (t.setOpen false).call .stop)

/-- BUS_SEND (41_bus_primitives.md R165, R167). -/
def execBusSend (b : Byte) (role : Role) (s : State) : Out := rawSend (.busSend b role) b (Role.sendRole role) s

/-- BUS_RECV: refused unless open with lastStatus 0x40 or 0x50 (41_bus_primitives.md R166, R167). -/
def execBusRecv (ack : Bool) (s : State) : Out :=
  pairedRequest (.busRecv ack)
    (s.seq.isOpen && (decide (s.seq.lastStatus = codeSlaR .ack) || decide (s.seq.lastStatus = codeRx .ack)))
    s (State.call (.recv ack 0))

/-- CTRL_CMD: the control byte 0x00, the first payload byte, so DATA(0) (43_display_commands.md R210; log 12). -/
def execCtrlCmd (s : State) : Out := rawSend .ctrlCmd Config.ctrlCmd (.data 0) s

/-- CTRL_DATA: the control byte 0x40, the first payload byte, so DATA(0) (43_display_commands.md R210; log 12). -/
def execCtrlData (s : State) : Out := rawSend .ctrlData Config.ctrlData (.data 0) s

/-- SLA+W: the address byte with direction 0, in role ADDR_W (30_encoding.md R93, R94; log 12). -/
def execSlaW (a : BitVec 7) (s : State) : Out := rawSend (.slaW a) (slaByte (a.setWidth 8) false) .addrW s

/-- SLA+R: the address byte with direction 1, in role ADDR_R (30_encoding.md R93, R94; log 12). -/
def execSlaR (a : BitVec 7) (s : State) : Out := rawSend (.slaR a) (slaByte (a.setWidth 8) true) .addrR s

end Sys2Proof.Machine
end

