-- ==== Sys2Proof/Machine/Display.lean ====
section
/-! DEFINITION. The display requests (43_display_commands.md R196-R205, 44_framebuffer.md R226), refused while open
(42_bus_transactions.md R186), and the display commands of the command table sent on their own (R200-R209; log 11). -/

namespace Sys2Proof.Machine

/-- The first command of a list, the others after it; an empty list sends nothing, and the next micro-step responds
(43_display_commands.md R205; log 20). -/
def State.startCommands (cmds : List Byte) (s : State) : State :=
  match cmds with
  | [] => s.goto .done
  | b :: rest => s.startJob (.cmd b) (rest.map Job.cmd)

/-- A display request that sends these commands in order, each by `command` (43_display_commands.md R196, R197, R205). -/
def displayRequest (i : Instr) (cmds : List Byte) (s : State) : Out :=
  pairedRequest i (!s.seq.isOpen) s (State.startCommands cmds)

/-- DISP_INIT: INIT_SEQUENCE in order (43_display_commands.md R205). -/
def execDispInit (s : State) : Out := displayRequest .dispInit s.cfg.initSequence s

/-- DISP_CMD: any byte, unchecked (43_display_commands.md R196). -/
def execDispCmd (b : Byte) (s : State) : Out := displayRequest (.dispCmd b) [b] s

/-- DISP_SET_COL: 0x21, start, end, each a command of its own (43_display_commands.md R197). -/
def execDispSetCol (first last : Byte) (s : State) : Out := displayRequest (.dispSetCol first last) [0x21#8, first, last] s

/-- DISP_SET_PAGE: refused for page >= 8 before any bus activity (43_display_commands.md R198). -/
def execDispSetPage (p : Byte) (s : State) : Out :=
  if Config.pages ≤ p.toNat then .refused .illFormed else displayRequest (.dispSetPage p) [pageStartByte p] s

/-- DISP_FLUSH: pages 0 .. 7 in increasing order (44_framebuffer.md R226). -/
def execDispFlush (s : State) : Out := pairedRequest .dispFlush (!s.seq.isOpen) s (State.startPage 0)

/-- DISPLAY_OFF = 0xAE (43_display_commands.md R200). -/
def execDisplayOff (s : State) : Out := displayRequest .displayOff [0xAE#8] s

/-- DISPLAY_ON = 0xAF (43_display_commands.md R201). -/
def execDisplayOn (s : State) : Out := displayRequest .displayOn [0xAF#8] s

/-- SET_CONTRAST = 0x81, then c (43_display_commands.md R202). -/
def execSetContrast (c : Byte) (s : State) : Out := displayRequest (.setContrast c) [0x81#8, c] s

/-- SET_COLUMN_WINDOW = 0x21, then start and end (43_display_commands.md R203). -/
def execSetColumnWindow (first last : Byte) (s : State) : Out :=
  displayRequest (.setColumnWindow first last) [0x21#8, first, last] s

/-- SET_PAGE_START = 0xB0 | p (43_display_commands.md R204). -/
def execSetPageStart (p : BitVec 3) (s : State) : Out := displayRequest (.setPageStart p) [pageStartByte (p.setWidth 8)] s

/-- SET_LOWER_COL = 0x00 | n (43_display_commands.md R206). -/
def execSetLowerCol (n : BitVec 4) (s : State) : Out := displayRequest (.setLowerCol n) [0x00#8 ||| n.setWidth 8] s

/-- SET_UPPER_COL = 0x10 | n (43_display_commands.md R207). -/
def execSetUpperCol (n : BitVec 4) (s : State) : Out := displayRequest (.setUpperCol n) [0x10#8 ||| n.setWidth 8] s

/-- SET_START_LINE = 0x40 | l (43_display_commands.md R208). -/
def execSetStartLine (l : BitVec 6) (s : State) : Out := displayRequest (.setStartLine l) [0x40#8 ||| l.setWidth 8] s

/-- SET_ADDR_MODE = 0x20, then the mode byte (43_display_commands.md R209). -/
def execSetAddrMode (m : Byte) (s : State) : Out := displayRequest (.setAddrMode m) [0x20#8, m] s

end Sys2Proof.Machine
end

