-- ==== Sys2Proof/Machine/Registers.lean ====
section
/-! DEFINITION. ACCESS: host reads of the four registers and writes of TWBR, TWSR and TWDR (40_twi_unit.md R121-R125). -/

namespace Sys2Proof.Machine

/-- RD TWBR (40_twi_unit.md R121). -/
def execRdTwbr (s : State) : Out := hostRead s (s.twi.twbr, s)

/-- WR TWBR (40_twi_unit.md R121). -/
def execWrTwbr (v : Byte) (s : State) : Out :=
  hostAccess s (.next { s with twi := { s.twi with twbr := v } })

/-- RD TWSR (40_twi_unit.md R122). -/
def execRdTwsr (s : State) : Out := hostRead s (s.twi.twsr, s)

/-- WR TWSR (40_twi_unit.md R122). -/
def execWrTwsr (v : Byte) (s : State) : Out :=
  hostAccess s (.next { s with twi := s.twi.writeTwsr v })

/-- RD TWDR (40_twi_unit.md R123). -/
def execRdTwdr (s : State) : Out := hostRead s s.readTwdr

/-- WR TWDR (40_twi_unit.md R124). -/
def execWrTwdr (v : Byte) (s : State) : Out := hostAccess s (.next (s.writeTwdr v))

/-- RD TWCR (40_twi_unit.md R125). -/
def execRdTwcr (s : State) : Out := hostRead s (s.twcr, s)

end Sys2Proof.Machine
end

