-- ==== Sys2Proof/Machine/Transactions.lean ====
section
/-! DEFINITION. The transaction requests WRITE_TXN and READ_TXN (42_bus_transactions.md R181-R187), refused while open (R186). -/

namespace Sys2Proof.Machine

/-- WRITE_TXN (42_bus_transactions.md R181). -/
def execWriteTxn (a : Byte) (bytes : List Byte) (s : State) : Out :=
  pairedRequest (.writeTxn a bytes) (!s.seq.isOpen) s (State.startTxn (.write a bytes))

/-- readTransaction's first line: n = 0 makes no bus activity and returns `Ok([])`, in the sequencer's next micro-step
(42_bus_transactions.md R183, 10_state.md R43; log 20). -/
def State.startRead (a : Byte) (n : Nat) (s : State) : State :=
  if n = 0 then s.goto .done else s.startTxn (.read a n)

/-- READ_TXN (42_bus_transactions.md R183). -/
def execReadTxn (a n : Byte) (s : State) : Out :=
  pairedRequest (.readTxn a n) (!s.seq.isOpen) s (State.startRead a n.toNat)

end Sys2Proof.Machine
end

