-- ==== Sys2Proof/Machine/Twcr.lean ====
section
/-! DEFINITION. ACCESS: host writes of TWCR, one meaning per row of the opcode table (30_encoding.md R89, 40_twi_unit.md
R126-R138). -/

namespace Sys2Proof.Machine

/-- TWCR_DISABLE, line 2 (40_twi_unit.md R128). -/
def execWrTwcrDisable (v : Byte) (s : State) : Out := hostTwcr .disable v s

/-- TWCR_HOLD, line 3 (40_twi_unit.md R129). -/
def execWrTwcrHold (v : Byte) (s : State) : Out := hostTwcr .hold v s

/-- Line 4 with TWSTA: refused (40_twi_unit.md R133, case 2). -/
def execWrTwcrNointSta (_v : Byte) (s : State) : Out := hostAccess s (.refused .twcrUnmodelled)

/-- Line 4 with TWSTO alone: refused (40_twi_unit.md R133, case 2). -/
def execWrTwcrNointSto (_v : Byte) (s : State) : Out := hostAccess s (.refused .twcrUnmodelled)

/-- Line 5: refused (40_twi_unit.md R133, case 3). -/
def execTwiStasto (_v : Byte) (s : State) : Out := hostAccess s (.refused .twcrUnmodelled)

/-- TWI_START, line 6 (40_twi_unit.md R131). -/
def execTwiStart (v : Byte) (s : State) : Out := hostTwcr .start v s

/-- TWI_STOP, line 7 (40_twi_unit.md R132). -/
def execTwiStop (v : Byte) (s : State) : Out := hostTwcr .stop v s

/-- TWI_SLA, line 8 (40_twi_unit.md R134). -/
def execTwiSla (v : Byte) (s : State) : Out := hostTwcr .sla v s

/-- TWI_TX, line 9 (40_twi_unit.md R135). -/
def execTwiTx (v : Byte) (s : State) : Out := hostTwcr .tx v s

/-- TWI_RX_ACK, line 10 (40_twi_unit.md R136). -/
def execTwiRxAck (v : Byte) (s : State) : Out := hostTwcr .rxAck v s

/-- TWI_RX_NACK, line 11 (40_twi_unit.md R137). -/
def execTwiRxNack (v : Byte) (s : State) : Out := hostTwcr .rxNack v s

/-- TWI_BYTE_REFUSED, line 12: refused (40_twi_unit.md R138). -/
def execTwiByteRefused (_v : Byte) (s : State) : Out := hostAccess s (.refused .twcrUnmodelled)

/-- A TWCR write while busy, line 1: refused (40_twi_unit.md R133, case 1). -/
def execWrTwcrWhileBusy (_v : Byte) (s : State) : Out := hostAccess s (.refused .twcrUnmodelled)

end Sys2Proof.Machine
end

