-- ==== Sys2Proof/Machine/Dispatch.lean ====
section
/-! DEFINITION. One arm for every constructor of Instr, each one call of its meaning. -/

namespace Sys2Proof.Machine

def exec (i : Instr) (s : State) : Host.Outcome State Fault Refusal :=
  match i with
  | .rdTwbr => Sys2Proof.Machine.execRdTwbr s
  | .wrTwbr v => Sys2Proof.Machine.execWrTwbr v s
  | .rdTwsr => Sys2Proof.Machine.execRdTwsr s
  | .wrTwsr v => Sys2Proof.Machine.execWrTwsr v s
  | .rdTwdr => Sys2Proof.Machine.execRdTwdr s
  | .wrTwdr v => Sys2Proof.Machine.execWrTwdr v s
  | .rdTwcr => Sys2Proof.Machine.execRdTwcr s
  | .wrTwcrDisable v => Sys2Proof.Machine.execWrTwcrDisable v s
  | .wrTwcrHold v => Sys2Proof.Machine.execWrTwcrHold v s
  | .wrTwcrNointSta v => Sys2Proof.Machine.execWrTwcrNointSta v s
  | .wrTwcrNointSto v => Sys2Proof.Machine.execWrTwcrNointSto v s
  | .twiStasto v => Sys2Proof.Machine.execTwiStasto v s
  | .twiStart v => Sys2Proof.Machine.execTwiStart v s
  | .twiStop v => Sys2Proof.Machine.execTwiStop v s
  | .twiSla v => Sys2Proof.Machine.execTwiSla v s
  | .twiTx v => Sys2Proof.Machine.execTwiTx v s
  | .twiRxAck v => Sys2Proof.Machine.execTwiRxAck v s
  | .twiRxNack v => Sys2Proof.Machine.execTwiRxNack v s
  | .twiByteRefused v => Sys2Proof.Machine.execTwiByteRefused v s
  | .wrTwcrWhileBusy v => Sys2Proof.Machine.execWrTwcrWhileBusy v s
  | .busStart => Sys2Proof.Machine.execBusStart s
  | .busStop => Sys2Proof.Machine.execBusStop s
  | .busSend data role => Sys2Proof.Machine.execBusSend data role s
  | .busRecv ack => Sys2Proof.Machine.execBusRecv ack s
  | .writeTxn a bytes => Sys2Proof.Machine.execWriteTxn a bytes s
  | .readTxn a n => Sys2Proof.Machine.execReadTxn a n s
  | .dispInit => Sys2Proof.Machine.execDispInit s
  | .dispCmd b => Sys2Proof.Machine.execDispCmd b s
  | .dispSetCol first last => Sys2Proof.Machine.execDispSetCol first last s
  | .dispSetPage p => Sys2Proof.Machine.execDispSetPage p s
  | .dispFlush => Sys2Proof.Machine.execDispFlush s
  | .fbPixel x y on => Sys2Proof.Machine.execFbPixel x y on s
  | .fbLine x0 y0 x1 y1 on => Sys2Proof.Machine.execFbLine x0 y0 x1 y1 on s
  | .displayOff => Sys2Proof.Machine.execDisplayOff s
  | .displayOn => Sys2Proof.Machine.execDisplayOn s
  | .setContrast c => Sys2Proof.Machine.execSetContrast c s
  | .setColumnWindow first last => Sys2Proof.Machine.execSetColumnWindow first last s
  | .setPageStart p => Sys2Proof.Machine.execSetPageStart p s
  | .setLowerCol n => Sys2Proof.Machine.execSetLowerCol n s
  | .setUpperCol n => Sys2Proof.Machine.execSetUpperCol n s
  | .setStartLine l => Sys2Proof.Machine.execSetStartLine l s
  | .setAddrMode m => Sys2Proof.Machine.execSetAddrMode m s
  | .ctrlCmd => Sys2Proof.Machine.execCtrlCmd s
  | .ctrlData => Sys2Proof.Machine.execCtrlData s
  | .slaW a => Sys2Proof.Machine.execSlaW a s
  | .slaR a => Sys2Proof.Machine.execSlaR a s

end Sys2Proof.Machine
end

