-- ==== Sys2Proof/WellFormed.lean ====
section
/-! DEFINITION. Which instructions are well formed: those that some word of the opcode table stands for. The operand types
rule out most ill-formed words (a role above 2, an `ack` or `on` above 1, 30_encoding.md R102); what is left to check is here. -/

namespace Sys2Proof

/-- The TWCR line of an instruction that is a TWCR write, with the byte it writes. -/
def Instr.twcrWrite : Instr → Option (TwcrLine × Byte)
  | .wrTwcrDisable v => some (.disable, v)
  | .wrTwcrHold v => some (.hold, v)
  | .wrTwcrNointSta v => some (.noIntSta, v)
  | .wrTwcrNointSto v => some (.noIntSto, v)
  | .twiStasto v => some (.staSto, v)
  | .twiStart v => some (.start, v)
  | .twiStop v => some (.stop, v)
  | .twiSla v => some (.sla, v)
  | .twiTx v => some (.tx, v)
  | .twiRxAck v => some (.rxAck, v)
  | .twiRxNack v => some (.rxNack, v)
  | .twiByteRefused v => some (.byteRefused, v)
  | .wrTwcrWhileBusy v => some (.whileBusy, v)
  | _ => none

/-- Well-formedness under a TWCR layout. A TWCR row's byte has the row's fixed bits (30_encoding.md R91, the table's match and
mask); a WRITE_TXN has at most 255 bytes (30_encoding.md R102); a DISP_SET_PAGE page is 0..7 (43_display_commands.md R198). -/
def Instr.wf (l : TwcrLayout) (i : Instr) : Bool :=
  match i with
  | .writeTxn _ bytes => decide (bytes.length ≤ 255)
  | .dispSetPage p => decide (p.toNat < Config.pages)
  | i =>
    match i.twcrWrite with
    | some (line, v) => Machine.lineBits l line v
    | none => true

end Sys2Proof
end

