-- ==== Sys2Proof/Decode.lean ====
section
/-! DEFINITION. The decoder, total on any bytes, and the encoder after it. The formats are those of 30_encoding.md R86; a
TWCR write is decoded by the byte and by the engine state (R89), so the decoder takes that part of the state. -/

namespace Sys2Proof

/-- What the decoder reads besides the bytes: the parameters that place registers and bits, and the engine state that
30_encoding.md R89 names. -/
structure DecodeCtx where
  cfg : Config
  busy : Bool
  mode : Mode
  deriving DecidableEq, Repr

/-- Why bytes are no instruction. -/
inductive Reject where
  /-- An access that is not 8 bits wide (20_memory.md R70). -/
  | accessWidth
  /-- A request with a reserved operation byte (30_encoding.md R103). -/
  | reservedOp
  /-- A request with an argument outside its set or with missing bytes (30_encoding.md R102; log 21). -/
  | illFormed
  /-- A byte that is no first byte of a display command, or no control byte (30_encoding.md R95, R96). -/
  | unknownByte
  deriving DecidableEq, Repr

/-- What the bytes are: an instruction and the bytes after it; an access to an address that is not this block's, and the
bytes after it (40_twi_unit.md R139); or nothing, with the reason. -/
inductive Decoded where
  | instr (i : Instr) (rest : List Byte)
  | elsewhere (rest : List Byte)
  | reject (why : Reject)
  deriving DecidableEq, Repr

/-- The instruction of a TWCR line (30_encoding.md R89, the "Operation" column). -/
def lineInstr (line : TwcrLine) (v : Byte) : Instr :=
  match line with
  | .whileBusy => .wrTwcrWhileBusy v
  | .disable => .wrTwcrDisable v
  | .hold => .wrTwcrHold v
  | .noIntSta => .wrTwcrNointSta v
  | .noIntSto => .wrTwcrNointSto v
  | .staSto => .twiStasto v
  | .start => .twiStart v
  | .stop => .twiStop v
  | .sla => .twiSla v
  | .tx => .twiTx v
  | .rxAck => .twiRxAck v
  | .rxNack => .twiRxNack v
  | .byteRefused => .twiByteRefused v

/-- The access with fields W, addr and data (30_encoding.md R87): a read ignores `data`. -/
def accessInstr (ctx : DecodeCtx) (w : Bool) (addr data : Byte) : Option Instr :=
  if addr = ctx.cfg.regAddr.twbr then some (if w then .wrTwbr data else .rdTwbr)
  else if addr = ctx.cfg.regAddr.twsr then some (if w then .wrTwsr data else .rdTwsr)
  else if addr = ctx.cfg.regAddr.twdr then some (if w then .wrTwdr data else .rdTwdr)
  else if addr = ctx.cfg.regAddr.twcr then
    some (if w then lineInstr (Machine.twcrLine ctx.cfg.layout ctx.busy ctx.mode data) data else .rdTwcr)
  else none

/-- Format ACCESS (30_encoding.md R87). The 17-bit word is laid out in three bytes, its bits 7..0 first (log 9). -/
def decodeAccess (ctx : DecodeCtx) (bytes : List Byte) : Decoded :=
  match bytes with
  | data :: addr :: top :: rest =>
    if top = 0#8 ∨ top = 1#8 then
      match accessInstr ctx (top = 1#8) addr data with
      | some i => .instr i rest
      | none => .elsewhere rest
    else .reject .illFormed
  | _ => .reject .illFormed

/-- `ack` and `on`: 0 = false, 1 = true, else ill-formed (30_encoding.md R102). -/
def decodeBool (b : Byte) : Option Bool :=
  if b = 0#8 then some false else if b = 1#8 then some true else none

/-- `role`: 0, 1, 2, else ill-formed (30_encoding.md R102). -/
def decodeRole (b : Byte) : Option Role :=
  if b = 0#8 then some .addrW else if b = 1#8 then some .addrR else if b = 2#8 then some .data else none

/-- An instruction where there is one, else an ill-formed request. -/
def orIllFormed (i : Option Instr) (rest : List Byte) : Decoded :=
  match i with
  | some i => .instr i rest
  | none => .reject .illFormed

/-- The arguments of WRITE_TXN: a, n, b[0..n-1] (30_encoding.md R101, R102). -/
def decodeWriteTxn (args : List Byte) : Decoded :=
  match args with
  | a :: n :: more =>
    if n.toNat ≤ more.length then .instr (.writeTxn a (more.take n.toNat)) (more.drop n.toNat)
    else .reject .illFormed
  | _ => .reject .illFormed

/-- BUS_SEND: data, role. -/
def decodeSend (args : List Byte) : Decoded :=
  match args with
  | b :: r :: rest => orIllFormed ((decodeRole r).map (Instr.busSend b)) rest
  | _ => .reject .illFormed

/-- BUS_RECV: ack. -/
def decodeRecv (args : List Byte) : Decoded :=
  match args with
  | k :: rest => orIllFormed ((decodeBool k).map Instr.busRecv) rest
  | _ => .reject .illFormed

/-- READ_TXN: a, n. -/
def decodeReadTxn (args : List Byte) : Decoded :=
  match args with
  | a :: n :: rest => .instr (.readTxn a n) rest
  | _ => .reject .illFormed

/-- DISP_CMD: byte. -/
def decodeDispCmd (args : List Byte) : Decoded :=
  match args with
  | b :: rest => .instr (.dispCmd b) rest
  | _ => .reject .illFormed

/-- DISP_SET_COL: start, end. -/
def decodeSetCol (args : List Byte) : Decoded :=
  match args with
  | a :: b :: rest => .instr (.dispSetCol a b) rest
  | _ => .reject .illFormed

/-- DISP_SET_PAGE: page; 8 and above is ill-formed (43_display_commands.md R198, 30_encoding.md R104). -/
def decodeSetPage (args : List Byte) : Decoded :=
  match args with
  | p :: rest => if p.toNat < Config.pages then .instr (.dispSetPage p) rest else .reject .illFormed
  | _ => .reject .illFormed

/-- FB_PIXEL: x, y, on. -/
def decodePixel (args : List Byte) : Decoded :=
  match args with
  | x :: y :: o :: rest => orIllFormed ((decodeBool o).map (Instr.fbPixel x y)) rest
  | _ => .reject .illFormed

/-- FB_LINE: x0, y0, x1, y1, on. -/
def decodeLine (args : List Byte) : Decoded :=
  match args with
  | x0 :: y0 :: x1 :: y1 :: o :: rest => orIllFormed ((decodeBool o).map (Instr.fbLine x0 y0 x1 y1)) rest
  | _ => .reject .illFormed

/-- Format SEQ (30_encoding.md R100, R101): the operation byte, then the arguments; every other operation byte is reserved
(R103). -/
def decodeSeq (bytes : List Byte) : Decoded :=
  match bytes with
  | [] => .reject .illFormed
  | op :: args =>
    if op = 0x01#8 then .instr .busStart args
    else if op = 0x02#8 then .instr .busStop args
    else if op = 0x03#8 then decodeSend args
    else if op = 0x04#8 then decodeRecv args
    else if op = 0x05#8 then decodeWriteTxn args
    else if op = 0x06#8 then decodeReadTxn args
    else if op = 0x10#8 then .instr .dispInit args
    else if op = 0x11#8 then decodeDispCmd args
    else if op = 0x12#8 then decodeSetCol args
    else if op = 0x13#8 then decodeSetPage args
    else if op = 0x14#8 then .instr .dispFlush args
    else if op = 0x20#8 then decodePixel args
    else if op = 0x21#8 then decodeLine args
    else .reject .reservedOp

/-- SET_CONTRAST and SET_ADDR_MODE: one argument byte (30_encoding.md R97). -/
def decodeOneArg (f : Byte → Instr) (args : List Byte) : Decoded :=
  match args with
  | c :: rest => .instr (f c) rest
  | _ => .reject .illFormed

/-- SET_COLUMN_WINDOW: two argument bytes (30_encoding.md R97). -/
def decodeWindow (args : List Byte) : Decoded :=
  match args with
  | a :: b :: rest => .instr (.setColumnWindow a b) rest
  | _ => .reject .illFormed

/-- Format DEVCMD (30_encoding.md R96, R97 and the masks of the opcode table). -/
def decodeDevcmd (bytes : List Byte) : Decoded :=
  match bytes with
  | [] => .reject .illFormed
  | b :: args =>
    if b = 0xAE#8 then .instr .displayOff args
    else if b = 0xAF#8 then .instr .displayOn args
    else if b = 0x81#8 then decodeOneArg .setContrast args
    else if b = 0x21#8 then decodeWindow args
    else if b = 0x20#8 then decodeOneArg .setAddrMode args
    else if b &&& 0xF8#8 = 0xB0#8 then .instr (.setPageStart (b.truncate 3)) args
    else if b &&& 0xF0#8 = 0x00#8 then .instr (.setLowerCol (b.truncate 4)) args
    else if b &&& 0xF0#8 = 0x10#8 then .instr (.setUpperCol (b.truncate 4)) args
    else if b &&& 0xC0#8 = 0x40#8 then .instr (.setStartLine (b.truncate 6)) args
    else .reject .unknownByte

/-- Format CTRL (30_encoding.md R95). -/
def decodeCtrl (bytes : List Byte) : Decoded :=
  match bytes with
  | [] => .reject .illFormed
  | b :: rest =>
    if b = Config.ctrlCmd then .instr .ctrlCmd rest
    else if b = Config.ctrlData then .instr .ctrlData rest
    else .reject .unknownByte

/-- Format SLA (30_encoding.md R93): bits 7:1 the address, bit 0 the direction. -/
def decodeSla (bytes : List Byte) : Decoded :=
  match bytes with
  | [] => .reject .illFormed
  | b :: rest => .instr (if b.getLsbD 0 then .slaR (b.extractLsb' 1 7) else .slaW (b.extractLsb' 1 7)) rest

/-- The decoder. -/
def decode (f : Format) (ctx : DecodeCtx) (bytes : List Byte) : Decoded :=
  match f with
  | .access => decodeAccess ctx bytes
  | .wideAccess => .reject .accessWidth
  | .seq => decodeSeq bytes
  | .devcmd => decodeDevcmd bytes
  | .ctrl => decodeCtrl bytes
  | .sla => decodeSla bytes

/-! ### The encoder -/

/-- The three bytes of an ACCESS word (30_encoding.md R87; log 9). -/
def accessBytes (w : Bool) (addr data : Byte) : List Byte := [data, addr, if w then 1#8 else 0#8]

/-- `ack` and `on` as bytes (30_encoding.md R102). -/
def encodeBool (b : Bool) : Byte := if b then 1#8 else 0#8

/-- `role` as a byte (30_encoding.md R102). -/
def encodeRole : Role → Byte
  | .addrW => 0#8
  | .addrR => 1#8
  | .data => 2#8

/-- The format an instruction is written in. -/
def formatOf : Instr → Format
  | .rdTwbr | .wrTwbr _ | .rdTwsr | .wrTwsr _ | .rdTwdr | .wrTwdr _ | .rdTwcr => .access
  | .wrTwcrDisable _ | .wrTwcrHold _ | .wrTwcrNointSta _ | .wrTwcrNointSto _ | .twiStasto _ | .twiStart _ => .access
  | .twiStop _ | .twiSla _ | .twiTx _ | .twiRxAck _ | .twiRxNack _ | .twiByteRefused _ | .wrTwcrWhileBusy _ => .access
  | .busStart | .busStop | .busSend _ _ | .busRecv _ | .writeTxn _ _ | .readTxn _ _ => .seq
  | .dispInit | .dispCmd _ | .dispSetCol _ _ | .dispSetPage _ | .dispFlush => .seq
  | .fbPixel _ _ _ | .fbLine _ _ _ _ _ => .seq
  | .displayOff | .displayOn | .setContrast _ | .setColumnWindow _ _ | .setPageStart _ => .devcmd
  | .setLowerCol _ | .setUpperCol _ | .setStartLine _ | .setAddrMode _ => .devcmd
  | .ctrlCmd | .ctrlData => .ctrl
  | .slaW _ | .slaR _ => .sla

/-- The bytes of an instruction (30_encoding.md R87, R93, R95, R96, R101, R102). -/
def encode (r : RegAddr) : Instr → List Byte
  | .rdTwbr => accessBytes false r.twbr 0#8
  | .wrTwbr v => accessBytes true r.twbr v
  | .rdTwsr => accessBytes false r.twsr 0#8
  | .wrTwsr v => accessBytes true r.twsr v
  | .rdTwdr => accessBytes false r.twdr 0#8
  | .wrTwdr v => accessBytes true r.twdr v
  | .rdTwcr => accessBytes false r.twcr 0#8
  | .wrTwcrDisable v => accessBytes true r.twcr v
  | .wrTwcrHold v => accessBytes true r.twcr v
  | .wrTwcrNointSta v => accessBytes true r.twcr v
  | .wrTwcrNointSto v => accessBytes true r.twcr v
  | .twiStasto v => accessBytes true r.twcr v
  | .twiStart v => accessBytes true r.twcr v
  | .twiStop v => accessBytes true r.twcr v
  | .twiSla v => accessBytes true r.twcr v
  | .twiTx v => accessBytes true r.twcr v
  | .twiRxAck v => accessBytes true r.twcr v
  | .twiRxNack v => accessBytes true r.twcr v
  | .twiByteRefused v => accessBytes true r.twcr v
  | .wrTwcrWhileBusy v => accessBytes true r.twcr v
  | .busStart => [0x01#8]
  | .busStop => [0x02#8]
  | .busSend b role => [0x03#8, b, encodeRole role]
  | .busRecv ack => [0x04#8, encodeBool ack]
  | .writeTxn a bytes => 0x05#8 :: a :: BitVec.ofNat 8 bytes.length :: bytes
  | .readTxn a n => [0x06#8, a, n]
  | .dispInit => [0x10#8]
  | .dispCmd b => [0x11#8, b]
  | .dispSetCol first last => [0x12#8, first, last]
  | .dispSetPage p => [0x13#8, p]
  | .dispFlush => [0x14#8]
  | .fbPixel x y on => [0x20#8, x, y, encodeBool on]
  | .fbLine x0 y0 x1 y1 on => [0x21#8, x0, y0, x1, y1, encodeBool on]
  | .displayOff => [0xAE#8]
  | .displayOn => [0xAF#8]
  | .setContrast c => [0x81#8, c]
  | .setColumnWindow first last => [0x21#8, first, last]
  | .setPageStart p => [0b10110#5 ++ p]
  | .setLowerCol n => [0x0#4 ++ n]
  | .setUpperCol n => [0x1#4 ++ n]
  | .setStartLine l => [0b01#2 ++ l]
  | .setAddrMode m => [0x20#8, m]
  | .ctrlCmd => [Config.ctrlCmd]
  | .ctrlData => [Config.ctrlData]
  | .slaW a => [a ++ 0#1]
  | .slaR a => [a ++ 1#1]

/-! ### The words of the opcode table (log 10) -/

/-- The formats a word of the table may be in, by its width: ACCESS words have 17 bits, every other row 8. A byte is looked
for among the requests first, then the display commands, the control bytes and the address bytes. -/
def tableFormats (nbits : Nat) : List Format :=
  if nbits ≤ 8 then [.seq, .devcmd, .ctrl, .sla] else [.access]

/-- The table's word as bytes, followed by zeros up to the longest instruction (258 bytes, 30_encoding.md R102). -/
def tableBytes (nbits w : Nat) : List Byte :=
  if nbits ≤ 8 then BitVec.ofNat 8 w :: List.replicate 257 0#8
  else [BitVec.ofNat 8 w, BitVec.ofNat 8 (w / 256), BitVec.ofNat 8 (w / 65536)]

/-- The first of the formats in which the bytes are an instruction. -/
def firstDecoding (ctx : DecodeCtx) (bytes : List Byte) : List Format → Option (Format × Instr × List Byte)
  | [] => none
  | f :: fs =>
    match decode f ctx bytes with
    | .instr i rest => some (f, i, rest)
    | .elsewhere _ => firstDecoding ctx bytes fs
    | .reject _ => firstDecoding ctx bytes fs

/-- The context right after reset (70_reset_and_hazards.md R266): not busy, mode NONE, the reference parameters. -/
def resetCtx : DecodeCtx := { cfg := Config.reference, busy := false, mode := .none }

/-- The instruction of a word of the opcode table, as the first instruction after reset. -/
def decodeTableWord (nbits w : Nat) : Option Instr :=
  (firstDecoding resetCtx (tableBytes nbits w) (tableFormats nbits)).map (fun d => d.2.1)

end Sys2Proof
end

