-- ==== Sys2Proof/Machine/Fetch.lean ====
section
/-! DEFINITION. Who moves next, and the host's next instruction. The block fetches nothing (10_state.md R52): the stream of
accesses and requests comes from the host (log 6). -/

namespace Sys2Proof.Machine

/-- The agents that step (00_scope.md R7); the bus slave answers inside the engine's step. -/
inductive Agent where
  | host
  | sequencer
  | engine
  deriving DecidableEq, Repr

/-- The host issues its next instruction whatever the block is doing (log 7). -/
def State.hostEager (s : State) : Bool :=
  match s.host.stream with
  | [] => false
  | b :: _ => b.eager

/-- Whose step it is (log 5, log 7): an eager host; the engine when its operation is due; the sequencer while a request runs
(10_state.md R43); else the host. -/
def nextAgent (s : State) : Agent :=
  if s.hostEager then .host
  else if s.running && decide (s.twi.delay = 0) then .engine
  else if s.seq.seqBusy then .sequencer
  else .host

/-- What the decoder reads of the state (30_encoding.md R89). -/
def State.decodeCtx (s : State) : DecodeCtx := { cfg := s.cfg, busy := s.twi.busy, mode := s.twi.mode }

/-- The refusal of bytes that are no instruction (60_exceptions.md R258). -/
def rejectRefusal (why : Reject) : Refusal :=
  match why with
  | .accessWidth => .accessWidth
  | .reservedOp => .reservedOp
  | .illFormed => .illFormed
  | .unknownByte => .unknownByte

/-- The stream after an instruction was taken off the burst `b`: what is left of the burst, if anything, then the rest. -/
def streamAfter (b : Burst) (left : List Byte) (rest : List Burst) : List Burst :=
  match left with
  | [] => rest
  | _ :: _ => { b with bytes := left } :: rest

/-- The state with the host's stream replaced. -/
def State.withStream (stream : List Burst) (s : State) : State := { s with host := { s.host with stream := stream } }

/-- What the host issues next. -/
inductive Fetched where
  /-- The host issues nothing more. -/
  | nothing
  /-- An instruction, and the state with it taken off the stream. -/
  | instr (i : Instr) (s : State)
  /-- An access to an address that is not this block's, and the state with it taken off the stream (40_twi_unit.md R139). -/
  | elsewhere (s : State)
  /-- Bytes the block refuses. -/
  | refused (r : Refusal)

/-- Take the host's next instruction off the stream. -/
def fetch (s : State) : Fetched :=
  match s.host.stream with
  | [] => .nothing
  | b :: rest =>
    match decode b.fmt s.decodeCtx b.bytes with
    | .instr i left => .instr i (s.withStream (streamAfter b left rest))
    | .elsewhere left => .elsewhere (s.withStream (streamAfter b left rest))
    | .reject why => .refused (rejectRefusal why)

/-- The burst of a word of the opcode table in this state: the format and the bytes of the instruction it is, or the bare
word where it is none. -/
def wordBurst (ctx : DecodeCtx) (nbits w : Nat) : Burst :=
  match firstDecoding ctx (tableBytes nbits w) (tableFormats nbits) with
  | some (f, _, left) =>
    { fmt := f, bytes := (tableBytes nbits w).take ((tableBytes nbits w).length - left.length), eager := true }
  | none => { fmt := if nbits ≤ 8 then .seq else .access, bytes := tableBytes nbits w, eager := true }

end Sys2Proof.Machine
end

