-- ==== Sys2Proof/Machine/Step.lean ====
section
/-! DEFINITION. One step of the machine: one atomic step of one agent (00_scope.md R7, 20_memory.md R75). -/

namespace Sys2Proof.Machine

/-- The host's step: its next instruction; nothing where it issues nothing (70_reset_and_hazards.md R267) or accesses an
address of another block (40_twi_unit.md R139). -/
def hostStep (s : State) : Host.Outcome State Fault Refusal :=
  match fetch s with
  | .nothing => .next s
  | .instr i t => exec i t
  | .elsewhere t => .next t
  | .refused r => .refused r

/-- One step. -/
def step (s : State) : Host.Outcome State Fault Refusal :=
  match nextAgent s with
  | .engine => .next (complete s)
  | .sequencer => seqStep s.tick
  | .host => hostStep s.tick

/-- The state in which the very next step is the host's, and issues the instruction of the table's word (log 6, log 10): an
eager burst at the head of the stream. -/
def State.withFetchWord (s : State) (nbits w : Nat) : State :=
  s.withStream (wordBurst s.decodeCtx nbits w :: s.host.stream)

end Sys2Proof.Machine
end

