-- ==== Sys2Proof/Machine/Codes.lean ====
section
/-! DEFINITION. The numeric codes of a response (60_exceptions.md R242). -/

namespace Sys2Proof.Machine

/-- kind: 1 = Protocol, 2 = Nack, 3 = WriteCollision, 4 = Timeout (0 is OK). -/
def kindCode : ErrKind → Byte
  | .protocol => 1#8
  | .nack => 2#8
  | .writeCollision => 3#8
  | .timeout => 4#8

/-- step: 0 = START .. 5 = STOP. -/
def stepCode : BusStep → Byte
  | .start => 0#8
  | .addrW => 1#8
  | .addrR => 2#8
  | .data _ => 3#8
  | .rx _ => 4#8
  | .stop => 5#8

/-- index: i for DATA(i) and RX(i), 0 otherwise. -/
def indexCode : BusStep → Byte
  | .start => 0#8
  | .addrW => 0#8
  | .addrR => 0#8
  | .data i => BitVec.ofNat 8 i
  | .rx i => BitVec.ofNat 8 i
  | .stop => 0#8

/-- status: the code, or 0xFF for NONE. -/
def statusCode : Option Byte → Byte
  | none => 0xFF#8
  | some s => s

/-- released: 0 = NONE, 1 = SOME false, 2 = SOME true. -/
def releasedCode : Option Bool → Byte
  | none => 0#8
  | some false => 1#8
  | some true => 2#8

/-- A BusError: the 5 bytes `kind step index status released`. -/
def busErrorBytes (e : BusError) : List Byte :=
  [kindCode e.kind, stepCode e.step, indexCode e.step, statusCode e.status, releasedCode e.released]

/-- A DisplayError: `page cmdflag cmd`, then its cause. -/
def displayErrorBytes (e : DisplayError) : List Byte :=
  (match e.page with
    | none => 0xFF#8
    | some p => BitVec.ofNat 8 p) ::
  (match e.command with
    | none => [0#8, 0#8]
    | some c => [1#8, c]) ++ busErrorBytes e.cause

/-- A response: `Ok` is 0x00 and the value's bytes. -/
def responseBytes (r : Response) : List Byte :=
  match r with
  | .ok v => 0#8 :: v
  | .busErr e => busErrorBytes e
  | .displayErr e => displayErrorBytes e

end Sys2Proof.Machine
end

