-- ==== Sys2Proof/Safety.lean ====
section
/-! DEFINITION. What claims are stated with: runs, the invariant of the machine, and the conditions under which a request
runs to its end. -/

namespace Sys2Proof.Machine

/-- `k` steps, stopping at the first fault or refusal. -/
def run : Nat → State → Out
  | 0, s => .next s
  | k + 1, s => andThen (step s) (run k)

/-- A safe run: no fault and no refusal in `k` steps (60_exceptions.md R258). -/
def SafeRun (k : Nat) (s : State) : Prop := ∃ t, run k s = .next t

/-- From `s` some number of steps leads to `t`, with no fault and no refusal on the way. -/
def Reaches (s t : State) : Prop := ∃ k, run k s = .next t

/-! ### The invariant -/

/-- The status codes the engine produces (30_encoding.md R98, R99), as TWS values. -/
def legalStatus (tws : BitVec 5) : Bool :=
  [0x08#8, 0x10#8, 0x18#8, 0x20#8, 0x28#8, 0x30#8, 0x40#8, 0x48#8, 0x50#8, 0x58#8, 0xF8#8, 0x00#8].any
    (fun c => twsOf c == tws)

/-- The mode in which an operation was launched (30_encoding.md R89). -/
def opModeOk (op : Option Op) (mode : Mode) : Prop :=
  (op = some .sla → mode = .afterStart) ∧ (op = some .tx → mode = .mt) ∧ (op = some .rx → mode = .mr)

/-- The TWI unit's invariants: 10_state.md R30, R36, R48, R49, R50, 30_encoding.md R99. -/
structure TwiInv (c : Config) (t : Twi) : Prop where
  /-- R48: with TWINT = 0 the status reads 0xF8. -/
  noStatus : t.twint = false → t.tws = twsOf codeNone
  /-- R49: busy implies TWINT = 0. -/
  busyNoInt : t.op.isSome = true → t.twint = false
  /-- R30: while TWEN is 0 no operation is in flight. -/
  busyEnabled : t.op.isSome = true → t.twen = true
  /-- R30: while TWEN is 0 the bus is not held. -/
  heldEnabled : t.mode ≠ .none → t.twen = true
  /-- R50: with TWEN = 1, TWSTO = 1 exactly while a STOP is in flight. -/
  stopFlag : t.twen = true → (t.twsto = true ↔ t.op = some .stop)
  /-- R89: the operation in flight fits the mode. -/
  opMode : opModeOk t.op t.mode
  /-- R36: an operation stalls only where the parameter allows it. -/
  stall : t.stalled = true → c.slaveMayStall = true
  /-- R24, R31: SOURCE has no TWIE. -/
  noIe : c.layout = .source → t.twie = false
  /-- R99: only codes of R98. -/
  status : legalStatus t.tws = true

/-- The sequencer's invariants: 10_state.md R43, 41_bus_primitives.md R161, 44_framebuffer.md R226. -/
structure SeqInv (c : Config) (q : Seq) : Prop where
  /-- R43: a request is in progress exactly while seqBusy. -/
  reqBusy : q.req.isSome = q.seqBusy
  /-- R43, R52: the sequencer has a next micro-step exactly while seqBusy. -/
  posBusy : q.seqBusy = true ↔ q.pos ≠ .idle
  /-- R161: a wait has read its condition false fewer than L times. -/
  pollsBelow : ∀ p l, q.pos = .prim p .poll → c.pollLimit = some l → q.polls < l
  /-- R226: flush's page is one of the pages while its data is still to be sent. -/
  framePage : Job.frame ∈ q.jobs → q.locals.p < Config.pages
  /-- R226: flush reads inside its page. -/
  gather : q.pos = .gather → q.locals.p < Config.pages ∧ q.locals.i < c.width

/-- The frame buffer's invariant: the canonical form, inside the buffer (10_state.md R40). -/
structure FbInv (c : Config) (fb : Memory) : Prop where
  canonical : Memory.wf fb = true
  inside : Memory.below c.bufSize fb = true

/-- The invariant of the machine. -/
structure Inv (s : State) : Prop where
  cfg : s.cfg.wf = true
  twi : TwiInv s.cfg s.twi
  seq : SeqInv s.cfg s.seq
  fb : FbInv s.cfg s.fb

/-! ### Conditions on a state -/

/-- The sequencer is idle and the register set is the host's: `¬seqBusy`, `¬open` (20_memory.md R78). -/
def State.free (s : State) : Prop := s.seq.seqBusy = false ∧ s.seq.isOpen = false

/-- The bus is not held and nothing is in flight: the document's Idle (10_state.md R38). -/
def State.busIdle (s : State) : Prop := s.twi.op = none ∧ s.twi.mode = .none

/-- Every wait ends: no bound on polls, no stall (00_scope.md R13, R14), and the host waits for its response. -/
def State.waitsEnd (s : State) : Prop :=
  s.cfg.pollLimit = none ∧ s.cfg.slaveMayStall = false ∧ s.hostEager = false

/-- Besides, no bus error (00_scope.md R15), and the slave acknowledges the next `n` bytes. -/
def State.slaveAcks (n : Nat) (s : State) : Prop :=
  s.waitsEnd ∧ s.cfg.busErrorPossible = false ∧ ∃ rest, s.oracle.acks = List.replicate n Ack.ack ++ rest

/-- When a request is accepted (41_bus_primitives.md R167, 42_bus_transactions.md R186, 60_exceptions.md R258): one at a time,
and the pairing of the raw primitives kept. An ACCESS is no request. -/
def accepted (i : Instr) (s : State) : Bool :=
  !s.seq.seqBusy &&
    (match i with
      | .busStop | .fbPixel _ _ _ | .fbLine _ _ _ _ _ => true
      | .busSend _ _ | .ctrlCmd | .ctrlData | .slaW _ | .slaR _ => s.seq.isOpen
      | .busRecv _ => s.seq.isOpen && (s.seq.lastStatus == 0x40#8 || s.seq.lastStatus == 0x50#8)
      | _ => !s.seq.isOpen)

/-- A launch of operation `k` by a write of `v` (40_twi_unit.md R126, R130): what it does, and its frame. -/
def Launched (k : Op) (v : Byte) (s : State) (o : Out) : Prop :=
  ∃ t, o = .next t ∧
    t.twi.op = some k ∧ t.twi.tws = twsOf 0xF8#8 ∧ t.twi.twint = false ∧
    t.twi.twea = v.getLsbD 6 ∧ t.twi.twsta = v.getLsbD 5 ∧ t.twi.twsto = v.getLsbD 4 ∧ t.twi.twen = true ∧
    (s.cfg.layout = .source → t.twi.twie = s.twi.twie) ∧ (s.cfg.layout = .avrSilicon → t.twi.twie = v.getLsbD 0) ∧
    t.twi.stalled = (s.cfg.slaveMayStall && s.oracle.stall.1) ∧
    t.twi.twwc = s.twi.twwc ∧ t.twi.mode = s.twi.mode ∧
    t.twi.twbr = s.twi.twbr ∧ t.twi.twdr = s.twi.twdr ∧ t.twi.twps = s.twi.twps ∧
    t.cfg = s.cfg ∧ t.seq = s.seq ∧ (∀ a, Memory.read t.fb a = Memory.read s.fb a) ∧ t.trace = s.trace ∧ t.host = s.host

/-- Instruction `i` is accepted in `s` and its request runs to the response `r`, leaving the frame buffer, the parameters, TWBR,
TWPS and the host's stream alone; `t` is the state after it. -/
def RunsTo (i : Instr) (r : Response) (s t : State) : Prop :=
  (∃ u, exec i s = .next u ∧ u.seq.seqBusy = true ∧ u.seq.req = some i ∧ Reaches u t) ∧
    t.seq.seqBusy = false ∧ t.seq.req = none ∧ t.seq.resp = some r ∧
    (∀ a, Memory.read t.fb a = Memory.read s.fb a) ∧ t.cfg = s.cfg ∧ t.host.stream = s.host.stream ∧
    t.host.received = s.host.received ++ [.response r] ∧ t.twi.twbr = s.twi.twbr ∧ t.twi.twps = s.twi.twps

/-- What sendByte answers on the status `status` in role `role`; a raw DATA is DATA(0) (41_bus_primitives.md R165, R168). -/
def sendResponse (role : Role) (status : Byte) : Response :=
  match role with
  | .addrW =>
    if status = 0x18#8 then .ok []
    else .busErr { kind := .protocol, step := .addrW, status := some status, released := none }
  | .addrR =>
    if status = 0x40#8 then .ok []
    else .busErr { kind := .protocol, step := .addrR, status := some status, released := none }
  | .data =>
    if status = 0x28#8 then .ok []
    else .busErr { kind := .nack, step := .data 0, status := some status, released := none }

/-- The status after the byte `b` sent in mode `m`, answered `a`: a data byte in MT, else an address byte by its direction bit
(40_twi_unit.md R142-R144). -/
def sentStatus (m : Mode) (b : Byte) (a : Ack) : Byte :=
  if m = .mt then (if a = .ack then 0x28#8 else 0x30#8)
  else if b.getLsbD 0 then (if a = .ack then 0x40#8 else 0x48#8)
  else (if a = .ack then 0x18#8 else 0x20#8)

/-- The mode after that byte (40_twi_unit.md R142-R144). -/
def sentMode (m : Mode) (b : Byte) (a : Ack) : Mode :=
  if m = .mt then .mt
  else if b.getLsbD 0 then (if a = .ack then .mr else .mrEnd)
  else .mt

/-- `i` sends the byte `b` on its own in role `role`, and the slave answers `a` (41_bus_primitives.md R165, R168). -/
def SendRuns (i : Instr) (b : Byte) (role : Role) (a : Ack) (s : State) : Prop :=
  ∃ t, RunsTo i (sendResponse role (sentStatus s.twi.mode b a)) s t ∧ t.trace = s.trace ++ [.tx b a] ∧
    t.seq.lastStatus = sentStatus s.twi.mode b a ∧ t.twi.tws = twsOf (sentStatus s.twi.mode b a) ∧
    t.twi.mode = sentMode s.twi.mode b a ∧ t.twi.twdr = b ∧ t.seq.isOpen = true ∧ t.twi.op = none ∧
    t.twi.twint = true ∧ t.twi.twwc = false ∧ t.twi.twsta = false ∧ t.twi.twsto = false

/-- `i`, which sends a byte in role `role`, launches a receive in mode MR: the slave drives `r`, it is answered NACK, and the
status 0x58 is no role's (30_encoding.md R89, line 11; 40_twi_unit.md R145). -/
def SendReceives (i : Instr) (role : Role) (r : Byte) (s : State) : Prop :=
  ∃ t, RunsTo i (sendResponse role 0x58#8) s t ∧ t.trace = s.trace ++ [.rx r .nack] ∧ t.seq.lastStatus = 0x58#8 ∧
    t.twi.tws = twsOf 0x58#8 ∧ t.twi.mode = .mrEnd ∧ t.twi.twdr = r ∧ t.seq.isOpen = true ∧ t.twi.op = none ∧
    t.twi.twint = true ∧ t.twi.twea = false ∧ t.twi.twwc = false ∧ t.twi.twsta = false ∧ t.twi.twsto = false

/-- `P i b role` for every instruction `i` that sends a byte `b` on its own in a role: BUS_SEND of any byte in any role, and the
control and address bytes (41_bus_primitives.md R165; log 12). -/
def EverySend (P : Instr → Byte → Role → Prop) : Prop :=
  (∀ b role, P (.busSend b role) b role) ∧ P .ctrlCmd 0x00#8 .data ∧ P .ctrlData 0x40#8 .data ∧
    ∀ adr : BitVec 7, P (.slaW adr) (adr ++ 0#1) .addrW ∧ P (.slaR adr) (adr ++ 1#1) .addrR

/-- The bus events of a write transaction whose bytes are all acknowledged (42_bus_transactions.md R181). -/
def writeTrace (a : Byte) (bytes : List Byte) : List Event :=
  [.start, .tx (slaByte a false) .ack] ++ bytes.map (fun b => Event.tx b .ack) ++ [.stop]

/-- The bus events of one acknowledged display command (43_display_commands.md R196). -/
def cmdTrace (b : Byte) : List Event := writeTrace Config.devAddr [Config.ctrlCmd, b]

/-- `i` sends the display commands `cmds`, each in a transaction of its own, all acknowledged (43_display_commands.md R196,
R205); with no command there is nothing to send. -/
def DisplayRuns (i : Instr) (cmds : List Byte) (s : State) : Prop :=
  s.free → s.busIdle → s.slaveAcks (3 * cmds.length) →
    ∃ t, RunsTo i (.ok []) s t ∧ t.trace = s.trace ++ cmds.flatMap cmdTrace ∧ t.busIdle ∧ t.seq.isOpen = false

/-- The bytes of page `p` of the frame buffer, columns increasing (44_framebuffer.md R228). -/
def pageBytes (width : Nat) (fb : Memory) (p : Nat) : List Byte :=
  (List.range width).map (fun c => Memory.read fb (p * width + c))

/-- The addressing commands of flush for page `p` (44_framebuffer.md R227). -/
def pageCommands (width p : Nat) : List Byte :=
  [pageStartByte (BitVec.ofNat 8 p), 0x21#8, 0x00#8, BitVec.ofNat 8 (width - 1)]

/-- The bus events of flush for one page, all acknowledged (44_framebuffer.md R226-R228). -/
def pageTrace (width : Nat) (fb : Memory) (p : Nat) : List Event :=
  (pageCommands width p).flatMap cmdTrace ++ writeTrace Config.devAddr (Config.ctrlData :: pageBytes width fb p)

/-- A byte transmitted by the master. -/
def Event.isTx : Event → Bool
  | .tx _ _ => true
  | .start | .repStart | .rx _ _ | .stop | .busErr | .abort => false

/-- The bus events of a read transaction of the bytes `bs`: every byte but the last is acknowledged (42_bus_transactions.md
R183, R184). -/
def readTrace (a : Byte) (bs : List Byte) : List Event :=
  [.start, .tx (slaByte a true) .ack] ++ bs.dropLast.map (fun b => Event.rx b .ack) ++
    (bs.getLast?.toList.map fun b => Event.rx b .nack) ++ [.stop]

/-- The bus events of a whole flush, all acknowledged (44_framebuffer.md R226). -/
def flushTrace (width : Nat) (fb : Memory) : List Event :=
  (List.range Config.pages).flatMap (pageTrace width fb)

/-! ### Requests that fail -/

/-- Instruction `i` issues a primitive whose operation stalls: it ends with the Timeout of its step after POLL_LIMIT reads, the
unit is disabled, and an Abort is in the trace exactly if the bus was held (41_bus_primitives.md R161, R162, R167). -/
def TimesOut (i : Instr) (step : BusStep) (s : State) : Prop :=
  ∃ t, RunsTo i (.busErr { kind := .timeout, step := step, status := none, released := none }) s t ∧
    s.cfg.pollLimit = some t.seq.polls ∧ t.twi.twen = false ∧ t.busIdle ∧ t.twi.tws = twsOf 0xF8#8 ∧
    t.twi.twint = false ∧ t.twi.twsto = false ∧ t.seq.lastStatus = s.seq.lastStatus ∧
    t.trace = (if s.twi.mode = .none then s.trace else s.trace ++ [.abort]) ∧
    t.seq.isOpen = (if i = .busStart then true else if i = .busStop then false else s.seq.isOpen)

/-- The step that the `k`-th primitive of a write transaction of `n` bytes reports (42_bus_transactions.md R181). -/
def writeStep (n k : Nat) : BusStep :=
  match k with
  | 0 => .start
  | 1 => .addrW
  | i + 2 => if i < n then .data i else .stop

/-- The step that the `k`-th primitive of a read transaction of `n` bytes reports (42_bus_transactions.md R183). -/
def readStep (n k : Nat) : BusStep :=
  match k with
  | 0 => .start
  | 1 => .addrR
  | i + 2 => if i < n then .rx i else .stop

/-- The error of a write transaction whose `k`-th sent byte is not acknowledged, the address byte counted first, where the
release succeeds (42_bus_transactions.md R181, R185). -/
def nackError (k : Nat) : BusError :=
  match k with
  | 0 => { kind := .protocol, step := .addrW, status := some 0x20#8, released := some true }
  | i + 1 => { kind := .nack, step := .data i, status := some 0x30#8, released := some true }

/-- The bus events of a write transaction up to and with its `k`-th sent byte, which is not acknowledged. -/
def nackEvents (a : Byte) (bytes : List Byte) (k : Nat) : List Event :=
  (writeTrace a bytes).take (k + 1) ++ ((slaByte a false :: bytes)[k]?.toList.map fun b => Event.tx b .nack)

/-- The bus events of a write transaction whose `k`-th sent byte is not acknowledged: the bytes before it, that byte, and the
release STOP (42_bus_transactions.md R182, R185). -/
def nackTrace (a : Byte) (bytes : List Byte) (k : Nat) : List Event := nackEvents a bytes k ++ [.stop]

/-- `i` sends the display commands `cmds`, and the slave does not acknowledge the `k`-th byte of the `j`-th: the request ends
with the DisplayError that names the command, and nothing is sent after it (43_display_commands.md R196, R199). -/
def DisplayNacks (i : Instr) (cmds : List Byte) (s : State) : Prop :=
  ∀ (j k : Nat) (b : Byte) (rest : List Ack), s.free → s.busIdle → s.waitsEnd → s.cfg.busErrorPossible = false →
    cmds[j]? = some b → k < 3 → s.oracle.acks = List.replicate (3 * j + k) Ack.ack ++ .nack :: rest →
    ∃ t, RunsTo i (.displayErr { page := none, command := some b, cause := nackError k }) s t ∧
      t.trace = s.trace ++ (cmds.take j).flatMap cmdTrace ++ nackTrace Config.devAddr [Config.ctrlCmd, b] k ∧
      t.busIdle ∧ t.seq.isOpen = false

/-- The bus events of the `j`-th transaction of a page of flush, whose `k`-th sent byte is not acknowledged
(44_framebuffer.md R226-R229). -/
def pageNackTrace (width : Nat) (fb : Memory) (p j k : Nat) : List Event :=
  ((pageCommands width p).take j).flatMap cmdTrace ++
    match (pageCommands width p)[j]? with
    | some b => nackTrace Config.devAddr [Config.ctrlCmd, b] k
    | none => nackTrace Config.devAddr (Config.ctrlData :: pageBytes width fb p) k

/-! ### What a trace holds (44_framebuffer.md R230) -/

/-- The bytes transmitted before the next event of another kind. -/
def txBytes : List Event → List Byte
  | [] => []
  | ev :: rest =>
    match ev with
    | .tx b _ => b :: txBytes rest
    | .start | .repStart | .rx _ _ | .stop | .busErr | .abort => []

/-- The transactions in a trace: for each START the bytes sent after it. -/
def transactions : List Event → List (List Byte)
  | [] => []
  | ev :: rest => if ev = .start then txBytes rest :: transactions rest else transactions rest

/-- The command byte of a transaction `[SLA+W, CTRL_CMD, b]` to the display (43_display_commands.md R196). -/
def commandOf (bytes : List Byte) : Option Byte :=
  match bytes with
  | [a, c, b] => if a = slaByte Config.devAddr false ∧ c = Config.ctrlCmd then some b else none
  | _ => none

/-- The data bytes of a transaction `[SLA+W, CTRL_DATA, ..]` to the display (44_framebuffer.md R228). -/
def dataOf (bytes : List Byte) : List Byte :=
  match bytes with
  | a :: c :: data => if a = slaByte Config.devAddr false ∧ c = Config.ctrlData then data else []
  | _ => []

/-- The first bytes of the commands in a stream of command and argument bytes, after `k` arguments that are still to come
(30_encoding.md R97). -/
def firstBytes : Nat → List Byte → List Byte
  | _, [] => []
  | k + 1, _ :: rest => firstBytes k rest
  | 0, b :: rest => b :: firstBytes ((Config.commandArgs b).getD 0) rest

/-- The first bytes of the display commands in a trace. -/
def commandsIn (trace : List Event) : List Byte := firstBytes 0 ((transactions trace).filterMap commandOf)

/-! ### The points of a line (44_framebuffer.md R224) -/

/-- The points that the loop plots from (x, y) with the error `err`, at most `fuel` of them. -/
def lineFrom (x1 y1 dx dy sx sy : Int) : Nat → Int → Int → Int → List (Int × Int)
  | 0, _, _, _ => []
  | fuel + 1, x, y, err =>
    (x, y) ::
      if x = x1 ∧ y = y1 then []
      else
        lineFrom x1 y1 dx dy sx sy fuel
          (if 2 * err > -dy then x + sx else x) (if 2 * err < dx then y + sy else y)
          (err - (if 2 * err > -dy then dy else 0) + (if 2 * err < dx then dx else 0))

/-- The points of the line from (x0, y0) to (x1, y1) (44_framebuffer.md R223, R224). Each pass moves x or y, so `dx + dy + 1`
passes are more than enough. -/
def linePoints (x0 y0 x1 y1 : Nat) : List (Int × Int) :=
  let dx : Int := |(x1 : Int) - x0|
  let dy : Int := |(y1 : Int) - y0|
  lineFrom x1 y1 dx dy (if x0 < x1 then 1 else -1) (if y0 < y1 then 1 else -1) (dx + dy + 1).toNat x0 y0 (dx - dy)

end Sys2Proof.Machine
end

