-- ==== Sys2Proof/Certificates/Slice0/Obligations.lean ====
section
/-! DEFINITION. The statements for the provers. Each docstring names the rule of spec/ it formalises. A statement about a
value the spec leaves to a draw holds for every value of it. -/

open Sys2Proof Sys2Proof.Machine

/-! ### Reset -/

/-- 70_reset_and_hazards.md R266: the values the spec gives for reset, under both layouts. TWDR and the locals are draws
there (log 3, log 4), so nothing is said of them. -/
def Obligations.ResetLeavesTheSpecValues : Prop :=
  ∀ c : Config,
    (State.resetWith c).twi.twbr = 0x00#8 ∧
    (State.resetWith c).twcr = 0x00#8 ∧ (State.resetWith c).twi.twsr = 0xF8#8 ∧
    (State.resetWith c).twi.twie = false ∧
    (State.resetWith c).twi.mode = .none ∧ (State.resetWith c).twi.op = none ∧ (State.resetWith c).twi.stalled = false ∧
    (∀ a, Memory.read (State.resetWith c).fb a = 0x00#8) ∧
    (State.resetWith c).seq.seqBusy = false ∧ (State.resetWith c).seq.req = none ∧ (State.resetWith c).seq.resp = none ∧
    (State.resetWith c).seq.isOpen = false ∧ (State.resetWith c).seq.lastStatus = 0xF8#8 ∧
    (State.resetWith c).seq.polls = 0 ∧ (State.resetWith c).trace = [] ∧
    State.reset = State.resetWith Config.reference

/-- The machine's invariant holds after reset, with any parameters the spec allows. -/
def Obligations.ResetMeetsTheInvariant : Prop :=
  ∀ c : Config, c.wf = true → Inv (State.resetWith c)

/-- Every step of every agent keeps the invariant: 10_state.md R48, R49, R50 (for every state with TWEN = 1), R30, R36, R43,
30_encoding.md R99, 41_bus_primitives.md R161 and the frame buffer's form. -/
def Obligations.StepKeepsTheInvariant : Prop :=
  ∀ s t : State, Inv s → step s = .next t → Inv t

/-- From a state that meets the invariant no step faults: the frame buffer is never read outside (20_memory.md R61). That such a
read would fault is the model's choice (log 19). -/
def Obligations.InvariantStepNeverFaults : Prop :=
  ∀ (s : State) (f : Fault), Inv s → step s ≠ .fault f

/-! ### Decoding -/

/-- Decoding an encoded well-formed instruction gives it back, for every instruction of every format and any bytes after it.
A TWCR row is decoded in an engine state that is on its line (30_encoding.md R89). The three-byte layout of an ACCESS word is the
model's choice (log 9). -/
def Obligations.DecodeOfEncodeIsTheInstruction : Prop :=
  ∀ (ctx : DecodeCtx) (i : Instr) (rest : List Byte),
    Config.RegAddr.distinct ctx.cfg.regAddr = true → i.wf ctx.cfg.layout = true →
    (∀ line v, i.twcrWrite = some (line, v) → twcrLine ctx.cfg.layout ctx.busy ctx.mode v = line) →
    decode (formatOf i) ctx (encode ctx.cfg.regAddr i ++ rest) = .instr i rest

/-- The other direction: bytes that decode are the encoding of what they decode to. A read's data byte is ignored
(30_encoding.md R87). The three-byte layout of an ACCESS word is the model's choice (log 9). -/
def Obligations.EncodeOfDecodedIsTheBytes : Prop :=
  (∀ (f : Format) (ctx : DecodeCtx) (bytes rest : List Byte) (i : Instr),
    f ≠ .access → decode f ctx bytes = .instr i rest → encode ctx.cfg.regAddr i ++ rest = bytes) ∧
  (∀ (ctx : DecodeCtx) (data addr : Byte) (rest left : List Byte) (i : Instr),
    (decode .access ctx (data :: addr :: 1#8 :: rest) = .instr i left →
      encode ctx.cfg.regAddr i ++ left = data :: addr :: 1#8 :: rest) ∧
    (decode .access ctx (data :: addr :: 0#8 :: rest) = .instr i left →
      encode ctx.cfg.regAddr i ++ left = 0#8 :: addr :: 0#8 :: rest))

/-- What the decoder gives is well formed, in its format, and takes at least one byte. -/
def Obligations.DecodedInstructionIsWellFormed : Prop :=
  ∀ (f : Format) (ctx : DecodeCtx) (bytes rest : List Byte) (i : Instr),
    decode f ctx bytes = .instr i rest →
      i.wf ctx.cfg.layout = true ∧ formatOf i = f ∧ rest.length < bytes.length

/-- 30_encoding.md R89: the table of TWCR writes, line by line, with EN at bit 0 under SOURCE and bit 2 under AVR_SILICON. The
lines are total (last clause): some line's instruction is always decoded. The three bytes of an access are the model's choice
(log 9). -/
def Obligations.TwcrWriteDecodesByTheTable : Prop :=
  ∀ (ctx : DecodeCtx) (v : Byte) (rest : List Byte),
    Config.RegAddr.distinct ctx.cfg.regAddr = true →
    let en := match ctx.cfg.layout with
      | .source => v.getLsbD 0
      | .avrSilicon => v.getLsbD 2
    let d := decode .access ctx (v :: ctx.cfg.regAddr.twcr :: 1#8 :: rest)
    (ctx.busy = true → en = true → d = .instr (.wrTwcrWhileBusy v) rest) ∧
    (en = false → d = .instr (.wrTwcrDisable v) rest) ∧
    (ctx.busy = false → en = true →
      (v.getLsbD 7 = false → v.getLsbD 5 = false → v.getLsbD 4 = false → d = .instr (.wrTwcrHold v) rest) ∧
      (v.getLsbD 7 = false → v.getLsbD 5 = true → d = .instr (.wrTwcrNointSta v) rest) ∧
      (v.getLsbD 7 = false → v.getLsbD 5 = false → v.getLsbD 4 = true → d = .instr (.wrTwcrNointSto v) rest) ∧
      (v.getLsbD 7 = true → v.getLsbD 5 = true → v.getLsbD 4 = true → d = .instr (.twiStasto v) rest) ∧
      (v.getLsbD 7 = true → v.getLsbD 5 = true → v.getLsbD 4 = false → d = .instr (.twiStart v) rest) ∧
      (v.getLsbD 7 = true → v.getLsbD 5 = false → v.getLsbD 4 = true → d = .instr (.twiStop v) rest) ∧
      (v.getLsbD 7 = true → v.getLsbD 5 = false → v.getLsbD 4 = false →
        (ctx.mode = .afterStart → d = .instr (.twiSla v) rest) ∧
        (ctx.mode = .mt → d = .instr (.twiTx v) rest) ∧
        (ctx.mode = .mr → v.getLsbD 6 = true → d = .instr (.twiRxAck v) rest) ∧
        (ctx.mode = .mr → v.getLsbD 6 = false → d = .instr (.twiRxNack v) rest) ∧
        (ctx.mode = .none ∨ ctx.mode = .mrEnd → d = .instr (.twiByteRefused v) rest))) ∧
    (∃ line, d = .instr (lineInstr line v) rest)

/-- 30_encoding.md R103: a request with a reserved operation byte is refused. That the byte is looked at before SEQ_BUSY, where an
eager host issues it during a request, is the model's choice (log 14). -/
def Obligations.ReservedOperationByteIsRefused : Prop :=
  ∀ (s : State) (op : Byte) (args : List Byte) (e : Bool) (rest : List Burst),
    op = 0x00#8 ∨ (0x07#8 ≤ op ∧ op ≤ 0x0F#8) ∨ (0x15#8 ≤ op ∧ op ≤ 0x1F#8) ∨ 0x22#8 ≤ op →
    nextAgent s = .host → s.host.stream = { fmt := .seq, bytes := op :: args, eager := e } :: rest →
    step s = .refused .reservedOp

/-- 60_exceptions.md R258 (ILL_FORMED, ACCESS_WIDTH): a role above 2, an `ack` or `on` above 1, a page of 8 or more, and an
access of another width than 8 bits are refused. That ILL_FORMED comes before SEQ_BUSY, and ACCESS_WIDTH before
HOST_EXCLUSIVE, is the model's choice (log 14). -/
def Obligations.IllFormedInputIsRefused : Prop :=
  ∀ (s : State) (e : Bool) (rest : List Burst) (more : List Byte) (b x y z w k : Byte),
    nextAgent s = .host →
    (2#8 < k → s.host.stream = { fmt := .seq, bytes := 0x03#8 :: b :: k :: more, eager := e } :: rest →
      step s = .refused .illFormed) ∧
    (1#8 < k → s.host.stream = { fmt := .seq, bytes := 0x04#8 :: k :: more, eager := e } :: rest →
      step s = .refused .illFormed) ∧
    (1#8 < k → s.host.stream = { fmt := .seq, bytes := 0x20#8 :: x :: y :: k :: more, eager := e } :: rest →
      step s = .refused .illFormed) ∧
    (1#8 < k → s.host.stream = { fmt := .seq, bytes := 0x21#8 :: x :: y :: z :: w :: k :: more, eager := e } :: rest →
      step s = .refused .illFormed) ∧
    (8#8 ≤ k → s.host.stream = { fmt := .seq, bytes := 0x13#8 :: k :: more, eager := e } :: rest →
      step s = .refused .illFormed) ∧
    (s.host.stream = { fmt := .wideAccess, bytes := more, eager := e } :: rest → step s = .refused .accessWidth)

/-- Words written out from the spec's encodings (30_encoding.md R87, R90, R93-R96, R101, 95_test_vectors.md), one or more for
each format. The byte layout of an ACCESS word and the reading of a table word are the model's choices (log 9, log 10). -/
def Obligations.SpecWordsDecode : Prop :=
  decodeTableWord 24 0x0B800 = some .rdTwbr ∧
  decodeTableWord 24 0x1B848 = some (.wrTwbr 0x48#8) ∧
  decodeTableWord 24 0x1BCA1 = some (.twiStart 0xA1#8) ∧
  decodeTableWord 24 0x1BC91 = some (.twiStop 0x91#8) ∧
  decodeTableWord 24 0x1BC21 = some (.wrTwcrNointSta 0x21#8) ∧
  decode .access { resetCtx with mode := .mr } [0xC1#8, 0xBC#8, 0x01#8] = .instr (.twiRxAck 0xC1#8) [] ∧
  decode .seq resetCtx [0x20#8, 0x05#8, 0x0A#8, 0x01#8] = .instr (.fbPixel 5#8 10#8 true) [] ∧
  decode .seq resetCtx [0x05#8, 0x3C#8, 0x02#8, 0x00#8, 0xAE#8] = .instr (.writeTxn 0x3C#8 [0x00#8, 0xAE#8]) [] ∧
  decode .devcmd resetCtx [0xB3#8] = .instr (.setPageStart 3#3) [] ∧
  decode .devcmd resetCtx [0x81#8, 0x7F#8] = .instr (.setContrast 0x7F#8) [] ∧
  decode .ctrl resetCtx [0x40#8] = .instr .ctrlData [] ∧
  decode .sla resetCtx [0x79#8] = .instr (.slaR 0x3C#7) []

/-! ### Steps -/

/-- A step of the host runs the instruction it issues: the bytes at the head of the stream decode to `i`, and the step is
`exec i` of the state with `i` taken off the stream and, where an operation is in flight, one step less to its completion. The
stream and the count of steps are the model's choices (log 5, log 6, log 7). -/
def Obligations.StepRunsTheDecodedInstruction : Prop :=
  ∀ (s : State) (b : Burst) (rest : List Burst) (i : Instr) (left : List Byte),
    nextAgent s = .host → s.host.stream = b :: rest → decode b.fmt s.decodeCtx b.bytes = .instr i left →
    step s = exec i (s.tick.withStream (streamAfter b left rest))

/-- 40_twi_unit.md R139: an access to an address that is not one of the four registers' changes no state of the block and is
not refused. The steps left to a completion (`tick`, log 5) and the bytes of an access (log 9) are the model's own. -/
def Obligations.ForeignAddressIsNoAccess : Prop :=
  ∀ (s : State) (data addr top : Byte) (left : List Byte) (e : Bool) (rest : List Burst),
    nextAgent s = .host →
    s.host.stream = { fmt := .access, bytes := data :: addr :: top :: left, eager := e } :: rest →
    top = 0#8 ∨ top = 1#8 →
    addr ≠ s.cfg.regAddr.twbr → addr ≠ s.cfg.regAddr.twsr → addr ≠ s.cfg.regAddr.twdr → addr ≠ s.cfg.regAddr.twcr →
    ∃ t, step s = .next t ∧ t.cfg = s.cfg ∧ t.twi = s.tick.twi ∧ t.seq = s.seq ∧ t.fb = s.fb ∧ t.trace = s.trace ∧
      t.oracle = s.oracle ∧ t.host.received = s.host.received

/-- No step ends in the refusal of a row on another line (log 13), or of an instruction without a meaning. -/
def Obligations.StepNeverRefusesOffLine : Prop :=
  ∀ (s : State) (m : String), step s ≠ .refused .offLine ∧ step s ≠ .refused (.notModelled m)

/-! ### Host register accesses -/

/-- 40_twi_unit.md R121: RD TWBR returns TWBR, WR TWBR stores any value, and nothing else changes. -/
def Obligations.TwbrReadAndWrite : Prop :=
  ∀ (s : State) (v : Byte), s.locked = false →
    exec .rdTwbr s = .next (s.give (.value s.twi.twbr)) ∧
    exec (.wrTwbr v) s = .next { s with twi := { s.twi with twbr := v } }

/-- 40_twi_unit.md R122: RD TWSR returns TWS, 0, TWPS; WR TWSR writes TWPS only. -/
def Obligations.TwsrReadAndWrite : Prop :=
  ∀ (s : State) (v : Byte), s.locked = false →
    (∃ r : Byte, exec .rdTwsr s = .next (s.give (.value r)) ∧
      r.extractLsb' 3 5 = s.twi.tws ∧ r.getLsbD 2 = false ∧ r.extractLsb' 0 2 = s.twi.twps) ∧
    exec (.wrTwsr v) s = .next { s with twi := { s.twi with twps := v.extractLsb' 0 2 } }

/-- 40_twi_unit.md R123: RD TWDR returns the register, or while busy a fresh draw; nothing of the block changes.
The draw is the oracle's next answer (log 2). -/
def Obligations.TwdrRead : Prop :=
  ∀ s : State, s.locked = false →
    (s.twi.op = none → exec .rdTwdr s = .next (s.give (.value s.twi.twdr))) ∧
    (s.twi.op.isSome = true →
      exec .rdTwdr s = .next ({ s with oracle := s.oracle.twdr.2 }.give (.value s.oracle.twdr.1)))

/-- 40_twi_unit.md R124: WR TWDR stores and clears TWWC while TWINT = 1, and otherwise only sets TWWC. -/
def Obligations.TwdrWrite : Prop :=
  ∀ (s : State) (v : Byte), s.locked = false →
    (s.twi.twint = true → exec (.wrTwdr v) s = .next { s with twi := { s.twi with twdr := v, twwc := false } }) ∧
    (s.twi.twint = false → exec (.wrTwdr v) s = .next { s with twi := { s.twi with twwc := true } })

/-- 40_twi_unit.md R125: RD TWCR returns the bits of the layout and changes nothing. -/
def Obligations.TwcrRead : Prop :=
  ∀ s : State, s.locked = false →
    ∃ r : Byte, exec .rdTwcr s = .next (s.give (.value r)) ∧
      r.getLsbD 7 = s.twi.twint ∧ r.getLsbD 6 = s.twi.twea ∧ r.getLsbD 5 = s.twi.twsta ∧ r.getLsbD 4 = s.twi.twsto ∧
      r.getLsbD 3 = s.twi.twwc ∧ r.getLsbD 1 = false ∧
      (s.cfg.layout = .source → r.getLsbD 2 = false ∧ r.getLsbD 0 = s.twi.twen) ∧
      (s.cfg.layout = .avrSilicon → r.getLsbD 2 = s.twi.twen ∧ r.getLsbD 0 = s.twi.twie)

/-- 40_twi_unit.md R128: TWCR_DISABLE, in any state, with the field update of R126. -/
def Obligations.TwcrDisable : Prop :=
  ∀ (s : State) (v : Byte), s.locked = false → fieldEn s.cfg.layout v = false →
    ∃ t, exec (.wrTwcrDisable v) s = .next t ∧
      t.twi.op = none ∧ t.twi.stalled = false ∧ t.twi.mode = .none ∧ t.twi.tws = twsOf 0xF8#8 ∧ t.twi.twen = false ∧
      t.twi.twea = v.getLsbD 6 ∧ t.twi.twsta = v.getLsbD 5 ∧ t.twi.twsto = v.getLsbD 4 ∧
      (s.cfg.layout = .source → t.twi.twie = s.twi.twie) ∧ (s.cfg.layout = .avrSilicon → t.twi.twie = v.getLsbD 0) ∧
      t.twi.twint = (s.twi.twint && !v.getLsbD 7) ∧ t.twi.twwc = s.twi.twwc ∧
      t.twi.twbr = s.twi.twbr ∧ t.twi.twdr = s.twi.twdr ∧ t.twi.twps = s.twi.twps ∧
      (s.twi.mode ≠ .none → t.trace = s.trace ++ [.abort]) ∧ (s.twi.mode = .none → t.trace = s.trace) ∧
      t.cfg = s.cfg ∧ t.seq = s.seq ∧ (∀ a, Memory.read t.fb a = Memory.read s.fb a) ∧
      t.oracle = s.oracle ∧ t.host = s.host

/-- 40_twi_unit.md R129: TWCR_HOLD is the field update only. -/
def Obligations.TwcrHold : Prop :=
  ∀ (s : State) (v : Byte), s.locked = false → s.twi.op = none → fieldEn s.cfg.layout v = true →
    v.getLsbD 7 = false → v.getLsbD 5 = false → v.getLsbD 4 = false →
    exec (.wrTwcrHold v) s = .next
      { s with twi := { s.twi with
          twea := v.getLsbD 6, twsta := false, twsto := false, twen := true
          twie := match s.cfg.layout with
            | .source => s.twi.twie
            | .avrSilicon => v.getLsbD 0 } }

/-- 40_twi_unit.md R130 with R126, R131, R132, R134-R137: a TWCR write on lines 6 to 11 launches the operation of its line. The
stall draw is the oracle's next answer (log 2, log 22). -/
def Obligations.TwcrLaunch : Prop :=
  ∀ (s : State) (v : Byte), s.locked = false → s.twi.op = none → fieldEn s.cfg.layout v = true → v.getLsbD 7 = true →
    (v.getLsbD 5 = true → v.getLsbD 4 = false → Launched .start v s (exec (.twiStart v) s)) ∧
    (v.getLsbD 5 = false → v.getLsbD 4 = true → Launched .stop v s (exec (.twiStop v) s)) ∧
    (v.getLsbD 5 = false → v.getLsbD 4 = false →
      (s.twi.mode = .afterStart → Launched .sla v s (exec (.twiSla v) s)) ∧
      (s.twi.mode = .mt → Launched .tx v s (exec (.twiTx v) s)) ∧
      (s.twi.mode = .mr → v.getLsbD 6 = true → Launched .rx v s (exec (.twiRxAck v) s)) ∧
      (s.twi.mode = .mr → v.getLsbD 6 = false → Launched .rx v s (exec (.twiRxNack v) s)))

/-- 40_twi_unit.md R133, R138: the five rows of refused TWCR writes are refused, whatever the byte and the engine state. That exec
refuses so a row in a state where its byte is on another line, where no step runs it, is the model's choice (log 13). -/
def Obligations.RefusedTwcrWrites : Prop :=
  ∀ (s : State) (v : Byte), s.locked = false →
    exec (.wrTwcrWhileBusy v) s = .refused .twcrUnmodelled ∧
    exec (.wrTwcrNointSta v) s = .refused .twcrUnmodelled ∧
    exec (.wrTwcrNointSto v) s = .refused .twcrUnmodelled ∧
    exec (.twiStasto v) s = .refused .twcrUnmodelled ∧
    exec (.twiByteRefused v) s = .refused .twcrUnmodelled

/-- 20_memory.md R78: every host register access while seqBusy or open is refused. That this refusal comes before
TWCR_UNMODELLED is the model's choice (log 14). -/
def Obligations.HostAccessWhileOwnedIsRefused : Prop :=
  ∀ (s : State) (i : Instr), s.seq.seqBusy = true ∨ s.seq.isOpen = true → formatOf i = .access →
    exec i s = .refused .hostExclusive

/-- The frame of a host register access (20_memory.md R72, R73, 40_twi_unit.md R121-R126): the sequencer, the parameters, every
byte of the frame buffer and the host's stream are unchanged; a read changes no register; a write of TWBR, TWSR or TWDR
changes only TWBR, TWPS, or TWDR and TWWC; a TWCR write leaves TWBR, TWDR, TWPS and TWWC alone, and adds nothing to the trace
but an Abort. -/
def Obligations.HostAccessFrame : Prop :=
  ∀ (s t : State) (i : Instr), formatOf i = .access → exec i s = .next t →
    t.cfg = s.cfg ∧ t.seq = s.seq ∧ (∀ a, Memory.read t.fb a = Memory.read s.fb a) ∧ t.host.stream = s.host.stream ∧
    (i = .rdTwbr ∨ i = .rdTwsr ∨ i = .rdTwdr ∨ i = .rdTwcr → t.twi = s.twi ∧ t.trace = s.trace) ∧
    (∀ v, i = .wrTwbr v → t.twi = { s.twi with twbr := v } ∧ t.trace = s.trace) ∧
    (∀ v, i = .wrTwsr v → t.twi = { s.twi with twps := t.twi.twps } ∧ t.trace = s.trace) ∧
    (∀ v, i = .wrTwdr v → t.twi = { s.twi with twdr := t.twi.twdr, twwc := t.twi.twwc } ∧ t.trace = s.trace) ∧
    (i.twcrWrite.isSome = true →
      t.twi.twbr = s.twi.twbr ∧ t.twi.twdr = s.twi.twdr ∧ t.twi.twps = s.twi.twps ∧ t.twi.twwc = s.twi.twwc ∧
      (t.trace = s.trace ∨ t.trace = s.trace ++ [.abort]))

/-! ### Engine completions -/

/-- 40_twi_unit.md R141: completion of START, 0x08 from mode NONE and 0x10 otherwise, or a bus error where the draw says so.
The draw is the oracle's next answer (log 2, log 22), as in the completions below. -/
def Obligations.StartCompletion : Prop :=
  ∀ s : State, nextAgent s = .engine → s.twi.op = some .start →
    (s.drawBusErr.1 = true → ∃ t, step s = .next t ∧ t.trace = s.trace ++ [.busErr]) ∧
    (s.drawBusErr.1 = false → s.twi.mode = .none → step s = .next
      { s with
        twi := { s.twi with twint := true, tws := twsOf 0x08#8, mode := .afterStart, op := none }
        trace := s.trace ++ [.start], oracle := s.drawBusErr.2 }) ∧
    (s.drawBusErr.1 = false → s.twi.mode ≠ .none → step s = .next
      { s with
        twi := { s.twi with twint := true, tws := twsOf 0x10#8, mode := .afterStart, op := none }
        trace := s.trace ++ [.repStart], oracle := s.drawBusErr.2 })

/-- 40_twi_unit.md R142, R143: completion of SLA+W and SLA+R, by the slave's answer, where no bus error is drawn. -/
def Obligations.SlaCompletion : Prop :=
  ∀ (s : State) (a : Ack) (o : Oracle), nextAgent s = .engine → s.twi.op = some .sla →
    (s.drawBusErr.1 = true → ∃ t, step s = .next t ∧ t.trace = s.trace ++ [.busErr]) ∧
    (s.drawBusErr.1 = false → s.drawBusErr.2.ack = (a, o) →
      (s.twi.twdr.getLsbD 0 = false → step s = .next
        { s with
          twi := { s.twi with
            twint := true, tws := twsOf (if a = .ack then 0x18#8 else 0x20#8), mode := .mt, op := none }
          trace := s.trace ++ [.tx s.twi.twdr a], oracle := o }) ∧
      (s.twi.twdr.getLsbD 0 = true → step s = .next
        { s with
          twi := { s.twi with
            twint := true, tws := twsOf (if a = .ack then 0x40#8 else 0x48#8)
            mode := if a = .ack then .mr else .mrEnd, op := none }
          trace := s.trace ++ [.tx s.twi.twdr a], oracle := o }))

/-- 40_twi_unit.md R144: completion of TX. -/
def Obligations.TxCompletion : Prop :=
  ∀ (s : State) (a : Ack) (o : Oracle), nextAgent s = .engine → s.twi.op = some .tx →
    (s.drawBusErr.1 = true → ∃ t, step s = .next t ∧ t.trace = s.trace ++ [.busErr]) ∧
    (s.drawBusErr.1 = false → s.drawBusErr.2.ack = (a, o) → step s = .next
      { s with
        twi := { s.twi with
          twint := true, tws := twsOf (if a = .ack then 0x28#8 else 0x30#8), mode := .mt, op := none }
        trace := s.trace ++ [.tx s.twi.twdr a], oracle := o })

/-- 40_twi_unit.md R145: completion of RX, answered ACK with TWEA = 1 and NACK with TWEA = 0. -/
def Obligations.RxCompletion : Prop :=
  ∀ (s : State) (r : Byte) (o : Oracle), nextAgent s = .engine → s.twi.op = some .rx →
    (s.drawBusErr.1 = true → ∃ t, step s = .next t ∧ t.trace = s.trace ++ [.busErr]) ∧
    (s.drawBusErr.1 = false → s.drawBusErr.2.rx = (r, o) →
      (s.twi.twea = true → step s = .next
        { s with
          twi := { s.twi with twdr := r, twint := true, tws := twsOf 0x50#8, mode := .mr, op := none }
          trace := s.trace ++ [.rx r .ack], oracle := o }) ∧
      (s.twi.twea = false → step s = .next
        { s with
          twi := { s.twi with twdr := r, twint := true, tws := twsOf 0x58#8, mode := .mrEnd, op := none }
          trace := s.trace ++ [.rx r .nack], oracle := o }))

/-- 40_twi_unit.md R146: a bus-error completion, only where the parameter allows it and the oracle chooses it, and never of a
STOP. The draw is the oracle's next answer (log 2), and none is made where the parameter is false (log 22). -/
def Obligations.BusErrorCompletion : Prop :=
  ∀ s : State, nextAgent s = .engine → s.twi.op ≠ some .stop →
    (s.cfg.busErrorPossible = true → s.oracle.busErr.1 = true → step s = .next
      { s with
        twi := { s.twi with twint := true, tws := twsOf 0x00#8, mode := .none, op := none }
        trace := s.trace ++ [.busErr], oracle := s.oracle.busErr.2 }) ∧
    (s.cfg.busErrorPossible = false ∨ s.oracle.busErr.1 = false →
      ∀ t, step s = .next t → ∃ ev, ev ≠ .busErr ∧ t.trace = s.trace ++ [ev])

/-- 40_twi_unit.md R147: completion of STOP; TWINT is not set, and the event appears only if the bus was held. -/
def Obligations.StopCompletion : Prop :=
  ∀ s : State, nextAgent s = .engine → s.twi.op = some .stop →
    step s = .next
      { s with
        twi := { s.twi with twsto := false, tws := twsOf 0xF8#8, mode := .none, op := none }
        trace := if s.twi.mode = .none then s.trace else s.trace ++ [.stop] }

/-- 40_twi_unit.md R140, R128: a stalled operation never completes; it ends only by a disable write. -/
def Obligations.StalledOperationEndsOnlyByDisable : Prop :=
  ∀ (s t : State) (k : Op), s.twi.op = some k → s.twi.stalled = true → step s = .next t →
    (t.twi.op = some k ∧ t.twi.stalled = true ∧ t.twi.mode = s.twi.mode ∧ t.trace = s.trace) ∨
    (t.twi.op = none ∧ t.twi.twen = false ∧ t.twi.mode = .none)

/-- 40_twi_unit.md R140 (weak fairness), in the model's form (log 5): an operation that does not stall completes, after the
drawn number of steps, where the other agents do nothing. -/
def Obligations.RunningOperationCompletes : Prop :=
  ∀ s : State, s.running = true → s.seq.seqBusy = false → s.host.stream = [] →
    ∃ t, run (s.twi.delay + 1) s = .next t ∧ t.twi.op = none ∧ t.seq = s.seq ∧ t.fb = s.fb ∧ t.cfg = s.cfg

/-! ### Rules of the whole machine -/

/-- 10_state.md R42: the configuration constants are fixed at construction and never change. -/
def Obligations.ConfigurationNeverChanges : Prop :=
  ∀ s t : State, step s = .next t → t.cfg = s.cfg

/-- 10_state.md R47, 40_twi_unit.md R128: a step adds at most one event to the trace and takes none away; an event other than
Abort is added by the engine only. -/
def Obligations.TraceOnlyGrowsByTheEngine : Prop :=
  ∀ s t : State, step s = .next t →
    t.trace = s.trace ∨ ∃ ev, t.trace = s.trace ++ [ev] ∧ (ev = .abort ∨ nextAgent s = .engine)

/-- 20_memory.md R63: the frame buffer is changed only by the micro-steps of FB_PIXEL and FB_LINE. -/
def Obligations.FrameBufferChangesOnlyByDrawing : Prop :=
  ∀ s t : State, step s = .next t → t.fb ≠ s.fb →
    nextAgent s = .sequencer ∧ ((∃ x y on, s.seq.pos = .pixel x y on) ∨ (∃ x y on, s.seq.pos = .line x y on))

/-- 10_state.md R44: only BUS_START and BUS_STOP change `open`. -/
def Obligations.OpenChangesOnlyByStartAndStop : Prop :=
  ∀ s t : State, step s = .next t → t.seq.isOpen ≠ s.seq.isOpen →
    nextAgent s = .host ∧
      ((t.seq.isOpen = true ∧ ∃ u, fetch s.tick = .instr .busStart u) ∨
       (t.seq.isOpen = false ∧ ∃ u, fetch s.tick = .instr .busStop u))

/-! ### Issuing requests -/

/-- 60_exceptions.md R258 (SEQ_BUSY): a request while a request is in progress is refused. That SEQ_BUSY comes before
HOST_PAIRING is the model's choice (log 14), and so is that DEVCMD, CTRL and SLA rows are issued on their own, and refused like the
requests they act as (log 11, log 12). -/
def Obligations.RequestWhileBusyIsRefused : Prop :=
  ∀ (s : State) (i : Instr), s.seq.seqBusy = true → formatOf i ≠ .access → i.wf s.cfg.layout = true →
    exec i s = .refused .seqBusy

/-- 41_bus_primitives.md R167, 42_bus_transactions.md R186: a request that breaks the pairing of raw primitives is refused.
That CTRL and SLA bytes are sent like BUS_SEND, and DEVCMD rows like DISP_CMD, is the model's choice (log 11, log 12). -/
def Obligations.PairingBreakIsRefused : Prop :=
  ∀ (s : State) (i : Instr), s.seq.seqBusy = false → formatOf i ≠ .access → i.wf s.cfg.layout = true →
    accepted i s = false → exec i s = .refused .hostPairing

/-- 10_state.md R43: issuing a request that is accepted, and its frame: the request is in progress, with a next micro-step, also
where it has nothing to send; the TWI unit, every byte of the frame buffer, the trace, the parameters and lastStatus are
unchanged. That `resp` keeps the last response while a request runs is the model's choice (log 18), as is that display
commands, control bytes and address bytes are issued on their own (log 11, log 12), and so are the draws and the host's side
(log 2, log 16). -/
def Obligations.AcceptedRequestIsIssued : Prop :=
  ∀ (s : State) (i : Instr), formatOf i ≠ .access → i.wf s.cfg.layout = true → accepted i s = true →
    ∃ t, exec i s = .next t ∧
      t.cfg = s.cfg ∧ t.twi = s.twi ∧ (∀ a, Memory.read t.fb a = Memory.read s.fb a) ∧ t.trace = s.trace ∧
      t.seq.seqBusy = true ∧ t.seq.req = some i ∧ t.seq.pos ≠ .idle ∧ t.seq.lastStatus = s.seq.lastStatus ∧
      (t.seq.isOpen = if i = .busStart then true else if i = .busStop then false else s.seq.isOpen) ∧
      t.seq.resp = s.seq.resp ∧ t.oracle = s.oracle ∧ t.host = s.host

/-! ### Bus primitives -/

/-- 41_bus_primitives.md R163, R167: BUS_START on an idle bus; and on a held bus the repeated START that start() reports as
Protocol(START, 0x10). -/
def Obligations.BusStartRuns : Prop :=
  ∀ s : State, s.free → s.twi.op = none → s.slaveAcks 0 →
    (s.twi.mode = .none → ∃ t, RunsTo .busStart (.ok []) s t ∧ t.trace = s.trace ++ [.start] ∧ t.seq.isOpen = true ∧
      t.seq.lastStatus = 0x08#8 ∧ t.twi.mode = .afterStart ∧ t.twi.op = none ∧ t.twi.twint = true ∧
      t.twi.twsta = true ∧ t.twi.twen = true ∧ t.twi.twdr = s.twi.twdr) ∧
    (s.twi.mode ≠ .none → ∃ t,
      RunsTo .busStart (.busErr { kind := .protocol, step := .start, status := some 0x10#8, released := none }) s t ∧
      t.trace = s.trace ++ [.repStart] ∧ t.seq.isOpen = true ∧ t.seq.lastStatus = 0x10#8 ∧ t.twi.mode = .afterStart)

/-- 41_bus_primitives.md R164, R167: BUS_STOP, whether open or not, whether the bus is held or not. -/
def Obligations.BusStopRuns : Prop :=
  ∀ s : State, s.seq.seqBusy = false → s.twi.op = none → s.waitsEnd →
    ∃ t, RunsTo .busStop (.ok []) s t ∧ t.seq.isOpen = false ∧
      t.trace = (if s.twi.mode = .none then s.trace else s.trace ++ [.stop]) ∧
      t.busIdle ∧ t.twi.twint = false ∧ t.twi.twsto = false ∧ t.twi.twen = true ∧ t.twi.tws = twsOf 0xF8#8 ∧
      t.seq.lastStatus = s.seq.lastStatus ∧ t.twi.twdr = s.twi.twdr

/-- 41_bus_primitives.md R165, R168 with 40_twi_unit.md R138, R142-R145: BUS_SEND of any byte in any role, and the address and
control bytes sent on their own (log 12), with TWINT = 1, in every mode. After a START and in MT the byte is sent, with the
slave's answer `a`: the response is Ok exactly where the status is the role's. In MR the launch word is a receive answered
NACK (30_encoding.md R89, line 11), of the byte `r` that the slave drives. In NONE and MR_END the launch is refused, in the
request's third micro-step. The answers are the oracle's next ones (log 2), and the count of micro-steps is the model's
choice (log 8). -/
def Obligations.BusSendRuns : Prop :=
  ∀ s : State, s.seq.seqBusy = false → s.seq.isOpen = true → s.twi.op = none → s.twi.twint = true →
    (s.waitsEnd → s.cfg.busErrorPossible = false →
      (∀ (a : Ack) (rest : List Ack), s.oracle.acks = a :: rest → s.twi.mode = .afterStart ∨ s.twi.mode = .mt →
        EverySend fun i b role => SendRuns i b role a s) ∧
      (∀ (r : Byte) (rest : List Byte), s.oracle.rxs = r :: rest → s.twi.mode = .mr →
        EverySend fun i _ role => SendReceives i role r s)) ∧
    (s.hostEager = false → s.twi.mode = .none ∨ s.twi.mode = .mrEnd →
      EverySend fun i _ _ => ∃ u, exec i s = .next u ∧ run 3 u = .refused .twcrUnmodelled)

/-- 41_bus_primitives.md R165, 10_state.md R29: a BUS_SEND while TWINT = 0 ends with WriteCollision, and launches nothing. -/
def Obligations.BusSendCollides : Prop :=
  ∀ (s : State) (b : Byte) (role : Role), s.seq.seqBusy = false → s.seq.isOpen = true → s.twi.op = none →
    s.twi.twint = false → s.hostEager = false →
    ∃ t, RunsTo (.busSend b role)
        (.busErr { kind := .writeCollision, step := (Role.sendRole role).step, status := none, released := none }) s t ∧
      t.twi = { s.twi with twwc := true } ∧ t.trace = s.trace ∧ t.seq.lastStatus = s.seq.lastStatus ∧
      t.seq.isOpen = true

/-- 41_bus_primitives.md R166, R168: BUS_RECV, answering ACK or NACK, with the byte `r` the slave drives. -/
def Obligations.BusRecvRuns : Prop :=
  ∀ (s : State) (k : Bool) (r : Byte) (rest : List Byte), s.seq.seqBusy = false → s.seq.isOpen = true →
    s.seq.lastStatus = 0x40#8 ∨ s.seq.lastStatus = 0x50#8 → s.twi.op = none → s.twi.mode = .mr →
    s.waitsEnd → s.cfg.busErrorPossible = false → s.oracle.rxs = r :: rest →
    ∃ t, RunsTo (.busRecv k) (.ok [r]) s t ∧ t.trace = s.trace ++ [.rx r (if k then .ack else .nack)] ∧
      t.twi.twdr = r ∧ t.twi.twea = k ∧ t.seq.lastStatus = (if k then 0x50#8 else 0x58#8) ∧
      t.twi.mode = (if k then .mr else .mrEnd) ∧ t.twi.op = none ∧ t.twi.twint = true ∧ t.seq.isOpen = true

/-- 41_bus_primitives.md R161, R162, R167: with POLL_LIMIT = SOME L, a raw primitive whose operation stalls (a START or a STOP on
an idle or on a held bus, a byte sent in any role, a byte received) ends with the Timeout of its step after L reads, the unit
disabled, with an Abort in the trace exactly if the bus was held. The control and address bytes on their own are the model's
choice (log 12); the stall draw is the oracle's next answer (log 2). -/
def Obligations.StalledPrimitiveTimesOut : Prop :=
  ∀ (s : State) (l : Nat) (rest : List Bool), s.seq.seqBusy = false → s.twi.op = none → s.hostEager = false → 1 ≤ l →
    s.cfg.pollLimit = some l → s.cfg.slaveMayStall = true → s.oracle.stalls = true :: rest →
    (s.seq.isOpen = false → TimesOut .busStart .start s) ∧
    TimesOut .busStop .stop s ∧
    (s.seq.isOpen = true → s.twi.twint = true → s.twi.mode ≠ .none → s.twi.mode ≠ .mrEnd →
      (∀ b role, TimesOut (.busSend b role) (Role.sendRole role).step s) ∧
      TimesOut .ctrlCmd (.data 0) s ∧ TimesOut .ctrlData (.data 0) s ∧
      (∀ adr, TimesOut (.slaW adr) .addrW s ∧ TimesOut (.slaR adr) .addrR s)) ∧
    (s.seq.isOpen = true → s.seq.lastStatus = 0x40#8 ∨ s.seq.lastStatus = 0x50#8 → s.twi.mode = .mr →
      ∀ k, TimesOut (.busRecv k) (.rx 0) s)

/-! ### Transactions -/

/-- 42_bus_transactions.md R181: a write transaction of any bytes, all acknowledged, makes exactly its bus events. -/
def Obligations.WriteTransactionRuns : Prop :=
  ∀ (s : State) (a : Byte) (bytes : List Byte), s.free → s.busIdle → s.slaveAcks (bytes.length + 1) →
    ∃ t, RunsTo (.writeTxn a bytes) (.ok []) s t ∧ t.trace = s.trace ++ writeTrace a bytes ∧ t.busIdle ∧
      t.twi.twdr = (bytes.getLast?.getD (slaByte a false)) ∧ t.twi.twint = false ∧ t.twi.twen = true ∧
      t.twi.tws = twsOf 0xF8#8 ∧ t.seq.isOpen = false

/-- 42_bus_transactions.md R181-R183, R185 and §8's address-NACK property: a transaction that fails, where it fails. A write whose
`k`-th sent byte is not acknowledged (the address for k = 0, then DATA(k - 1)) sends no byte after it, ends with the STOP and
reports Protocol(ADDR_W, 0x20) or Nack(DATA(k - 1), 0x30); a read whose address is not acknowledged reports
Protocol(ADDR_R, 0x48) after its STOP; and a write or a read whose `k`-th primitive ends in a bus error reports the step with
status 0x00, and there is no STOP, since the bus is not held. All with `released = SOME true`. The answers of the slave and
the bus errors are the oracle's next ones (log 2). -/
def Obligations.FailedTransactionReleasesTheBus : Prop :=
  ∀ (s : State) (a : Byte), s.free → s.busIdle → s.waitsEnd →
    (s.cfg.busErrorPossible = false →
      (∀ (bytes : List Byte) (k : Nat) (rest : List Ack), k ≤ bytes.length →
        s.oracle.acks = List.replicate k Ack.ack ++ .nack :: rest →
        ∃ t, RunsTo (.writeTxn a bytes) (.busErr (nackError k)) s t ∧ t.trace = s.trace ++ nackTrace a bytes k ∧
          t.busIdle ∧ t.seq.isOpen = false) ∧
      (∀ (n : Byte) (rest : List Ack), 1 ≤ n.toNat → s.oracle.acks = .nack :: rest →
        ∃ t, RunsTo (.readTxn a n)
            (.busErr { kind := .protocol, step := .addrR, status := some 0x48#8, released := some true }) s t ∧
          t.trace = s.trace ++ [.start, .tx (slaByte a true) .nack, .stop] ∧ t.busIdle ∧ t.seq.isOpen = false)) ∧
    (s.cfg.busErrorPossible = true → ∀ (k : Nat) (errs : List Bool),
      s.oracle.busErrs = List.replicate k false ++ true :: errs →
      (∀ (bytes : List Byte) (rest : List Ack), k ≤ bytes.length + 1 →
        s.oracle.acks = List.replicate (k - 1) Ack.ack ++ rest →
        ∃ t, RunsTo (.writeTxn a bytes)
            (.busErr { kind := if k ≤ 1 then .protocol else .nack, step := writeStep bytes.length k
                       status := some 0x00#8, released := some true }) s t ∧
          t.trace = s.trace ++ (writeTrace a bytes).take k ++ [.busErr] ∧ t.busIdle ∧ t.seq.isOpen = false) ∧
      (∀ (n : Byte) (bs more : List Byte) (rest : List Ack), 1 ≤ n.toNat → k ≤ n.toNat + 1 → bs.length = n.toNat →
        s.oracle.acks = .ack :: rest → s.oracle.rxs = bs ++ more →
        ∃ t, RunsTo (.readTxn a n)
            (.busErr { kind := .protocol, step := readStep n.toNat k, status := some 0x00#8, released := some true }) s t ∧
          t.trace = s.trace ++ (readTrace a bs).take k ++ [.busErr] ∧ t.busIdle ∧ t.seq.isOpen = false))

/-- 42_bus_transactions.md R181, R185 with 41_bus_primitives.md R161, R162: a write transaction with POLL_LIMIT = SOME L that
times out. Its first `k` operations complete within L reads (`ds` are the steps left to each completion, log 5) and the next
one stalls: the transaction ends with the Timeout of that step, `released = NONE`, no STOP, and an Abort if the bus was held.
Second clause: the `j`-th sent byte is not acknowledged and the release STOP stalls: the NACK is the error that is returned,
with `released = SOME false`, and the recovery's Abort stands where the STOP would. The draws are the oracle's next answers
(log 2). -/
def Obligations.WriteTransactionTimesOut : Prop :=
  ∀ (s : State) (a : Byte) (bytes : List Byte) (l : Nat) (ds more : List Nat) (stalls : List Bool) (rest : List Ack),
    s.free → s.busIdle → s.hostEager = false → s.cfg.busErrorPossible = false → s.cfg.slaveMayStall = true →
    1 ≤ l → s.cfg.pollLimit = some l → (∀ d ∈ ds, d < l) → s.oracle.delays = ds ++ more →
    s.oracle.stalls = List.replicate ds.length false ++ true :: stalls →
    (ds.length ≤ bytes.length + 2 → s.oracle.acks = List.replicate (ds.length - 1) Ack.ack ++ rest →
      ∃ t, RunsTo (.writeTxn a bytes)
          (.busErr { kind := .timeout, step := writeStep bytes.length ds.length, status := none, released := none }) s t ∧
        t.trace = s.trace ++ (writeTrace a bytes).take ds.length ++ (if ds = [] then [] else [.abort]) ∧
        t.seq.polls = l ∧ t.twi.twen = false ∧ t.busIdle ∧ t.seq.isOpen = false) ∧
    (∀ j, j ≤ bytes.length → ds.length = j + 2 → s.oracle.acks = List.replicate j Ack.ack ++ .nack :: rest →
      ∃ t, RunsTo (.writeTxn a bytes) (.busErr { nackError j with released := some false }) s t ∧
        t.trace = s.trace ++ nackEvents a bytes j ++ [.abort] ∧
        t.seq.polls = l ∧ t.twi.twen = false ∧ t.busIdle ∧ t.seq.isOpen = false)

/-- 42_bus_transactions.md R182, R185: whatever the slave answers and whether bus errors occur, a write transaction ends, with
`Ok` or with an error whose release succeeded, and the bus is released. -/
def Obligations.WriteTransactionAlwaysReleases : Prop :=
  ∀ (s : State) (a : Byte) (bytes : List Byte), s.free → s.busIdle → s.waitsEnd →
    ∃ t r, RunsTo (.writeTxn a bytes) r s t ∧ t.busIdle ∧ t.twi.twsto = false ∧ t.seq.isOpen = false ∧
      (r = .ok [] ∨ ∃ e, r = .busErr e ∧ e.released = some true ∧ (e.kind = .protocol ∨ e.kind = .nack))

/-- 42_bus_transactions.md R183, R184: a read transaction of n bytes acknowledges all but the last; n = 0 makes no bus
activity. That the sequencer takes one micro-step to answer n = 0 is the model's choice (log 20). -/
def Obligations.ReadTransactionRuns : Prop :=
  (∀ (s : State) (a n : Byte) (bs rest : List Byte), s.free → s.busIdle → s.slaveAcks 1 →
    bs.length = n.toNat → 1 ≤ n.toNat → s.oracle.rxs = bs ++ rest →
    ∃ t, RunsTo (.readTxn a n) (.ok bs) s t ∧ t.trace = s.trace ++ readTrace a bs ∧ t.busIdle ∧
      some t.twi.twdr = bs.getLast? ∧ t.seq.isOpen = false) ∧
  (∀ (s : State) (a : Byte), s.free → s.running = false → s.hostEager = false →
    ∃ t, RunsTo (.readTxn a 0#8) (.ok []) s t ∧ t.twi = s.twi ∧ t.trace = s.trace ∧ t.fb = s.fb ∧ t.seq.isOpen = false)

/-! ### Display -/

/-- 43_display_commands.md R196, R197, R198, R205: the display requests send their commands, each in a transaction of its own. An
empty INIT_SEQUENCE, which a conforming one is not, sends nothing; that its request is answered in one micro-step is the
model's choice (log 20). -/
def Obligations.DisplayRequestsRun : Prop :=
  ∀ (s : State) (b first last p : Byte),
    DisplayRuns (.dispCmd b) [b] s ∧
    DisplayRuns (.dispSetCol first last) [0x21#8, first, last] s ∧
    (p.toNat < 8 → DisplayRuns (.dispSetPage p) [0xB0#8 ||| p] s) ∧
    DisplayRuns .dispInit s.cfg.initSequence s

/-- 43_display_commands.md R200-R209: the display commands, each byte sent by `command`, in order (log 11). -/
def Obligations.DisplayCommandRowsRun : Prop :=
  ∀ (s : State) (c first last m : Byte) (p : BitVec 3) (n : BitVec 4) (l : BitVec 6),
    DisplayRuns .displayOff [0xAE#8] s ∧ DisplayRuns .displayOn [0xAF#8] s ∧
    DisplayRuns (.setContrast c) [0x81#8, c] s ∧
    DisplayRuns (.setColumnWindow first last) [0x21#8, first, last] s ∧
    DisplayRuns (.setPageStart p) [0xB0#8 ||| p.setWidth 8] s ∧
    DisplayRuns (.setLowerCol n) [n.setWidth 8] s ∧
    DisplayRuns (.setUpperCol n) [0x10#8 ||| n.setWidth 8] s ∧
    DisplayRuns (.setStartLine l) [0x40#8 ||| l.setWidth 8] s ∧
    DisplayRuns (.setAddrMode m) [0x20#8, m] s

/-- 43_display_commands.md R196, R199, 44_framebuffer.md R229: a display request that meets a NACK at any byte of any of its
transactions ends with the DisplayError that names the command, and sends nothing after it. A flush that meets one at the
`k`-th byte of the `j`-th transaction of page `p` names the page, and the command or none for the data; the pages before `p`
have been sent whole, and the frame buffer is unchanged. The display command rows on their own are the model's choice
(log 11); the answers of the slave are the oracle's next ones (log 2). -/
def Obligations.DisplayRequestNacks : Prop :=
  (∀ (s : State) (b first last p : Byte), DisplayNacks (.dispCmd b) [b] s ∧
    DisplayNacks (.dispSetCol first last) [0x21#8, first, last] s ∧
    (p.toNat < 8 → DisplayNacks (.dispSetPage p) [0xB0#8 ||| p] s) ∧
    DisplayNacks .dispInit s.cfg.initSequence s) ∧
  (∀ (s : State) (c first last m : Byte) (p : BitVec 3) (n : BitVec 4) (l : BitVec 6),
    DisplayNacks .displayOff [0xAE#8] s ∧ DisplayNacks .displayOn [0xAF#8] s ∧ DisplayNacks (.setContrast c) [0x81#8, c] s ∧
    DisplayNacks (.setColumnWindow first last) [0x21#8, first, last] s ∧
    DisplayNacks (.setPageStart p) [0xB0#8 ||| p.setWidth 8] s ∧ DisplayNacks (.setLowerCol n) [n.setWidth 8] s ∧
    DisplayNacks (.setUpperCol n) [0x10#8 ||| n.setWidth 8] s ∧ DisplayNacks (.setStartLine l) [0x40#8 ||| l.setWidth 8] s ∧
    DisplayNacks (.setAddrMode m) [0x20#8, m] s) ∧
  (∀ (s : State) (p j k : Nat) (rest : List Ack), s.cfg.wf = true → s.free → s.busIdle → s.waitsEnd →
    s.cfg.busErrorPossible = false → p < 8 → j < 5 → k < (if j < 4 then 3 else 2 + s.cfg.width) →
    s.oracle.acks = List.replicate (p * (14 + s.cfg.width) + 3 * j + k) Ack.ack ++ .nack :: rest →
    ∃ t, RunsTo .dispFlush
        (.displayErr { page := some p, command := (pageCommands s.cfg.width p)[j]?, cause := nackError k }) s t ∧
      t.trace = s.trace ++ (List.range p).flatMap (pageTrace s.cfg.width s.fb) ++ pageNackTrace s.cfg.width s.fb p j k ∧
      t.fb = s.fb ∧ t.busIdle ∧ t.seq.isOpen = false)

/-- 44_framebuffer.md R226-R228: a flush with every byte acknowledged sends the eight pages in order, each page's commands and
then its bytes, and leaves the frame buffer as it was. -/
def Obligations.FlushSendsTheFrameBuffer : Prop :=
  ∀ s : State, s.cfg.wf = true → s.free → s.busIdle → s.slaveAcks (8 * (14 + s.cfg.width)) →
    ∃ t, RunsTo .dispFlush (.ok []) s t ∧ t.trace = s.trace ++ flushTrace s.cfg.width s.fb ∧ t.fb = s.fb ∧ t.busIdle ∧
      t.seq.isOpen = false

/-- 44_framebuffer.md R230: the counts of what the trace gains in one successful flush, at any WIDTH: 8 * (14 + WIDTH) Tx events;
40 transactions, each START with its STOP; the page-address commands, 8 of them, for p = 0 .. 7 in order; 8 column-window
commands; 8 * WIDTH frame data bytes. A command is told from an argument by the lengths of 30_encoding.md R97. -/
def Obligations.FlushCounts : Prop :=
  ∀ s : State, s.cfg.wf = true → s.free → s.busIdle → s.slaveAcks (8 * (14 + s.cfg.width)) →
    ∃ t gained, RunsTo .dispFlush (.ok []) s t ∧ t.trace = s.trace ++ gained ∧
      gained.countP Event.isTx = 8 * (14 + s.cfg.width) ∧
      (transactions gained).length = 40 ∧ gained.count .start = 40 ∧ gained.count .stop = 40 ∧
      (commandsIn gained).filter (fun b => b &&& 0xF8#8 == 0xB0#8) =
        [0xB0#8, 0xB1#8, 0xB2#8, 0xB3#8, 0xB4#8, 0xB5#8, 0xB6#8, 0xB7#8] ∧
      (commandsIn gained).count 0x21#8 = 8 ∧
      ((transactions gained).flatMap dataOf).length = 8 * s.cfg.width

/-! ### Frame buffer -/

/-- 44_framebuffer.md R221, R222: FB_PIXEL on a screen point sets or clears that pixel and no other; outside it changes nothing.
No TWI register and no event is touched. -/
def Obligations.PixelRequestRuns : Prop :=
  ∀ (s : State) (x y : Byte) (on : Bool), s.seq.seqBusy = false → s.running = false → s.hostEager = false →
    FbInv s.cfg s.fb →
    ∃ u t, exec (.fbPixel x y on) s = .next u ∧ step u = .next t ∧
      t.seq.resp = some (.ok []) ∧ t.seq.seqBusy = false ∧ t.twi = s.twi ∧ t.trace = s.trace ∧ t.cfg = s.cfg ∧
      t.seq.isOpen = s.seq.isOpen ∧ t.host.stream = s.host.stream ∧
      (x.toNat < s.cfg.width → y.toNat < 64 → pixelAt s.cfg.width t.fb x.toNat y.toNat = on) ∧
      (∀ x' y', x' < s.cfg.width → y' < 64 → (x', y') ≠ (x.toNat, y.toNat) →
        pixelAt s.cfg.width t.fb x' y' = pixelAt s.cfg.width s.fb x' y') ∧
      (∀ a, a ≠ x.toNat + (y.toNat / 8) * s.cfg.width → Memory.read t.fb a = Memory.read s.fb a) ∧
      (s.cfg.width ≤ x.toNat ∨ 64 ≤ y.toNat → ∀ a, Memory.read t.fb a = Memory.read s.fb a)

/-- 44_framebuffer.md R222, items 3 and 4: drawPixel is idempotent, and pixel writes at different points commute. -/
def Obligations.PixelWritesIdempotentAndCommute : Prop :=
  ∀ (width : Nat) (fb : Memory) (x y x' y' : Nat) (on on' : Bool), Memory.wf fb = true →
    drawPixel width (drawPixel width fb x y on) x y on = drawPixel width fb x y on ∧
    ((x, y) ≠ (x', y') →
      drawPixel width (drawPixel width fb x y on) x' y' on' = drawPixel width (drawPixel width fb x' y' on') x y on)

/-- 44_framebuffer.md R223-R225: FB_LINE plots exactly the points of R224's loop, `max(dx, dy) + 1` of them, one a pass, from the
first end point to the second; every other pixel of the screen keeps its value, points off the screen are dropped, and pixels
outside the box of the end points are among the others. No TWI register and no event is touched. -/
def Obligations.LineRequestRuns : Prop :=
  ∀ (s : State) (x0 y0 x1 y1 : Byte) (on : Bool), s.seq.seqBusy = false → s.running = false → s.hostEager = false →
    FbInv s.cfg s.fb →
    let far := max (max x0.toNat x1.toNat - min x0.toNat x1.toNat) (max y0.toNat y1.toNat - min y0.toNat y1.toNat)
    let points := linePoints x0.toNat y0.toNat x1.toNat y1.toNat
    points.length = far + 1 ∧
    ∃ u t, exec (.fbLine x0 y0 x1 y1 on) s = .next u ∧ run (far + 1) u = .next t ∧
      (∀ n, n ≤ far → ∃ v, run n u = .next v ∧ v.seq.seqBusy = true) ∧
      t.seq.resp = some (.ok []) ∧ t.seq.seqBusy = false ∧ t.twi = s.twi ∧ t.trace = s.trace ∧ t.cfg = s.cfg ∧
      t.seq.isOpen = s.seq.isOpen ∧ t.host.stream = s.host.stream ∧
      (∀ x y, x < s.cfg.width → y < 64 → pixelAt s.cfg.width t.fb x y =
        if ((x : Int), (y : Int)) ∈ points then on else pixelAt s.cfg.width s.fb x y) ∧
      (∀ a, s.cfg.bufSize ≤ a → Memory.read t.fb a = Memory.read s.fb a) ∧
      (∀ x y, x < s.cfg.width → y < 64 →
        (x < min x0.toNat x1.toNat ∨ max x0.toNat x1.toNat < x ∨ y < min y0.toNat y1.toNat ∨ max y0.toNat y1.toNat < y) →
        pixelAt s.cfg.width t.fb x y = pixelAt s.cfg.width s.fb x y) ∧
      (x0.toNat < s.cfg.width → y0.toNat < 64 → pixelAt s.cfg.width t.fb x0.toNat y0.toNat = on) ∧
      (x1.toNat < s.cfg.width → y1.toNat < 64 → pixelAt s.cfg.width t.fb x1.toNat y1.toNat = on)

/-! ### Responses as bytes -/

/-- 60_exceptions.md R242: a BusError is 5 bytes, a DisplayError 8, an Ok its value after 0x00; and the 5 bytes determine the
error, for the indices and status codes the block produces. -/
def Obligations.ResponseBytesDetermineTheError : Prop :=
  (∀ v, responseBytes (.ok v) = 0#8 :: v) ∧
  (∀ e, (responseBytes (.busErr e)).length = 5) ∧ (∀ e, (responseBytes (.displayErr e)).length = 8) ∧
  (∀ e e' : BusError,
    (∀ i, e.step = .data i ∨ e.step = .rx i → i < 256) → (∀ i, e'.step = .data i ∨ e'.step = .rx i → i < 256) →
    e.status ≠ some 0xFF#8 → e'.status ≠ some 0xFF#8 →
    responseBytes (.busErr e) = responseBytes (.busErr e') → e = e')
end

