-- ==== Sys2Proof/Laws/State.lean ====
section
/-! SUPPORT. What each update of the state leaves alone, one lemma per field, so that no proof unfolds a record update. The
sequencer's local computation (everything in a micro-step but the access itself) touches its own state, the draw counter
and the host's received list, and nothing else. -/

namespace Sys2Proof.Machine

/-! ### TWCR and TWDR writes -/

@[simp] theorem State.disable_cfg (v : Byte) (s : State) : (s.disable v).cfg = s.cfg := rfl
@[simp] theorem State.disable_seq (v : Byte) (s : State) : (s.disable v).seq = s.seq := rfl
@[simp] theorem State.disable_fb (v : Byte) (s : State) : (s.disable v).fb = s.fb := rfl
@[simp] theorem State.disable_host (v : Byte) (s : State) : (s.disable v).host = s.host := rfl
@[simp] theorem State.disable_oracle (v : Byte) (s : State) : (s.disable v).oracle = s.oracle := rfl

@[simp] theorem State.hold_cfg (v : Byte) (s : State) : (s.hold v).cfg = s.cfg := rfl
@[simp] theorem State.hold_seq (v : Byte) (s : State) : (s.hold v).seq = s.seq := rfl
@[simp] theorem State.hold_fb (v : Byte) (s : State) : (s.hold v).fb = s.fb := rfl
@[simp] theorem State.hold_host (v : Byte) (s : State) : (s.hold v).host = s.host := rfl
@[simp] theorem State.hold_trace (v : Byte) (s : State) : (s.hold v).trace = s.trace := rfl
@[simp] theorem State.hold_oracle (v : Byte) (s : State) : (s.hold v).oracle = s.oracle := rfl

@[simp] theorem State.launch_cfg (k : Op) (v : Byte) (s : State) : (s.launch k v).cfg = s.cfg := rfl
@[simp] theorem State.launch_seq (k : Op) (v : Byte) (s : State) : (s.launch k v).seq = s.seq := rfl
@[simp] theorem State.launch_fb (k : Op) (v : Byte) (s : State) : (s.launch k v).fb = s.fb := rfl
@[simp] theorem State.launch_host (k : Op) (v : Byte) (s : State) : (s.launch k v).host = s.host := rfl
@[simp] theorem State.launch_trace (k : Op) (v : Byte) (s : State) : (s.launch k v).trace = s.trace := rfl

@[simp] theorem State.writeTwdr_cfg (v : Byte) (s : State) : (s.writeTwdr v).cfg = s.cfg := rfl
@[simp] theorem State.writeTwdr_seq (v : Byte) (s : State) : (s.writeTwdr v).seq = s.seq := rfl
@[simp] theorem State.writeTwdr_fb (v : Byte) (s : State) : (s.writeTwdr v).fb = s.fb := rfl
@[simp] theorem State.writeTwdr_host (v : Byte) (s : State) : (s.writeTwdr v).host = s.host := rfl
@[simp] theorem State.writeTwdr_trace (v : Byte) (s : State) : (s.writeTwdr v).trace = s.trace := rfl
@[simp] theorem State.writeTwdr_oracle (v : Byte) (s : State) : (s.writeTwdr v).oracle = s.oracle := rfl

/-! ### The host and the passing of a step -/

@[simp] theorem State.give_cfg (r : Received) (s : State) : (s.give r).cfg = s.cfg := rfl
@[simp] theorem State.give_twi (r : Received) (s : State) : (s.give r).twi = s.twi := rfl
@[simp] theorem State.give_seq (r : Received) (s : State) : (s.give r).seq = s.seq := rfl
@[simp] theorem State.give_fb (r : Received) (s : State) : (s.give r).fb = s.fb := rfl
@[simp] theorem State.give_trace (r : Received) (s : State) : (s.give r).trace = s.trace := rfl
@[simp] theorem State.give_oracle (r : Received) (s : State) : (s.give r).oracle = s.oracle := rfl
@[simp] theorem State.give_stream (r : Received) (s : State) : (s.give r).host.stream = s.host.stream := rfl

@[simp] theorem State.withStream_cfg (q : List Burst) (s : State) : (s.withStream q).cfg = s.cfg := rfl
@[simp] theorem State.withStream_twi (q : List Burst) (s : State) : (s.withStream q).twi = s.twi := rfl
@[simp] theorem State.withStream_seq (q : List Burst) (s : State) : (s.withStream q).seq = s.seq := rfl
@[simp] theorem State.withStream_fb (q : List Burst) (s : State) : (s.withStream q).fb = s.fb := rfl
@[simp] theorem State.withStream_trace (q : List Burst) (s : State) : (s.withStream q).trace = s.trace := rfl
@[simp] theorem State.withStream_oracle (q : List Burst) (s : State) : (s.withStream q).oracle = s.oracle := rfl
@[simp] theorem State.withStream_received (q : List Burst) (s : State) : (s.withStream q).host.received = s.host.received := rfl

@[simp] theorem State.tick_cfg (s : State) : s.tick.cfg = s.cfg := by unfold State.tick; split <;> rfl
@[simp] theorem State.tick_seq (s : State) : s.tick.seq = s.seq := by unfold State.tick; split <;> rfl
@[simp] theorem State.tick_fb (s : State) : s.tick.fb = s.fb := by unfold State.tick; split <;> rfl
@[simp] theorem State.tick_trace (s : State) : s.tick.trace = s.trace := by unfold State.tick; split <;> rfl
@[simp] theorem State.tick_oracle (s : State) : s.tick.oracle = s.oracle := by unfold State.tick; split <;> rfl
@[simp] theorem State.tick_host (s : State) : s.tick.host = s.host := by unfold State.tick; split <;> rfl
@[simp] theorem State.tick_op (s : State) : s.tick.twi.op = s.twi.op := by unfold State.tick; split <;> rfl
@[simp] theorem State.tick_mode (s : State) : s.tick.twi.mode = s.twi.mode := by unfold State.tick; split <;> rfl
@[simp] theorem State.tick_stalled (s : State) : s.tick.twi.stalled = s.twi.stalled := by unfold State.tick; split <;> rfl
@[simp] theorem State.tick_twint (s : State) : s.tick.twi.twint = s.twi.twint := by unfold State.tick; split <;> rfl
@[simp] theorem State.tick_twen (s : State) : s.tick.twi.twen = s.twi.twen := by unfold State.tick; split <;> rfl
@[simp] theorem State.tick_twsto (s : State) : s.tick.twi.twsto = s.twi.twsto := by unfold State.tick; split <;> rfl
@[simp] theorem State.tick_tws (s : State) : s.tick.twi.tws = s.twi.tws := by unfold State.tick; split <;> rfl
@[simp] theorem State.tick_twdr (s : State) : s.tick.twi.twdr = s.twi.twdr := by unfold State.tick; split <;> rfl
@[simp] theorem State.tick_twea (s : State) : s.tick.twi.twea = s.twi.twea := by unfold State.tick; split <;> rfl

/-- A step passes unnoticed while nothing runs. -/
theorem State.tick_of_not_running {s : State} (h : s.running = false) : s.tick = s := by simp [State.tick, h]

/-! ### A TWDR read -/

@[simp] theorem State.readTwdr_cfg (s : State) : s.readTwdr.2.cfg = s.cfg := by unfold State.readTwdr; split <;> rfl
@[simp] theorem State.readTwdr_twi (s : State) : s.readTwdr.2.twi = s.twi := by unfold State.readTwdr; split <;> rfl
@[simp] theorem State.readTwdr_seq (s : State) : s.readTwdr.2.seq = s.seq := by unfold State.readTwdr; split <;> rfl
@[simp] theorem State.readTwdr_fb (s : State) : s.readTwdr.2.fb = s.fb := by unfold State.readTwdr; split <;> rfl
@[simp] theorem State.readTwdr_trace (s : State) : s.readTwdr.2.trace = s.trace := by unfold State.readTwdr; split <;> rfl
@[simp] theorem State.readTwdr_host (s : State) : s.readTwdr.2.host = s.host := by unfold State.readTwdr; split <;> rfl

/-! ### Drawing -/

@[simp] theorem State.plot_cfg (x y : Nat) (on : Bool) (s : State) : (s.plot x y on).cfg = s.cfg := rfl
@[simp] theorem State.plot_twi (x y : Nat) (on : Bool) (s : State) : (s.plot x y on).twi = s.twi := rfl
@[simp] theorem State.plot_seq (x y : Nat) (on : Bool) (s : State) : (s.plot x y on).seq = s.seq := rfl
@[simp] theorem State.plot_trace (x y : Nat) (on : Bool) (s : State) : (s.plot x y on).trace = s.trace := rfl
@[simp] theorem State.plot_oracle (x y : Nat) (on : Bool) (s : State) : (s.plot x y on).oracle = s.oracle := rfl
@[simp] theorem State.plot_host (x y : Nat) (on : Bool) (s : State) : (s.plot x y on).host = s.host := rfl

@[simp] theorem State.plot_fb (x y : Nat) (on : Bool) (s : State) :
    (s.plot x y on).fb = drawPixel s.cfg.width s.fb x y on := rfl

/-! ### The sequencer -/

@[simp] theorem State.issue_oracle (i : Instr) (s : State) : (s.issue i).oracle = s.oracle := rfl
@[simp] theorem State.issue_host (i : Instr) (s : State) : (s.issue i).host = s.host := rfl
@[simp] theorem State.issue_resp (i : Instr) (s : State) : (s.issue i).seq.resp = s.seq.resp := rfl
@[simp] theorem State.issue_seqBusy (i : Instr) (s : State) : (s.issue i).seq.seqBusy = true := rfl
@[simp] theorem State.issue_req (i : Instr) (s : State) : (s.issue i).seq.req = some i := rfl
@[simp] theorem State.issue_cfg (i : Instr) (s : State) : (s.issue i).cfg = s.cfg := rfl
@[simp] theorem State.issue_twi (i : Instr) (s : State) : (s.issue i).twi = s.twi := rfl
@[simp] theorem State.issue_fb (i : Instr) (s : State) : (s.issue i).fb = s.fb := rfl
@[simp] theorem State.issue_trace (i : Instr) (s : State) : (s.issue i).trace = s.trace := rfl
@[simp] theorem State.issue_isOpen (i : Instr) (s : State) : (s.issue i).seq.isOpen = s.seq.isOpen := rfl
@[simp] theorem State.issue_lastStatus (i : Instr) (s : State) : (s.issue i).seq.lastStatus = s.seq.lastStatus := rfl

@[simp] theorem State.respond_cfg (r : Response) (s : State) : (s.respond r).cfg = s.cfg := rfl
@[simp] theorem State.respond_twi (r : Response) (s : State) : (s.respond r).twi = s.twi := rfl
@[simp] theorem State.respond_fb (r : Response) (s : State) : (s.respond r).fb = s.fb := rfl
@[simp] theorem State.respond_trace (r : Response) (s : State) : (s.respond r).trace = s.trace := rfl
@[simp] theorem State.respond_isOpen (r : Response) (s : State) : (s.respond r).seq.isOpen = s.seq.isOpen := rfl
@[simp] theorem State.respond_lastStatus (r : Response) (s : State) : (s.respond r).seq.lastStatus = s.seq.lastStatus := rfl
@[simp] theorem State.respond_stream (r : Response) (s : State) : (s.respond r).host.stream = s.host.stream := rfl

@[simp] theorem State.raiseBus_cfg (e : BusError) (s : State) : (s.raiseBus e).cfg = s.cfg := rfl
@[simp] theorem State.raiseBus_twi (e : BusError) (s : State) : (s.raiseBus e).twi = s.twi := rfl
@[simp] theorem State.raiseBus_fb (e : BusError) (s : State) : (s.raiseBus e).fb = s.fb := rfl
@[simp] theorem State.raiseBus_trace (e : BusError) (s : State) : (s.raiseBus e).trace = s.trace := rfl
@[simp] theorem State.raiseBus_isOpen (e : BusError) (s : State) : (s.raiseBus e).seq.isOpen = s.seq.isOpen := rfl
@[simp] theorem State.raiseBus_lastStatus (e : BusError) (s : State) : (s.raiseBus e).seq.lastStatus = s.seq.lastStatus := rfl
@[simp] theorem State.raiseBus_stream (e : BusError) (s : State) : (s.raiseBus e).host.stream = s.host.stream := rfl

@[simp] theorem State.raiseDisplay_cfg (e : DisplayError) (s : State) : (s.raiseDisplay e).cfg = s.cfg := rfl
@[simp] theorem State.raiseDisplay_twi (e : DisplayError) (s : State) : (s.raiseDisplay e).twi = s.twi := rfl
@[simp] theorem State.raiseDisplay_fb (e : DisplayError) (s : State) : (s.raiseDisplay e).fb = s.fb := rfl
@[simp] theorem State.raiseDisplay_trace (e : DisplayError) (s : State) : (s.raiseDisplay e).trace = s.trace := rfl
@[simp] theorem State.raiseDisplay_isOpen (e : DisplayError) (s : State) : (s.raiseDisplay e).seq.isOpen = s.seq.isOpen := rfl
@[simp] theorem State.raiseDisplay_lastStatus (e : DisplayError) (s : State) : (s.raiseDisplay e).seq.lastStatus = s.seq.lastStatus := rfl
@[simp] theorem State.raiseDisplay_stream (e : DisplayError) (s : State) : (s.raiseDisplay e).host.stream = s.host.stream := rfl

@[simp] theorem State.call_cfg (p : Prim) (s : State) : (s.call p).cfg = s.cfg := rfl
@[simp] theorem State.call_twi (p : Prim) (s : State) : (s.call p).twi = s.twi := rfl
@[simp] theorem State.call_fb (p : Prim) (s : State) : (s.call p).fb = s.fb := rfl
@[simp] theorem State.call_trace (p : Prim) (s : State) : (s.call p).trace = s.trace := rfl
@[simp] theorem State.call_isOpen (p : Prim) (s : State) : (s.call p).seq.isOpen = s.seq.isOpen := rfl
@[simp] theorem State.call_lastStatus (p : Prim) (s : State) : (s.call p).seq.lastStatus = s.seq.lastStatus := rfl
@[simp] theorem State.call_stream (p : Prim) (s : State) : (s.call p).host.stream = s.host.stream := rfl

@[simp] theorem State.goto_cfg (q : Pos) (s : State) : (s.goto q).cfg = s.cfg := rfl
@[simp] theorem State.goto_twi (q : Pos) (s : State) : (s.goto q).twi = s.twi := rfl
@[simp] theorem State.goto_fb (q : Pos) (s : State) : (s.goto q).fb = s.fb := rfl
@[simp] theorem State.goto_trace (q : Pos) (s : State) : (s.goto q).trace = s.trace := rfl
@[simp] theorem State.goto_isOpen (q : Pos) (s : State) : (s.goto q).seq.isOpen = s.seq.isOpen := rfl
@[simp] theorem State.goto_lastStatus (q : Pos) (s : State) : (s.goto q).seq.lastStatus = s.seq.lastStatus := rfl
@[simp] theorem State.goto_stream (q : Pos) (s : State) : (s.goto q).host.stream = s.host.stream := rfl

@[simp] theorem State.beginWait_cfg (p : Prim) (s : State) : (s.beginWait p).cfg = s.cfg := rfl
@[simp] theorem State.beginWait_twi (p : Prim) (s : State) : (s.beginWait p).twi = s.twi := rfl
@[simp] theorem State.beginWait_fb (p : Prim) (s : State) : (s.beginWait p).fb = s.fb := rfl
@[simp] theorem State.beginWait_trace (p : Prim) (s : State) : (s.beginWait p).trace = s.trace := rfl
@[simp] theorem State.beginWait_isOpen (p : Prim) (s : State) : (s.beginWait p).seq.isOpen = s.seq.isOpen := rfl
@[simp] theorem State.beginWait_lastStatus (p : Prim) (s : State) : (s.beginWait p).seq.lastStatus = s.seq.lastStatus := rfl
@[simp] theorem State.beginWait_stream (p : Prim) (s : State) : (s.beginWait p).host.stream = s.host.stream := rfl

@[simp] theorem State.startTxn_cfg (t : Txn) (s : State) : (s.startTxn t).cfg = s.cfg := rfl
@[simp] theorem State.startTxn_twi (t : Txn) (s : State) : (s.startTxn t).twi = s.twi := rfl
@[simp] theorem State.startTxn_fb (t : Txn) (s : State) : (s.startTxn t).fb = s.fb := rfl
@[simp] theorem State.startTxn_trace (t : Txn) (s : State) : (s.startTxn t).trace = s.trace := rfl
@[simp] theorem State.startTxn_isOpen (t : Txn) (s : State) : (s.startTxn t).seq.isOpen = s.seq.isOpen := rfl
@[simp] theorem State.startTxn_lastStatus (t : Txn) (s : State) : (s.startTxn t).seq.lastStatus = s.seq.lastStatus := rfl
@[simp] theorem State.startTxn_stream (t : Txn) (s : State) : (s.startTxn t).host.stream = s.host.stream := rfl

@[simp] theorem State.startLine_cfg (x0 y0 x1 y1 : Byte) (on : Bool) (s : State) : (s.startLine x0 y0 x1 y1 on).cfg = s.cfg := rfl
@[simp] theorem State.startLine_twi (x0 y0 x1 y1 : Byte) (on : Bool) (s : State) : (s.startLine x0 y0 x1 y1 on).twi = s.twi := rfl
@[simp] theorem State.startLine_fb (x0 y0 x1 y1 : Byte) (on : Bool) (s : State) : (s.startLine x0 y0 x1 y1 on).fb = s.fb := rfl
@[simp] theorem State.startLine_trace (x0 y0 x1 y1 : Byte) (on : Bool) (s : State) : (s.startLine x0 y0 x1 y1 on).trace = s.trace := rfl
@[simp] theorem State.startLine_isOpen (x0 y0 x1 y1 : Byte) (on : Bool) (s : State) : (s.startLine x0 y0 x1 y1 on).seq.isOpen = s.seq.isOpen := rfl
@[simp] theorem State.startLine_lastStatus (x0 y0 x1 y1 : Byte) (on : Bool) (s : State) : (s.startLine x0 y0 x1 y1 on).seq.lastStatus = s.seq.lastStatus := rfl
@[simp] theorem State.startLine_stream (x0 y0 x1 y1 : Byte) (on : Bool) (s : State) : (s.startLine x0 y0 x1 y1 on).host.stream = s.host.stream := rfl

@[simp] theorem State.setOpen_cfg (b : Bool) (s : State) : (s.setOpen b).cfg = s.cfg := rfl
@[simp] theorem State.setOpen_twi (b : Bool) (s : State) : (s.setOpen b).twi = s.twi := rfl
@[simp] theorem State.setOpen_fb (b : Bool) (s : State) : (s.setOpen b).fb = s.fb := rfl
@[simp] theorem State.setOpen_trace (b : Bool) (s : State) : (s.setOpen b).trace = s.trace := rfl
@[simp] theorem State.setOpen_lastStatus (b : Bool) (s : State) : (s.setOpen b).seq.lastStatus = s.seq.lastStatus := rfl
@[simp] theorem State.setOpen_stream (b : Bool) (s : State) : (s.setOpen b).host.stream = s.host.stream := rfl

@[simp] theorem State.setOpen_isOpen (b : Bool) (s : State) : (s.setOpen b).seq.isOpen = b := rfl

@[simp] theorem State.startJob_cfg (j : Job) (rest : List Job) (s : State) : (s.startJob j rest).cfg = s.cfg := by
  cases j <;> rfl
@[simp] theorem State.startJob_twi (j : Job) (rest : List Job) (s : State) : (s.startJob j rest).twi = s.twi := by
  cases j <;> rfl
@[simp] theorem State.startJob_fb (j : Job) (rest : List Job) (s : State) : (s.startJob j rest).fb = s.fb := by
  cases j <;> rfl
@[simp] theorem State.startJob_trace (j : Job) (rest : List Job) (s : State) : (s.startJob j rest).trace = s.trace := by
  cases j <;> rfl
@[simp] theorem State.startJob_isOpen (j : Job) (rest : List Job) (s : State) : (s.startJob j rest).seq.isOpen = s.seq.isOpen := by
  cases j <;> rfl
@[simp] theorem State.startJob_lastStatus (j : Job) (rest : List Job) (s : State) : (s.startJob j rest).seq.lastStatus = s.seq.lastStatus := by
  cases j <;> rfl
@[simp] theorem State.startJob_stream (j : Job) (rest : List Job) (s : State) : (s.startJob j rest).host.stream = s.host.stream := by
  cases j <;> rfl

@[simp] theorem State.startPage_cfg (p : Nat) (s : State) : (s.startPage p).cfg = s.cfg := rfl
@[simp] theorem State.startPage_twi (p : Nat) (s : State) : (s.startPage p).twi = s.twi := rfl
@[simp] theorem State.startPage_fb (p : Nat) (s : State) : (s.startPage p).fb = s.fb := rfl
@[simp] theorem State.startPage_trace (p : Nat) (s : State) : (s.startPage p).trace = s.trace := rfl
@[simp] theorem State.startPage_isOpen (p : Nat) (s : State) : (s.startPage p).seq.isOpen = s.seq.isOpen := rfl
@[simp] theorem State.startPage_lastStatus (p : Nat) (s : State) : (s.startPage p).seq.lastStatus = s.seq.lastStatus := rfl
@[simp] theorem State.startPage_stream (p : Nat) (s : State) : (s.startPage p).host.stream = s.host.stream := rfl

@[simp] theorem State.nextJob_cfg (s : State) : (s.nextJob).cfg = s.cfg := by
  unfold State.nextJob
  split
  · simp
  · split <;> simp
@[simp] theorem State.nextJob_twi (s : State) : (s.nextJob).twi = s.twi := by
  unfold State.nextJob
  split
  · simp
  · split <;> simp
@[simp] theorem State.nextJob_fb (s : State) : (s.nextJob).fb = s.fb := by
  unfold State.nextJob
  split
  · simp
  · split <;> simp
@[simp] theorem State.nextJob_trace (s : State) : (s.nextJob).trace = s.trace := by
  unfold State.nextJob
  split
  · simp
  · split <;> simp
@[simp] theorem State.nextJob_isOpen (s : State) : (s.nextJob).seq.isOpen = s.seq.isOpen := by
  unfold State.nextJob
  split
  · simp
  · split <;> simp
@[simp] theorem State.nextJob_lastStatus (s : State) : (s.nextJob).seq.lastStatus = s.seq.lastStatus := by
  unfold State.nextJob
  split
  · simp
  · split <;> simp
@[simp] theorem State.nextJob_stream (s : State) : (s.nextJob).host.stream = s.host.stream := by
  unfold State.nextJob
  split
  · simp
  · split <;> simp

@[simp] theorem State.txnDone_cfg (r : Except BusError (List Byte)) (s : State) : (s.txnDone r).cfg = s.cfg := by
  unfold State.txnDone
  split <;> simp
@[simp] theorem State.txnDone_twi (r : Except BusError (List Byte)) (s : State) : (s.txnDone r).twi = s.twi := by
  unfold State.txnDone
  split <;> simp
@[simp] theorem State.txnDone_fb (r : Except BusError (List Byte)) (s : State) : (s.txnDone r).fb = s.fb := by
  unfold State.txnDone
  split <;> simp
@[simp] theorem State.txnDone_trace (r : Except BusError (List Byte)) (s : State) : (s.txnDone r).trace = s.trace := by
  unfold State.txnDone
  split <;> simp
@[simp] theorem State.txnDone_isOpen (r : Except BusError (List Byte)) (s : State) : (s.txnDone r).seq.isOpen = s.seq.isOpen := by
  unfold State.txnDone
  split <;> simp
@[simp] theorem State.txnDone_lastStatus (r : Except BusError (List Byte)) (s : State) : (s.txnDone r).seq.lastStatus = s.seq.lastStatus := by
  unfold State.txnDone
  split <;> simp
@[simp] theorem State.txnDone_stream (r : Except BusError (List Byte)) (s : State) : (s.txnDone r).host.stream = s.host.stream := by
  unfold State.txnDone
  split <;> simp

@[simp] theorem State.sendFrom_cfg (bytes : List Byte) (i : Nat) (s : State) : (s.sendFrom bytes i).cfg = s.cfg := by
  unfold State.sendFrom
  split <;> rfl
@[simp] theorem State.sendFrom_twi (bytes : List Byte) (i : Nat) (s : State) : (s.sendFrom bytes i).twi = s.twi := by
  unfold State.sendFrom
  split <;> rfl
@[simp] theorem State.sendFrom_fb (bytes : List Byte) (i : Nat) (s : State) : (s.sendFrom bytes i).fb = s.fb := by
  unfold State.sendFrom
  split <;> rfl
@[simp] theorem State.sendFrom_trace (bytes : List Byte) (i : Nat) (s : State) : (s.sendFrom bytes i).trace = s.trace := by
  unfold State.sendFrom
  split <;> rfl
@[simp] theorem State.sendFrom_isOpen (bytes : List Byte) (i : Nat) (s : State) : (s.sendFrom bytes i).seq.isOpen = s.seq.isOpen := by
  unfold State.sendFrom
  split <;> rfl
@[simp] theorem State.sendFrom_lastStatus (bytes : List Byte) (i : Nat) (s : State) : (s.sendFrom bytes i).seq.lastStatus = s.seq.lastStatus := by
  unfold State.sendFrom
  split <;> rfl
@[simp] theorem State.sendFrom_stream (bytes : List Byte) (i : Nat) (s : State) : (s.sendFrom bytes i).host.stream = s.host.stream := by
  unfold State.sendFrom
  split <;> rfl

@[simp] theorem State.recvFrom_cfg (n i : Nat) (s : State) : (s.recvFrom n i).cfg = s.cfg := by
  unfold State.recvFrom
  split <;> rfl
@[simp] theorem State.recvFrom_twi (n i : Nat) (s : State) : (s.recvFrom n i).twi = s.twi := by
  unfold State.recvFrom
  split <;> rfl
@[simp] theorem State.recvFrom_fb (n i : Nat) (s : State) : (s.recvFrom n i).fb = s.fb := by
  unfold State.recvFrom
  split <;> rfl
@[simp] theorem State.recvFrom_trace (n i : Nat) (s : State) : (s.recvFrom n i).trace = s.trace := by
  unfold State.recvFrom
  split <;> rfl
@[simp] theorem State.recvFrom_isOpen (n i : Nat) (s : State) : (s.recvFrom n i).seq.isOpen = s.seq.isOpen := by
  unfold State.recvFrom
  split <;> rfl
@[simp] theorem State.recvFrom_lastStatus (n i : Nat) (s : State) : (s.recvFrom n i).seq.lastStatus = s.seq.lastStatus := by
  unfold State.recvFrom
  split <;> rfl
@[simp] theorem State.recvFrom_stream (n i : Nat) (s : State) : (s.recvFrom n i).host.stream = s.host.stream := by
  unfold State.recvFrom
  split <;> rfl

@[simp] theorem State.txnNext_cfg (t : TxnFrame) (p : Prim) (v : List Byte) (s : State) : (s.txnNext t p v).cfg = s.cfg := by
  unfold State.txnNext
  split <;> simp
@[simp] theorem State.txnNext_twi (t : TxnFrame) (p : Prim) (v : List Byte) (s : State) : (s.txnNext t p v).twi = s.twi := by
  unfold State.txnNext
  split <;> simp
@[simp] theorem State.txnNext_fb (t : TxnFrame) (p : Prim) (v : List Byte) (s : State) : (s.txnNext t p v).fb = s.fb := by
  unfold State.txnNext
  split <;> simp
@[simp] theorem State.txnNext_trace (t : TxnFrame) (p : Prim) (v : List Byte) (s : State) : (s.txnNext t p v).trace = s.trace := by
  unfold State.txnNext
  split <;> simp
@[simp] theorem State.txnNext_isOpen (t : TxnFrame) (p : Prim) (v : List Byte) (s : State) : (s.txnNext t p v).seq.isOpen = s.seq.isOpen := by
  unfold State.txnNext
  split <;> simp
@[simp] theorem State.txnNext_lastStatus (t : TxnFrame) (p : Prim) (v : List Byte) (s : State) : (s.txnNext t p v).seq.lastStatus = s.seq.lastStatus := by
  unfold State.txnNext
  split <;> simp
@[simp] theorem State.txnNext_stream (t : TxnFrame) (p : Prim) (v : List Byte) (s : State) : (s.txnNext t p v).host.stream = s.host.stream := by
  unfold State.txnNext
  split <;> simp

@[simp] theorem State.release_cfg (t : TxnFrame) (e : BusError) (s : State) : (s.release t e).cfg = s.cfg := by
  unfold State.release
  split <;> simp
@[simp] theorem State.release_twi (t : TxnFrame) (e : BusError) (s : State) : (s.release t e).twi = s.twi := by
  unfold State.release
  split <;> simp
@[simp] theorem State.release_fb (t : TxnFrame) (e : BusError) (s : State) : (s.release t e).fb = s.fb := by
  unfold State.release
  split <;> simp
@[simp] theorem State.release_trace (t : TxnFrame) (e : BusError) (s : State) : (s.release t e).trace = s.trace := by
  unfold State.release
  split <;> simp
@[simp] theorem State.release_isOpen (t : TxnFrame) (e : BusError) (s : State) : (s.release t e).seq.isOpen = s.seq.isOpen := by
  unfold State.release
  split <;> simp
@[simp] theorem State.release_lastStatus (t : TxnFrame) (e : BusError) (s : State) : (s.release t e).seq.lastStatus = s.seq.lastStatus := by
  unfold State.release
  split <;> simp
@[simp] theorem State.release_stream (t : TxnFrame) (e : BusError) (s : State) : (s.release t e).host.stream = s.host.stream := by
  unfold State.release
  split <;> simp

@[simp] theorem State.primDone_cfg (p : Prim) (r : Except BusError (List Byte)) (s : State) : (s.primDone p r).cfg = s.cfg := by
  unfold State.primDone
  repeat' split
  all_goals simp
@[simp] theorem State.primDone_twi (p : Prim) (r : Except BusError (List Byte)) (s : State) : (s.primDone p r).twi = s.twi := by
  unfold State.primDone
  repeat' split
  all_goals simp
@[simp] theorem State.primDone_fb (p : Prim) (r : Except BusError (List Byte)) (s : State) : (s.primDone p r).fb = s.fb := by
  unfold State.primDone
  repeat' split
  all_goals simp
@[simp] theorem State.primDone_trace (p : Prim) (r : Except BusError (List Byte)) (s : State) : (s.primDone p r).trace = s.trace := by
  unfold State.primDone
  repeat' split
  all_goals simp
@[simp] theorem State.primDone_isOpen (p : Prim) (r : Except BusError (List Byte)) (s : State) : (s.primDone p r).seq.isOpen = s.seq.isOpen := by
  unfold State.primDone
  repeat' split
  all_goals simp
@[simp] theorem State.primDone_lastStatus (p : Prim) (r : Except BusError (List Byte)) (s : State) : (s.primDone p r).seq.lastStatus = s.seq.lastStatus := by
  unfold State.primDone
  repeat' split
  all_goals simp
@[simp] theorem State.primDone_stream (p : Prim) (r : Except BusError (List Byte)) (s : State) : (s.primDone p r).host.stream = s.host.stream := by
  unfold State.primDone
  repeat' split
  all_goals simp

@[simp] theorem State.afterWait_cfg (p : Prim) (s : State) : (s.afterWait p).cfg = s.cfg := by
  cases p <;> simp [State.afterWait]
@[simp] theorem State.afterWait_twi (p : Prim) (s : State) : (s.afterWait p).twi = s.twi := by
  cases p <;> simp [State.afterWait]
@[simp] theorem State.afterWait_fb (p : Prim) (s : State) : (s.afterWait p).fb = s.fb := by
  cases p <;> simp [State.afterWait]
@[simp] theorem State.afterWait_trace (p : Prim) (s : State) : (s.afterWait p).trace = s.trace := by
  cases p <;> simp [State.afterWait]
@[simp] theorem State.afterWait_isOpen (p : Prim) (s : State) : (s.afterWait p).seq.isOpen = s.seq.isOpen := by
  cases p <;> simp [State.afterWait]
@[simp] theorem State.afterWait_lastStatus (p : Prim) (s : State) : (s.afterWait p).seq.lastStatus = s.seq.lastStatus := by
  cases p <;> simp [State.afterWait]
@[simp] theorem State.afterWait_stream (p : Prim) (s : State) : (s.afterWait p).host.stream = s.host.stream := by
  cases p <;> simp [State.afterWait]

@[simp] theorem State.statusResult_cfg (p : Prim) (c : Byte) (s : State) : (s.statusResult p c).cfg = s.cfg := by
  cases p <;> simp only [State.statusResult] <;> (repeat' split) <;> simp
@[simp] theorem State.statusResult_twi (p : Prim) (c : Byte) (s : State) : (s.statusResult p c).twi = s.twi := by
  cases p <;> simp only [State.statusResult] <;> (repeat' split) <;> simp
@[simp] theorem State.statusResult_fb (p : Prim) (c : Byte) (s : State) : (s.statusResult p c).fb = s.fb := by
  cases p <;> simp only [State.statusResult] <;> (repeat' split) <;> simp
@[simp] theorem State.statusResult_trace (p : Prim) (c : Byte) (s : State) : (s.statusResult p c).trace = s.trace := by
  cases p <;> simp only [State.statusResult] <;> (repeat' split) <;> simp
@[simp] theorem State.statusResult_isOpen (p : Prim) (c : Byte) (s : State) : (s.statusResult p c).seq.isOpen = s.seq.isOpen := by
  cases p <;> simp only [State.statusResult] <;> (repeat' split) <;> simp
@[simp] theorem State.statusResult_lastStatus (p : Prim) (c : Byte) (s : State) : (s.statusResult p c).seq.lastStatus = s.seq.lastStatus := by
  cases p <;> simp only [State.statusResult] <;> (repeat' split) <;> simp
@[simp] theorem State.statusResult_stream (p : Prim) (c : Byte) (s : State) : (s.statusResult p c).host.stream = s.host.stream := by
  cases p <;> simp only [State.statusResult] <;> (repeat' split) <;> simp

@[simp] theorem State.startRead_cfg (a : Byte) (n : Nat) (s : State) : (s.startRead a n).cfg = s.cfg := by
  unfold State.startRead
  split <;> rfl
@[simp] theorem State.startRead_twi (a : Byte) (n : Nat) (s : State) : (s.startRead a n).twi = s.twi := by
  unfold State.startRead
  split <;> rfl
@[simp] theorem State.startRead_fb (a : Byte) (n : Nat) (s : State) : (s.startRead a n).fb = s.fb := by
  unfold State.startRead
  split <;> rfl
@[simp] theorem State.startRead_trace (a : Byte) (n : Nat) (s : State) : (s.startRead a n).trace = s.trace := by
  unfold State.startRead
  split <;> rfl
@[simp] theorem State.startRead_oracle (a : Byte) (n : Nat) (s : State) : (s.startRead a n).oracle = s.oracle := by
  unfold State.startRead
  split <;> rfl
@[simp] theorem State.startRead_host (a : Byte) (n : Nat) (s : State) : (s.startRead a n).host = s.host := by
  unfold State.startRead
  split <;> rfl
@[simp] theorem State.startRead_isOpen (a : Byte) (n : Nat) (s : State) : (s.startRead a n).seq.isOpen = s.seq.isOpen := by
  unfold State.startRead
  split <;> rfl
@[simp] theorem State.startRead_lastStatus (a : Byte) (n : Nat) (s : State) : (s.startRead a n).seq.lastStatus = s.seq.lastStatus := by
  unfold State.startRead
  split <;> rfl
@[simp] theorem State.startRead_seqBusy (a : Byte) (n : Nat) (s : State) : (s.startRead a n).seq.seqBusy = s.seq.seqBusy := by
  unfold State.startRead
  split <;> rfl
@[simp] theorem State.startRead_req (a : Byte) (n : Nat) (s : State) : (s.startRead a n).seq.req = s.seq.req := by
  unfold State.startRead
  split <;> rfl
@[simp] theorem State.startRead_resp (a : Byte) (n : Nat) (s : State) : (s.startRead a n).seq.resp = s.seq.resp := by
  unfold State.startRead
  split <;> rfl
/-- A read request has a next micro-step, whatever `n` (10_state.md R43). -/
theorem State.startRead_pos (a : Byte) (n : Nat) (s : State) : (s.startRead a n).seq.pos ≠ .idle := by
  unfold State.startRead
  split <;> simp [State.goto, State.startTxn, State.call]

@[simp] theorem State.startCommands_cfg (cs : List Byte) (s : State) : (s.startCommands cs).cfg = s.cfg := by
  cases cs <;> rfl
@[simp] theorem State.startCommands_twi (cs : List Byte) (s : State) : (s.startCommands cs).twi = s.twi := by
  cases cs <;> rfl
@[simp] theorem State.startCommands_fb (cs : List Byte) (s : State) : (s.startCommands cs).fb = s.fb := by
  cases cs <;> rfl
@[simp] theorem State.startCommands_trace (cs : List Byte) (s : State) : (s.startCommands cs).trace = s.trace := by
  cases cs <;> rfl
@[simp] theorem State.startCommands_oracle (cs : List Byte) (s : State) : (s.startCommands cs).oracle = s.oracle := by
  cases cs <;> rfl
@[simp] theorem State.startCommands_host (cs : List Byte) (s : State) : (s.startCommands cs).host = s.host := by
  cases cs <;> rfl
@[simp] theorem State.startCommands_isOpen (cs : List Byte) (s : State) : (s.startCommands cs).seq.isOpen = s.seq.isOpen := by
  cases cs <;> rfl
@[simp] theorem State.startCommands_lastStatus (cs : List Byte) (s : State) : (s.startCommands cs).seq.lastStatus = s.seq.lastStatus := by
  cases cs <;> rfl
@[simp] theorem State.startCommands_seqBusy (cs : List Byte) (s : State) : (s.startCommands cs).seq.seqBusy = s.seq.seqBusy := by
  cases cs <;> rfl
@[simp] theorem State.startCommands_req (cs : List Byte) (s : State) : (s.startCommands cs).seq.req = s.seq.req := by
  cases cs <;> rfl
@[simp] theorem State.startCommands_resp (cs : List Byte) (s : State) : (s.startCommands cs).seq.resp = s.seq.resp := by
  cases cs <;> rfl
/-- A display request has a next micro-step, whatever its commands (10_state.md R43). -/
theorem State.startCommands_pos (cs : List Byte) (s : State) : (s.startCommands cs).seq.pos ≠ .idle := by
  cases cs <;> simp [State.startCommands, State.goto, State.startJob, State.startTxn, State.call]
/-- A list of commands is made like the jobs a page of flush has left. -/
theorem State.startCommands_cons (b : Byte) (cs : List Byte) (s : State) :
    s.startCommands (b :: cs) =
      State.nextJob { s with seq := { s.seq with jobs := (b :: cs).map Job.cmd } } := rfl

end Sys2Proof.Machine
end

