-- ==== Sys2Proof/Laws/Ops.lean ====
section
/-! SUPPORT. What each shared operation can do: when it gives a next state, and which. -/

namespace Sys2Proof.Machine

/-! ### Outcomes -/

@[simp] theorem andThen_next (s : State) (f : State → Out) : andThen (.next s) f = f s := rfl
@[simp] theorem andThen_fault (r : Fault) (f : State → Out) : andThen (.fault r) f = .fault r := rfl
@[simp] theorem andThen_refused (r : Refusal) (f : State → Out) : andThen (.refused r) f = .refused r := rfl

/-- Going on gives a next state exactly where both parts do. -/
theorem andThen_eq_next {o : Out} {f : State → Out} {t : State} :
    andThen o f = .next t ↔ ∃ u, o = .next u ∧ f u = .next t := by
  cases o <;> simp [andThen]

/-- An outcome with a final local computation gives a next state exactly where the access does. -/
theorem andThen_map_eq_next {o : Out} {f : State → State} {t : State} :
    andThen o (fun u => .next (f u)) = .next t ↔ ∃ u, o = .next u ∧ t = f u := by
  cases o <;> simp [andThen, eq_comm]

/-- A final local computation adds no fault. -/
theorem andThen_map_eq_fault {o : Out} {f : State → State} {r : Fault} :
    andThen o (fun u => .next (f u)) = .fault r ↔ o = .fault r := by
  cases o <;> simp [andThen]

/-! ### The TWCR table (30_encoding.md R89) -/

/-- A byte on a line has the line's fixed bits (30_encoding.md R91). -/
theorem twcrLine_bits {l : TwcrLayout} {busy : Bool} {mode : Mode} {v : Byte} {line : TwcrLine}
    (h : twcrLine l busy mode v = line) : lineBits l line v = true := by
  subst h
  unfold twcrLine
  cases busy <;> cases hen : fieldEn l v <;> cases hint : fieldInt v <;> cases hsta : fieldSta v <;>
    cases hsto : fieldSto v <;> cases mode <;> cases hea : fieldEa v <;> simp_all [lineBits]

/-- What a TWCR write that is not refused does: a disable; a hold; or the launch of an operation that fits the engine's mode
(40_twi_unit.md R126-R137). -/
theorem State.writeTwcr_cases {s t : State} {v : Byte} (h : s.writeTwcr v = .next t) :
    (fieldEn s.cfg.layout v = false ∧ t = s.disable v) ∨
    (s.twi.op = none ∧ fieldEn s.cfg.layout v = true ∧ fieldInt v = false ∧ fieldSta v = false ∧ fieldSto v = false ∧
      t = s.hold v) ∨
    (∃ k, s.twi.op = none ∧ fieldEn s.cfg.layout v = true ∧ fieldInt v = true ∧ (fieldSto v = true ↔ k = .stop) ∧
      opModeOk (some k) s.twi.mode ∧ t = s.launch k v) := by
  unfold State.writeTwcr State.line twcrLine at h
  cases hen : fieldEn s.cfg.layout v
  · simp [hen, State.lineEffect] at h
    exact .inl ⟨rfl, h.symm⟩
  · refine .inr ?_
    cases hop : s.twi.op with
    | some k =>
      have hb : s.twi.busy = true := by simp [Twi.busy, hop]
      simp [hen, hb, State.lineEffect] at h
    | none =>
      have hb : s.twi.busy = false := by simp [Twi.busy, hop]
      cases hint : fieldInt v <;> cases hsta : fieldSta v <;> cases hsto : fieldSto v <;>
        simp [hen, hb, hint, hsta, hsto, State.lineEffect] at h
      · exact .inl ⟨rfl, rfl, rfl, rfl, rfl, h.symm⟩
      · refine .inr ?_
        cases hm : s.twi.mode <;> cases hea : fieldEa v <;> simp [hm, hea] at h
        all_goals exact ⟨_, rfl, rfl, rfl, by simp, by simp [opModeOk], h.symm⟩
      · exact .inr ⟨.stop, rfl, rfl, rfl, by simp, by simp [opModeOk], h.symm⟩
      · exact .inr ⟨.start, rfl, rfl, rfl, by simp, by simp [opModeOk], h.symm⟩

/-- A TWCR write never faults. -/
theorem State.writeTwcr_no_fault (s : State) (v : Byte) (r : Fault) : s.writeTwcr v ≠ .fault r := by
  unfold State.writeTwcr
  split <;> simp

/-- A TWCR write is refused with TWCR_UNMODELLED only (30_encoding.md R89). -/
theorem State.writeTwcr_refused {s : State} {v : Byte} {r : Refusal} (h : s.writeTwcr v = .refused r) :
    r = .twcrUnmodelled := by
  unfold State.writeTwcr at h
  split at h <;> simp_all

/-- A write on one of the refused lines is refused. -/
theorem State.writeTwcr_of_refuses {s : State} {v : Byte} (h : lineRefuses (s.line v) = true) :
    s.writeTwcr v = .refused .twcrUnmodelled := by
  unfold State.writeTwcr
  cases hl : s.line v <;> simp_all [lineRefuses, State.lineEffect]

/-! ### Host register accesses (20_memory.md R78) -/

theorem hostAccess_eq_next {s t : State} {o : Out} :
    hostAccess s o = .next t ↔ s.locked = false ∧ o = .next t := by
  unfold hostAccess
  cases s.locked <;> simp

@[simp] theorem hostAccess_free {s : State} {o : Out} (h : s.locked = false) : hostAccess s o = o := by
  simp [hostAccess, h]

theorem hostAccess_locked {s : State} {o : Out} (h : s.locked = true) : hostAccess s o = .refused .hostExclusive := by
  simp [hostAccess, h]

/-- A TWCR row on its own line is the write. -/
theorem hostTwcr_on_line {s : State} {line : TwcrLine} {v : Byte} (hf : s.locked = false) (h : s.line v = line) :
    hostTwcr line v s = s.writeTwcr v := by
  simp [hostTwcr, hf, h]

/-- A TWCR row that gives a next state is a TWCR write on its line. -/
theorem hostTwcr_eq_next {s t : State} {line : TwcrLine} {v : Byte} (h : hostTwcr line v s = .next t) :
    s.locked = false ∧ s.writeTwcr v = .next t := by
  obtain ⟨hf, h⟩ := hostAccess_eq_next.1 h
  refine ⟨hf, ?_⟩
  split at h
  · exact h
  · cases h

/-! ### Requests (60_exceptions.md R258) -/

theorem request_eq_next {i : Instr} {s t : State} {run : State → State} :
    request i s run = .next t ↔ s.seq.seqBusy = false ∧ t = run (s.issue i) := by
  unfold request
  cases s.seq.seqBusy <;> simp [eq_comm]

theorem pairedRequest_eq_next {i : Instr} {ok : Bool} {s t : State} {run : State → State} :
    pairedRequest i ok s run = .next t ↔ s.seq.seqBusy = false ∧ ok = true ∧ t = run (s.issue i) := by
  unfold pairedRequest
  cases s.seq.seqBusy <;> cases ok <;> simp [eq_comm]

/-- A display request, once accepted, goes on to its first command (43_display_commands.md R196). -/
theorem displayRequest_eq_next {i : Instr} {cmds : List Byte} {s t : State} :
    displayRequest i cmds s = .next t ↔ s.seq.seqBusy = false ∧ s.seq.isOpen = false ∧
      t = (s.issue i).startCommands cmds := by
  unfold displayRequest
  rw [pairedRequest_eq_next]
  simp

/-! ### Draws (00_scope.md R19) -/

/-- Where SLAVE_MAY_STALL is false, nothing stalls (40_twi_unit.md R130). -/
theorem State.drawStall_of_not_may {s : State} (h : s.cfg.slaveMayStall = false) : s.drawStall = (false, s.oracle) := by
  simp [State.drawStall, h]

/-- Where BUS_ERROR_POSSIBLE is false, no completion is a bus error (40_twi_unit.md R146). -/
theorem State.drawBusErr_of_not_possible {s : State} (h : s.cfg.busErrorPossible = false) :
    s.drawBusErr = (false, s.oracle) := by
  simp [State.drawBusErr, h]

/-- A draw of one kind leaves the answers of the other kinds. -/
@[simp] theorem Oracle.stall_busErrs (o : Oracle) : o.stall.2.busErrs = o.busErrs := rfl
@[simp] theorem Oracle.stall_delays (o : Oracle) : o.stall.2.delays = o.delays := rfl
@[simp] theorem Oracle.delay_stalls (o : Oracle) : o.delay.2.stalls = o.stalls := rfl
@[simp] theorem Oracle.delay_busErrs (o : Oracle) : o.delay.2.busErrs = o.busErrs := rfl
@[simp] theorem Oracle.busErr_stalls (o : Oracle) : o.busErr.2.stalls = o.stalls := rfl
@[simp] theorem Oracle.busErr_delays (o : Oracle) : o.busErr.2.delays = o.delays := rfl
@[simp] theorem Oracle.ack_stalls (o : Oracle) : o.ack.2.stalls = o.stalls := rfl
@[simp] theorem Oracle.ack_delays (o : Oracle) : o.ack.2.delays = o.delays := rfl
@[simp] theorem Oracle.ack_busErrs (o : Oracle) : o.ack.2.busErrs = o.busErrs := rfl
@[simp] theorem Oracle.rx_stalls (o : Oracle) : o.rx.2.stalls = o.stalls := rfl
@[simp] theorem Oracle.rx_delays (o : Oracle) : o.rx.2.delays = o.delays := rfl
@[simp] theorem Oracle.rx_busErrs (o : Oracle) : o.rx.2.busErrs = o.busErrs := rfl
@[simp] theorem Oracle.stall_acks (o : Oracle) : o.stall.2.acks = o.acks := rfl
@[simp] theorem Oracle.stall_rxs (o : Oracle) : o.stall.2.rxs = o.rxs := rfl
@[simp] theorem Oracle.delay_acks (o : Oracle) : o.delay.2.acks = o.acks := rfl
@[simp] theorem Oracle.delay_rxs (o : Oracle) : o.delay.2.rxs = o.rxs := rfl
@[simp] theorem Oracle.busErr_acks (o : Oracle) : o.busErr.2.acks = o.acks := rfl
@[simp] theorem Oracle.busErr_rxs (o : Oracle) : o.busErr.2.rxs = o.rxs := rfl
@[simp] theorem Oracle.ack_rxs (o : Oracle) : o.ack.2.rxs = o.rxs := rfl
@[simp] theorem Oracle.rx_acks (o : Oracle) : o.rx.2.acks = o.acks := rfl
@[simp] theorem State.drawStall_acks (s : State) : s.drawStall.2.acks = s.oracle.acks := by
  unfold State.drawStall; split <;> rfl
@[simp] theorem State.drawStall_rxs (s : State) : s.drawStall.2.rxs = s.oracle.rxs := by
  unfold State.drawStall; split <;> rfl
@[simp] theorem State.drawStall_busErrs (s : State) : s.drawStall.2.busErrs = s.oracle.busErrs := by
  unfold State.drawStall; split <;> rfl
@[simp] theorem State.drawBusErr_stalls (s : State) : s.drawBusErr.2.stalls = s.oracle.stalls := by
  unfold State.drawBusErr; split <;> rfl
@[simp] theorem State.drawBusErr_delays (s : State) : s.drawBusErr.2.delays = s.oracle.delays := by
  unfold State.drawBusErr; split <;> rfl
@[simp] theorem State.drawBusErr_acks (s : State) : s.drawBusErr.2.acks = s.oracle.acks := by
  unfold State.drawBusErr; split <;> rfl
@[simp] theorem State.drawBusErr_rxs (s : State) : s.drawBusErr.2.rxs = s.oracle.rxs := by
  unfold State.drawBusErr; split <;> rfl

/-- A scripted answer is the one given. -/
theorem Oracle.ack_of_cons {o : Oracle} {a : Ack} {rest : List Ack} (h : o.acks = a :: rest) :
    o.ack = (a, { o with acks := rest }) := by
  simp [Oracle.ack, draw, h]

theorem Oracle.rx_of_cons {o : Oracle} {r : Byte} {rest : List Byte} (h : o.rxs = r :: rest) :
    o.rx = (r, { o with rxs := rest }) := by
  simp [Oracle.rx, draw, h]

theorem Oracle.stall_of_cons {o : Oracle} {b : Bool} {rest : List Bool} (h : o.stalls = b :: rest) :
    o.stall = (b, { o with stalls := rest }) := by
  simp [Oracle.stall, draw, h]

end Sys2Proof.Machine
end

