-- ==== Sys2Proof/Laws/Step.lean ====
section
/-! SUPPORT. What a step of each agent can do: the sequencer's micro-step, the host's instruction, the engine's completion. -/

namespace Sys2Proof.Machine

/-! ### TWCR writes -/

/-- A TWCR write touches the TWI unit, the trace and the draws only. -/
theorem State.writeTwcr_frame {s t : State} {v : Byte} (h : s.writeTwcr v = .next t) :
    t.cfg = s.cfg ∧ t.seq = s.seq ∧ t.fb = s.fb ∧ t.host = s.host := by
  obtain ⟨-, rfl⟩ | ⟨-, -, -, -, -, rfl⟩ | ⟨k, -, -, -, -, -, rfl⟩ := State.writeTwcr_cases h <;> simp

/-! ### The sequencer -/

/-- What a micro-step of the sequencer does to the TWI unit and the trace: nothing; a TWDR write; or a TWCR write. -/
def BusAccess (s t : State) : Prop :=
  (t.twi = s.twi ∧ t.trace = s.trace) ∨
  (∃ b, t.twi = s.twi.writeTwdr b ∧ t.trace = s.trace) ∨
  (∃ v u, s.writeTwcr v = .next u ∧ t.twi = u.twi ∧ t.trace = u.trace)

/-- What a micro-step of the sequencer does to the frame buffer: nothing, or one drawPixel of FB_PIXEL or FB_LINE. -/
def DrawAccess (s t : State) : Prop :=
  t.fb = s.fb ∨
  ∃ x y on, t.fb = drawPixel s.cfg.width s.fb x y on ∧
    ((∃ x y on, s.seq.pos = .pixel x y on) ∨ (∃ x y on, s.seq.pos = .line x y on))

/-- The whole of what a micro-step of the sequencer does outside its own state. -/
structure SeqFrame (s t : State) : Prop where
  cfg : t.cfg = s.cfg
  isOpen : t.seq.isOpen = s.seq.isOpen
  stream : t.host.stream = s.host.stream
  bus : BusAccess s t
  draw : DrawAccess s t

/-- A local computation after no access. -/
theorem SeqFrame.of_local {s t : State} (h1 : t.cfg = s.cfg) (h2 : t.seq.isOpen = s.seq.isOpen)
    (h3 : t.host.stream = s.host.stream) (h4 : t.twi = s.twi) (h5 : t.trace = s.trace) (h6 : t.fb = s.fb) :
    SeqFrame s t := ⟨h1, h2, h3, .inl ⟨h4, h5⟩, .inl h6⟩

/-- A local computation after a TWCR write. -/
theorem SeqFrame.of_writeTwcr {s u t : State} {v : Byte} (h : s.writeTwcr v = .next u) (h1 : t.cfg = u.cfg)
    (h2 : t.seq.isOpen = u.seq.isOpen) (h3 : t.host.stream = u.host.stream) (h4 : t.twi = u.twi)
    (h5 : t.trace = u.trace) (h6 : t.fb = u.fb) : SeqFrame s t := by
  obtain ⟨e1, e2, e3, e4⟩ := State.writeTwcr_frame h
  exact ⟨by rw [h1, e1], by rw [h2, e2], by rw [h3, e4], .inr (.inr ⟨v, u, h, h4, h5⟩), .inl (by rw [h6, e3])⟩

theorem primWrite_frame {p : Prim} {s t : State} (h : primWrite p s = .next t) : SeqFrame s t := by
  cases p <;> simp only [primWrite, andThen_map_eq_next] at h
  case send b role =>
    cases h
    exact ⟨by simp, by simp, by simp, .inr (.inl ⟨b, rfl, by simp⟩), .inl (by simp)⟩
  all_goals
    obtain ⟨u, hu, rfl⟩ := h
    exact .of_writeTwcr hu (by simp) (by simp) (by simp) (by simp) (by simp) (by simp)

theorem primStep_frame {p : Prim} {ph : Phase} {s t : State} (h : primStep p ph s = .next t) : SeqFrame s t := by
  cases ph <;> simp only [primStep] at h
  case write => exact primWrite_frame h
  case launch =>
    obtain ⟨u, hu, rfl⟩ := andThen_map_eq_next.1 h
    exact .of_writeTwcr hu (by simp) (by simp) (by simp) (by simp) (by simp) (by simp)
  case recover =>
    obtain ⟨u, hu, rfl⟩ := andThen_map_eq_next.1 h
    exact .of_writeTwcr hu (by simp) (by simp) (by simp) (by simp) (by simp) (by simp)
  case check =>
    cases h
    unfold primCheck
    split <;> exact .of_local (by simp) (by simp) (by simp) (by simp) (by simp) (by simp)
  case poll =>
    cases h
    unfold primPoll
    split
    · exact .of_local (by simp) (by simp) (by simp) (by simp) (by simp) (by simp)
    · dsimp only
      split <;> exact .of_local (by simp) (by simp) (by simp) (by simp) (by simp) (by simp)
  case status =>
    cases h
    exact .of_local (by simp [primStatus]) (by simp [primStatus]) (by simp [primStatus]) (by simp [primStatus])
      (by simp [primStatus]) (by simp [primStatus])
  case data =>
    cases h
    exact .of_local (by simp [primData]) (by simp [primData]) (by simp [primData]) (by simp [primData])
      (by simp [primData]) (by simp [primData])

/-- What a micro-step of the sequencer does outside its own state. -/
theorem seqStep_frame {s t : State} (h : seqStep s = .next t) : SeqFrame s t := by
  unfold seqStep at h
  split at h
  · cases h
    exact .of_local rfl rfl rfl rfl rfl rfl
  · exact primStep_frame h
  · unfold gatherStep at h
    split at h
    · cases h
    · dsimp only at h
      split at h <;> cases h <;> exact .of_local (by simp) (by simp) (by simp) (by simp) (by simp) (by simp)
  · rename_i x y on hp
    cases h
    exact ⟨by simp [pixelStep], by simp [pixelStep], by simp [pixelStep], .inl ⟨by simp [pixelStep], by simp [pixelStep]⟩,
      .inr ⟨_, _, on, rfl, .inl ⟨x, y, on, hp⟩⟩⟩
  · rename_i x y on hp
    cases h
    unfold linePass
    dsimp only
    split <;>
      exact ⟨by simp, by simp, by simp, .inl ⟨by simp, by simp⟩, .inr ⟨_, _, on, by simp; rfl, .inr ⟨x, y, on, hp⟩⟩⟩
  · cases h
    exact .of_local (by simp) (by simp) (by simp) (by simp) (by simp) (by simp)

/-- The only fault of a micro-step is flush's read outside the buffer (20_memory.md R61). -/
theorem seqStep_fault {s : State} {r : Fault} (h : seqStep s = .fault r) :
    s.seq.pos = .gather ∧ s.cfg.bufSize ≤ s.seq.locals.p * s.cfg.width + s.seq.locals.i := by
  unfold seqStep at h
  split at h
  · cases h
  · rename_i p ph _
    exfalso
    cases ph <;> simp only [primStep] at h
    case write =>
      cases p <;> simp only [primWrite, andThen_map_eq_fault] at h
      all_goals first | cases h | exact State.writeTwcr_no_fault _ _ _ h
    case launch => exact State.writeTwcr_no_fault _ _ _ (andThen_map_eq_fault.1 h)
    case recover => exact State.writeTwcr_no_fault _ _ _ (andThen_map_eq_fault.1 h)
    all_goals cases h
  · rename_i hp
    refine ⟨hp, ?_⟩
    unfold gatherStep at h
    split at h
    · rename_i hm
      unfold State.memRead at hm
      split at hm
      · cases hm
      · omega
    · dsimp only at h
      split at h <;> cases h
  all_goals cases h

/-! ### The engine -/

/-- The parts no completion touches. -/
theorem complete_frame (s : State) :
    (complete s).cfg = s.cfg ∧ (complete s).seq = s.seq ∧ (complete s).fb = s.fb ∧ (complete s).host = s.host := by
  unfold complete
  split
  · simp
  all_goals try simp [completeStop]
  all_goals
    unfold orBusErr
    dsimp only
    split
    · simp [completeBusErr]
    · first
      | (unfold completeStart; split <;> simp [completeWith])
      | (unfold completeSla; dsimp only; split <;> simp [completeWith])
      | simp [completeTx, completeWith]
      | simp [completeRx, completeWith]

/-- A completion draws neither a stall nor a delay. -/
theorem complete_oracle (s : State) :
    (complete s).oracle.stalls = s.oracle.stalls ∧ (complete s).oracle.delays = s.oracle.delays := by
  unfold complete
  split
  · simp
  all_goals try simp [completeStop]
  all_goals
    unfold orBusErr
    dsimp only
    split
    · simp [completeBusErr]
    · first
      | (unfold completeStart; split <;> simp [completeWith])
      | (unfold completeSla; dsimp only; split <;> simp [completeWith])
      | simp [completeTx, completeWith]
      | simp [completeRx, completeWith]

/-- After a completion nothing is in flight. -/
theorem complete_op (s : State) : (complete s).twi.op = none := by
  unfold complete
  split
  · assumption
  all_goals try simp [completeStop]
  all_goals
    unfold orBusErr
    dsimp only
    split
    · simp [completeBusErr]
    · first
      | (unfold completeStart; split <;> simp [completeWith])
      | (unfold completeSla; dsimp only; split <;> simp [completeWith])
      | simp [completeTx, completeWith]
      | simp [completeRx, completeWith]

/-- The registers and bits no completion touches (40_twi_unit.md R141-R147). -/
theorem complete_twi (s : State) :
    (complete s).twi.twbr = s.twi.twbr ∧ (complete s).twi.twps = s.twi.twps ∧ (complete s).twi.twen = s.twi.twen ∧
    (complete s).twi.twea = s.twi.twea ∧ (complete s).twi.twsta = s.twi.twsta ∧ (complete s).twi.twwc = s.twi.twwc ∧
    (complete s).twi.twie = s.twi.twie ∧ (complete s).twi.stalled = s.twi.stalled ∧
    (s.twi.op ≠ some .stop → (complete s).twi.twsto = s.twi.twsto) ∧
    (s.twi.op ≠ some .rx → (complete s).twi.twdr = s.twi.twdr) := by
  unfold complete
  split <;> rename_i hop
  · simp
  all_goals try simp [completeStop, hop]
  all_goals
    unfold orBusErr
    dsimp only
    split
    · simp [completeBusErr]
    · first
      | (unfold completeStart; split <;> simp [completeWith])
      | (unfold completeSla; dsimp only; split <;> simp [completeWith])
      | simp [completeTx, completeWith]
      | simp [completeRx, completeWith]

/-- Every completion but STOP's sets TWINT (40_twi_unit.md R141-R147). -/
theorem complete_twint {s : State} (h : s.twi.op.isSome = true) (hs : s.twi.op ≠ some .stop) :
    (complete s).twi.twint = true := by
  unfold complete
  split <;> rename_i hop
  · simp [hop] at h
  · unfold orBusErr; dsimp only; split
    · rfl
    · unfold completeStart; split <;> rfl
  · unfold orBusErr; dsimp only; split
    · rfl
    · unfold completeSla; dsimp only; split <;> rfl
  · unfold orBusErr; dsimp only; split <;> rfl
  · unfold orBusErr; dsimp only; split <;> rfl
  · exact absurd hop hs

/-! ### The host -/

/-- An instruction taken off the stream was decoded from the head of it, and nothing else changed. -/
theorem fetch_instr {s u : State} {i : Instr} (h : fetch s = .instr i u) :
    ∃ b rest left, s.host.stream = b :: rest ∧ decode b.fmt s.decodeCtx b.bytes = .instr i left ∧
      u = s.withStream (streamAfter b left rest) := by
  unfold fetch at h
  split at h
  · cases h
  · rename_i b rest hs
    split at h
    · rename_i j left hd
      simp only [Fetched.instr.injEq] at h
      obtain ⟨rfl, rfl⟩ := h
      exact ⟨b, rest, left, hs, hd, rfl⟩
    · cases h
    · cases h

/-- An access to another block's address is taken off the stream, and nothing else changed (40_twi_unit.md R139). -/
theorem fetch_elsewhere {s u : State} (h : fetch s = .elsewhere u) : ∃ q, u = s.withStream q := by
  unfold fetch at h
  split at h
  · cases h
  · split at h
    · cases h
    · simp only [Fetched.elsewhere.injEq] at h
      exact ⟨_, h.symm⟩
    · cases h

/-! ### A step -/

/-- A step is one step of one agent. -/
theorem step_cases {s t : State} (h : step s = .next t) :
    (nextAgent s = .engine ∧ t = complete s) ∨
    (nextAgent s = .sequencer ∧ seqStep s.tick = .next t) ∨
    (nextAgent s = .host ∧
      ((fetch s.tick = .nothing ∧ t = s.tick) ∨ (∃ i u, fetch s.tick = .instr i u ∧ exec i u = .next t) ∨
        fetch s.tick = .elsewhere t)) := by
  unfold step at h
  split at h
  · rename_i ha
    cases h
    exact .inl ⟨ha, rfl⟩
  · rename_i ha
    exact .inr (.inl ⟨ha, h⟩)
  · rename_i ha
    refine .inr (.inr ⟨ha, ?_⟩)
    unfold hostStep at h
    split at h
    · rename_i hf
      cases h
      exact .inl ⟨hf, rfl⟩
    · rename_i i u hf
      exact .inr (.inl ⟨i, u, hf, h⟩)
    · rename_i u hf
      cases h
      exact .inr (.inr hf)
    · cases h

/-- The engine moves only while an operation runs and is due. -/
theorem nextAgent_engine {s : State} (h : nextAgent s = .engine) : s.running = true ∧ s.twi.delay = 0 := by
  unfold nextAgent at h
  split at h
  · cases h
  · split at h
    · rename_i hr
      simpa using hr
    · split at h <;> cases h

/-- The sequencer moves only while a request runs. -/
theorem nextAgent_sequencer {s : State} (h : nextAgent s = .sequencer) : s.seq.seqBusy = true := by
  unfold nextAgent at h
  split at h
  · cases h
  · split at h
    · cases h
    · split at h
      · assumption
      · cases h

end Sys2Proof.Machine
end

