-- ==== Sys2Proof/Laws/Exec.lean ====
section
/-! SUPPORT. What an instruction of the host can do: a register access, or the issue of a request. -/

namespace Sys2Proof.Machine

/-- What a host register access does to the block: nothing (a read); a write of TWBR, TWSR or TWDR; a TWCR write. -/
def AccessEffect (s t : State) : Prop :=
  (t.twi = s.twi ∧ t.trace = s.trace) ∨
  (∃ v, t.twi = { s.twi with twbr := v } ∧ t.trace = s.trace) ∨
  (∃ v, t.twi = s.twi.writeTwsr v ∧ t.trace = s.trace) ∨
  (∃ v, t.twi = s.twi.writeTwdr v ∧ t.trace = s.trace) ∨
  (∃ v, s.writeTwcr v = .next t)

/-- The whole of what a host register access does. -/
structure AccessFrame (s t : State) : Prop where
  unlocked : s.locked = false
  cfg : t.cfg = s.cfg
  seq : t.seq = s.seq
  fb : t.fb = s.fb
  stream : t.host.stream = s.host.stream
  effect : AccessEffect s t

theorem AccessFrame.of_hostRead {s t : State} {r : Byte × State} (hr : r.2.cfg = s.cfg ∧ r.2.seq = s.seq ∧ r.2.fb = s.fb ∧
    r.2.host = s.host ∧ r.2.twi = s.twi ∧ r.2.trace = s.trace) (h : hostRead s r = .next t) : AccessFrame s t := by
  obtain ⟨hf, h⟩ := hostAccess_eq_next.1 h
  cases h
  obtain ⟨h1, h2, h3, h4, h5, h6⟩ := hr
  exact ⟨hf, by simp [h1], by simp [h2], by simp [h3], by simp [h4], .inl ⟨by simp [h5], by simp [h6]⟩⟩

theorem AccessFrame.of_hostTwcr {s t : State} {line : TwcrLine} {v : Byte} (h : hostTwcr line v s = .next t) :
    AccessFrame s t := by
  obtain ⟨hf, h⟩ := hostTwcr_eq_next h
  obtain ⟨h1, h2, h3, h4⟩ := State.writeTwcr_frame h
  exact ⟨hf, h1, h2, h3, by rw [h4], .inr (.inr (.inr (.inr ⟨v, h⟩)))⟩

/-- What a host register access does. -/
theorem exec_access {i : Instr} {s t : State} (hi : formatOf i = .access) (h : exec i s = .next t) :
    AccessFrame s t := by
  cases i <;> simp only [formatOf, reduceCtorEq] at hi <;> simp only [exec] at h
  case rdTwbr => exact .of_hostRead (by simp) h
  case rdTwsr => exact .of_hostRead (by simp) h
  case rdTwdr => exact .of_hostRead (by simp) h
  case rdTwcr => exact .of_hostRead (by simp) h
  case wrTwbr v =>
    obtain ⟨hf, h⟩ := hostAccess_eq_next.1 h
    cases h
    exact ⟨hf, rfl, rfl, rfl, rfl, .inr (.inl ⟨v, rfl, rfl⟩)⟩
  case wrTwsr v =>
    obtain ⟨hf, h⟩ := hostAccess_eq_next.1 h
    cases h
    exact ⟨hf, rfl, rfl, rfl, rfl, .inr (.inr (.inl ⟨v, rfl, rfl⟩))⟩
  case wrTwdr v =>
    obtain ⟨hf, h⟩ := hostAccess_eq_next.1 h
    cases h
    exact ⟨hf, rfl, rfl, rfl, rfl, .inr (.inr (.inr (.inl ⟨v, rfl, rfl⟩)))⟩
  all_goals first
    | exact .of_hostTwcr h
    | (obtain ⟨-, h⟩ := hostAccess_eq_next.1 h; cases h)

/-- The whole of what the issue of a request does: the request is in progress, with a next micro-step (10_state.md R43), and
nothing outside the sequencer's own state changes. -/
structure IssueFrame (i : Instr) (s t : State) : Prop where
  notBusy : s.seq.seqBusy = false
  cfg : t.cfg = s.cfg
  twi : t.twi = s.twi
  fb : t.fb = s.fb
  trace : t.trace = s.trace
  oracle : t.oracle = s.oracle
  host : t.host = s.host
  lastStatus : t.seq.lastStatus = s.seq.lastStatus
  resp : t.seq.resp = s.seq.resp
  seqBusy : t.seq.seqBusy = true
  req : t.seq.req = some i
  pos : t.seq.pos ≠ .idle
  isOpen : t.seq.isOpen = if i = .busStart then true else if i = .busStop then false else s.seq.isOpen

/-- What the issue of a request does. -/
theorem exec_request {i : Instr} {s t : State} (hi : formatOf i ≠ .access) (h : exec i s = .next t) :
    IssueFrame i s t := by
  cases i <;> simp only [formatOf, ne_eq, not_true_eq_false] at hi <;> simp only [exec] at h
  case dispSetPage p =>
    unfold execDispSetPage at h
    split at h
    · cases h
    · obtain ⟨hb, -, rfl⟩ := displayRequest_eq_next.1 h
      constructor <;> first | exact hb | rfl | exact State.startCommands_pos _ _
  case busStop | fbPixel | fbLine =>
    obtain ⟨hb, rfl⟩ := request_eq_next.1 h
    constructor <;> first | exact hb | rfl | (intro h; cases h)
  all_goals
    obtain ⟨hb, -, rfl⟩ := pairedRequest_eq_next.1 h
    constructor <;>
      first | exact hb | rfl | exact State.startCommands_pos _ _ | exact State.startRead_pos _ _ _ | (intro h; cases h) | simp

/-- An accepted request finds no request in progress (60_exceptions.md R258, SEQ_BUSY). -/
theorem accepted_notBusy {i : Instr} {s : State} (h : accepted i s = true) : s.seq.seqBusy = false := by
  simpa using (Bool.and_eq_true_iff.1 h).1

/-- The instructions that send a byte on their own are those that run a raw sendByte (41_bus_primitives.md R165; log 12). -/
theorem EverySend.of_rawSend {P : Instr → Byte → Role → Prop} (s : State)
    (h : ∀ i b role, exec i s = rawSend i b (Role.sendRole role) s → P i b role) : EverySend P := by
  have e : ∀ adr : BitVec 7, slaByte (adr.setWidth 8) false = adr ++ 0#1 ∧ slaByte (adr.setWidth 8) true = adr ++ 1#1 := by
    decide
  refine ⟨fun b role => h _ _ _ rfl, h _ _ _ rfl, h _ _ _ rfl, fun adr => ⟨?_, ?_⟩⟩
  · rw [← (e adr).1]
    exact h _ _ _ rfl
  · rw [← (e adr).2]
    exact h _ _ _ rfl

/-- No instruction of the host faults. -/
theorem exec_no_fault (i : Instr) (s : State) (r : Fault) : exec i s ≠ .fault r := by
  have ha : ∀ o : Out, o ≠ .fault r → hostAccess s o ≠ .fault r := by
    intro o ho
    unfold hostAccess
    split <;> simp_all
  have ht : ∀ line v, hostTwcr line v s ≠ .fault r := by
    intro line v
    refine ha _ ?_
    split
    · exact State.writeTwcr_no_fault _ _ _
    · simp
  have hp : ∀ i ok run, pairedRequest i ok s run ≠ .fault r := by
    intro i ok run
    unfold pairedRequest
    split
    · simp
    · split <;> simp
  have hd : ∀ i cmds, displayRequest i cmds s ≠ .fault r := fun i cmds => hp _ _ _
  have hq : ∀ i run, request i s run ≠ .fault r := by
    intro i run
    unfold request
    split <;> simp
  cases i <;> simp only [exec]
  case dispSetPage p =>
    unfold execDispSetPage
    split
    · simp
    · exact hd _ _
  all_goals first
    | exact ht _ _
    | exact ha _ (by simp)
    | exact hq _ _
    | exact hp _ _ _

/-! ### When each request is accepted -/

@[simp] theorem accepted_busStart (s : State) :
    accepted .busStart s = (!s.seq.seqBusy && !s.seq.isOpen) := rfl
@[simp] theorem accepted_busStop (s : State) :
    accepted .busStop s = (!s.seq.seqBusy && true) := rfl
@[simp] theorem accepted_busSend (s : State) (data : Byte) (role : Role) :
    accepted (.busSend data role) s = (!s.seq.seqBusy && s.seq.isOpen) := rfl
@[simp] theorem accepted_busRecv (s : State) (ack : Bool) :
    accepted (.busRecv ack) s = (!s.seq.seqBusy && (s.seq.isOpen && (s.seq.lastStatus == 0x40#8 || s.seq.lastStatus == 0x50#8))) := rfl
@[simp] theorem accepted_writeTxn (s : State) (a : Byte) (bytes : List Byte) :
    accepted (.writeTxn a bytes) s = (!s.seq.seqBusy && !s.seq.isOpen) := rfl
@[simp] theorem accepted_readTxn (s : State) (a : Byte) (n : Byte) :
    accepted (.readTxn a n) s = (!s.seq.seqBusy && !s.seq.isOpen) := rfl
@[simp] theorem accepted_dispInit (s : State) :
    accepted .dispInit s = (!s.seq.seqBusy && !s.seq.isOpen) := rfl
@[simp] theorem accepted_dispCmd (s : State) (b : Byte) :
    accepted (.dispCmd b) s = (!s.seq.seqBusy && !s.seq.isOpen) := rfl
@[simp] theorem accepted_dispSetCol (s : State) (first : Byte) (last : Byte) :
    accepted (.dispSetCol first last) s = (!s.seq.seqBusy && !s.seq.isOpen) := rfl
@[simp] theorem accepted_dispSetPage (s : State) (p : Byte) :
    accepted (.dispSetPage p) s = (!s.seq.seqBusy && !s.seq.isOpen) := rfl
@[simp] theorem accepted_dispFlush (s : State) :
    accepted .dispFlush s = (!s.seq.seqBusy && !s.seq.isOpen) := rfl
@[simp] theorem accepted_fbPixel (s : State) (x : Byte) (y : Byte) (on : Bool) :
    accepted (.fbPixel x y on) s = (!s.seq.seqBusy && true) := rfl
@[simp] theorem accepted_fbLine (s : State) (x0 : Byte) (y0 : Byte) (x1 : Byte) (y1 : Byte) (on : Bool) :
    accepted (.fbLine x0 y0 x1 y1 on) s = (!s.seq.seqBusy && true) := rfl
@[simp] theorem accepted_displayOff (s : State) :
    accepted .displayOff s = (!s.seq.seqBusy && !s.seq.isOpen) := rfl
@[simp] theorem accepted_displayOn (s : State) :
    accepted .displayOn s = (!s.seq.seqBusy && !s.seq.isOpen) := rfl
@[simp] theorem accepted_setContrast (s : State) (c : Byte) :
    accepted (.setContrast c) s = (!s.seq.seqBusy && !s.seq.isOpen) := rfl
@[simp] theorem accepted_setColumnWindow (s : State) (first : Byte) (last : Byte) :
    accepted (.setColumnWindow first last) s = (!s.seq.seqBusy && !s.seq.isOpen) := rfl
@[simp] theorem accepted_setPageStart (s : State) (p : BitVec 3) :
    accepted (.setPageStart p) s = (!s.seq.seqBusy && !s.seq.isOpen) := rfl
@[simp] theorem accepted_setLowerCol (s : State) (n : BitVec 4) :
    accepted (.setLowerCol n) s = (!s.seq.seqBusy && !s.seq.isOpen) := rfl
@[simp] theorem accepted_setUpperCol (s : State) (n : BitVec 4) :
    accepted (.setUpperCol n) s = (!s.seq.seqBusy && !s.seq.isOpen) := rfl
@[simp] theorem accepted_setStartLine (s : State) (l : BitVec 6) :
    accepted (.setStartLine l) s = (!s.seq.seqBusy && !s.seq.isOpen) := rfl
@[simp] theorem accepted_setAddrMode (s : State) (m : Byte) :
    accepted (.setAddrMode m) s = (!s.seq.seqBusy && !s.seq.isOpen) := rfl
@[simp] theorem accepted_ctrlCmd (s : State) :
    accepted .ctrlCmd s = (!s.seq.seqBusy && s.seq.isOpen) := rfl
@[simp] theorem accepted_ctrlData (s : State) :
    accepted .ctrlData s = (!s.seq.seqBusy && s.seq.isOpen) := rfl
@[simp] theorem accepted_slaW (s : State) (a : BitVec 7) :
    accepted (.slaW a) s = (!s.seq.seqBusy && s.seq.isOpen) := rfl
@[simp] theorem accepted_slaR (s : State) (a : BitVec 7) :
    accepted (.slaR a) s = (!s.seq.seqBusy && s.seq.isOpen) := rfl

end Sys2Proof.Machine
end

