-- ==== Sys2Proof/Laws/Run.lean ====
section
/-! SUPPORT. Runs, and what a run of one bus primitive does: the wait ends with the completion, whatever the drawn delay. -/

namespace Sys2Proof.Machine

/-! ### Runs -/

@[simp] theorem run_zero (s : State) : run 0 s = .next s := rfl

theorem run_succ (k : Nat) (s : State) : run (k + 1) s = andThen (step s) (run k) := rfl

theorem run_succ_of_step {k : Nat} {s u : State} (h : step s = .next u) : run (k + 1) s = run k u := by
  rw [run_succ, h, andThen_next]

/-- A run of `m + n` steps is a run of `m` and then one of `n`. -/
theorem run_add (m n : Nat) (s : State) : run (m + n) s = andThen (run m s) (run n) := by
  induction m generalizing s with
  | zero => simp
  | succ m ih =>
    rw [Nat.add_right_comm, run_succ, run_succ]
    cases step s <;> simp [ih]

theorem Reaches.refl (s : State) : Reaches s s := ⟨0, rfl⟩

theorem Reaches.of_step {s t : State} (h : step s = .next t) : Reaches s t := ⟨1, by simp [run_succ, h]⟩

theorem Reaches.trans {s t u : State} (h1 : Reaches s t) (h2 : Reaches t u) : Reaches s u := by
  obtain ⟨m, hm⟩ := h1
  obtain ⟨n, hn⟩ := h2
  exact ⟨m + n, by rw [run_add, hm, andThen_next, hn]⟩

theorem Reaches.head {s t u : State} (h1 : step s = .next t) (h2 : Reaches t u) : Reaches s u :=
  (Reaches.of_step h1).trans h2

/-- What one step cannot change, no run changes. -/
theorem run_induction {P : State → Prop} (hstep : ∀ s t, P s → step s = .next t → P t) {k : Nat} {s t : State}
    (hs : P s) (h : run k s = .next t) : P t := by
  induction k generalizing s with
  | zero => cases h; exact hs
  | succ k ih =>
    rw [run_succ, andThen_eq_next] at h
    obtain ⟨u, hu, h⟩ := h
    exact ih (hstep s u hs hu) h

/-! ### Whose step it is -/

theorem State.hostEager_congr {s t : State} (h : t.host.stream = s.host.stream) : t.hostEager = s.hostEager := by
  simp [State.hostEager, h]

/-- With nothing in flight and a request in progress, the step is the sequencer's. -/
theorem step_sequencer {s : State} (he : s.hostEager = false) (hb : s.seq.seqBusy = true) (ho : s.twi.op = none) :
    step s = seqStep s := by
  have hr : s.running = false := by simp [State.running, Twi.busy, ho]
  simp [step, nextAgent, he, hr, hb, State.tick_of_not_running hr]

/-- A step of the sequencer while nothing is due to complete: the operation in flight, if any, stalls. -/
theorem step_sequencer_stalled {s : State} (he : s.hostEager = false) (hb : s.seq.seqBusy = true)
    (hr : s.running = false) : step s = seqStep s := by
  simp [step, nextAgent, he, hr, hb, State.tick_of_not_running hr]

/-- With nothing in flight, a micro-step of a primitive. -/
theorem step_prim {s : State} {p : Prim} {ph : Phase} (he : s.hostEager = false) (hb : s.seq.seqBusy = true)
    (ho : s.twi.op = none) (hp : s.seq.pos = .prim p ph) : step s = primStep p ph s := by
  rw [step_sequencer he hb ho, seqStep, hp]

/-- A request with nothing to send responds in its one micro-step (log 20). -/
theorem step_done {s : State} (he : s.hostEager = false) (hb : s.seq.seqBusy = true) (hr : s.running = false)
    (hp : s.seq.pos = .done) : step s = .next (s.respond (.ok [])) := by
  rw [step_sequencer_stalled he hb hr, seqStep, hp]

/-! ### The wait (41_bus_primitives.md R161) -/

/-- A number of steps after which a completion comes within POLL_LIMIT reads (41_bus_primitives.md R161). -/
def State.inTime (d : Nat) (s : State) : Prop := ∀ l, s.cfg.pollLimit = some l → d < l

/-- The next launch does not stall, its completion comes within POLL_LIMIT reads, and the host waits. -/
structure State.LaunchEnds (s : State) : Prop where
  eager : s.hostEager = false
  stall : s.drawStall.1 = false
  inTime : s.inTime s.drawStall.2.delay.1

theorem State.waitsEnd.launchEnds {s : State} (h : s.waitsEnd) : s.LaunchEnds :=
  ⟨h.2.2, by rw [State.drawStall_of_not_may h.2.1], fun l hl => by rw [h.1] at hl; cases hl⟩

/-- The operation in flight is due, and the wait has read its condition `n` times. -/
def State.due (n : Nat) (s : State) : State :=
  { s with twi := { s.twi with delay := 0 }, seq := { s.seq with polls := n } }

@[simp] theorem State.tick_twcr (s : State) : s.tick.twcr = s.twcr := by
  unfold State.tick; split <;> rfl

/-- A wait on an operation that does not stall, and comes within POLL_LIMIT reads, reaches its completion. -/
theorem reaches_complete {s : State} {p : Prim} (he : s.hostEager = false) (hb : s.seq.seqBusy = true)
    (hp : s.seq.pos = .prim p .poll) (hr : s.running = true) (hc : waitCond p s.twcr = false)
    (hl : s.inTime (s.seq.polls + s.twi.delay)) :
    ∃ n, Reaches s (complete (s.due n)) := by
  generalize hd : s.twi.delay = d
  induction d generalizing s with
  | zero =>
    refine ⟨s.seq.polls, .of_step ?_⟩
    have : s.due s.seq.polls = s := by
      have : s.twi = { s.twi with delay := 0 } := by rw [← hd]
      unfold State.due
      rw [← this]
    rw [this]
    simp [step, nextAgent, he, hr, hd]
  | succ d ih =>
    have ht : s.tick = { s with twi := { s.twi with delay := d } } := by simp [State.tick, hr, hd]
    have hstep : step s = .next { s.tick with seq := { s.seq with polls := s.seq.polls + 1 } } := by
      have hn : nextAgent s = .sequencer := by simp [nextAgent, he, hr, hd, hb]
      have hlim : limitReached s.cfg.pollLimit (s.seq.polls + 1) = false := by
        unfold limitReached
        split
        · rfl
        · rename_i l h
          have := hl l h
          simp
          omega
      simp [step, hn, seqStep, hp, primStep, primPoll, hc, hlim]
    rw [ht] at hstep
    obtain ⟨n, hn⟩ := ih (s := { s with twi := { s.twi with delay := d }, seq := { s.seq with polls := s.seq.polls + 1 } })
      he hb hp (by simpa [State.running] using hr) (by simpa [State.twcr, Twi.twcr] using hc)
      (fun l h => by have := hl l h; simp; omega) rfl
    exact ⟨n, .head hstep (by simpa [State.due] using hn)⟩

/-- A bounded wait on an operation that stalls reaches the recovery write after POLL_LIMIT reads (41_bus_primitives.md R161). -/
theorem reaches_recover {s : State} {p : Prim} {l : Nat} (he : s.hostEager = false) (hb : s.seq.seqBusy = true)
    (hp : s.seq.pos = .prim p .poll) (hr : s.running = false) (hc : waitCond p s.twcr = false)
    (hl : s.cfg.pollLimit = some l) (hn : s.seq.polls < l) :
    Reaches s { s with seq := { s.seq with polls := l, pos := .prim p .recover } } := by
  generalize hd : l - s.seq.polls = d
  induction d generalizing s with
  | zero => omega
  | succ d ih =>
    have hstep : step s = .next (primPoll p s) := by
      rw [step_sequencer_stalled he hb hr, seqStep, hp]; rfl
    simp only [primPoll, hc, Bool.false_eq_true, if_false, hl, limitReached, decide_eq_true_eq] at hstep
    by_cases hlast : l ≤ s.seq.polls + 1
    · rw [if_pos hlast] at hstep
      have : s.seq.polls + 1 = l := by omega
      rw [this] at hstep
      exact .of_step hstep
    · rw [if_neg hlast] at hstep
      exact .head hstep (ih (s := { s with seq := { s.seq with polls := s.seq.polls + 1 } }) he hb hp hr hc hl
        (by simp; omega) (by simp; omega))

/-- The unit after operation `k`, launched by a write of `v` at primitive `p`, has completed. -/
def State.finish (k : Op) (v : Byte) (p : Prim) (n : Nat) (s : State) : State :=
  complete (((s.launch k v).beginWait p).due n)

/-- What a completion leaves of the sequencer's state, and of everything it does not own. -/
theorem State.finish_frame (k : Op) (v : Byte) (p : Prim) (n : Nat) (s : State) :
    (s.finish k v p n).cfg = s.cfg ∧ (s.finish k v p n).fb = s.fb ∧ (s.finish k v p n).host = s.host ∧
    (s.finish k v p n).seq = { s.seq with polls := n, pos := .prim p .poll } ∧ (s.finish k v p n).twi.op = none := by
  obtain ⟨h1, h2, h3, h4⟩ := complete_frame (((s.launch k v).beginWait p).due n)
  exact ⟨h1, h3, h4, h2, complete_op _⟩

/-- A completion leaves the answers to a launch's draws as the launch left them. -/
theorem State.finish_oracle (k : Op) (v : Byte) (p : Prim) (n : Nat) (s : State) :
    (s.finish k v p n).oracle.stalls = s.drawStall.2.stalls ∧
    (s.finish k v p n).oracle.delays = s.drawStall.2.delay.2.delays :=
  complete_oracle (((s.launch k v).beginWait p).due n)

/-- The bits after the completion of a launch: those the write gave. -/
theorem State.finish_twi (k : Op) (v : Byte) (p : Prim) (n : Nat) (s : State) :
    (s.finish k v p n).twi.twbr = s.twi.twbr ∧ (s.finish k v p n).twi.twps = s.twi.twps ∧
    (s.finish k v p n).twi.twen = fieldEn s.cfg.layout v ∧ (s.finish k v p n).twi.twea = fieldEa v ∧
    (s.finish k v p n).twi.twsta = fieldSta v ∧ (s.finish k v p n).twi.twwc = s.twi.twwc ∧
    (k ≠ .stop → (s.finish k v p n).twi.twsto = fieldSto v ∧ (s.finish k v p n).twi.twint = true) ∧
    (k ≠ .rx → (s.finish k v p n).twi.twdr = s.twi.twdr) := by
  obtain ⟨h1, h2, h3, h4, h5, h6, -, -, h9, h10⟩ := complete_twi (((s.launch k v).beginWait p).due n)
  exact ⟨h1, h2, h3, h4, h5, h6,
    fun hk => ⟨h9 (by simpa [State.due, State.beginWait, State.launch] using hk),
      complete_twint rfl (by simpa [State.due, State.beginWait, State.launch] using hk)⟩,
    fun hk => h10 (by simpa [State.due, State.beginWait, State.launch] using hk)⟩

/-- A primitive that has launched its operation reaches what follows its wait. -/
theorem reaches_afterWait {s : State} {p : Prim} {k : Op} {v : Byte} (hw : s.LaunchEnds) (hb : s.seq.seqBusy = true)
    (hc : waitCond p (s.launch k v).twcr = false) (hd : ∀ n, waitCond p (s.finish k v p n).twcr = true) :
    ∃ n, Reaches ((s.launch k v).beginWait p) ((s.finish k v p n).afterWait p) := by
  obtain ⟨n, hn⟩ := reaches_complete (s := (s.launch k v).beginWait p) (p := p) hw.eager hb rfl
    (by simp [State.running, State.launch, hw.stall, Twi.busy]) hc
    (fun l hl => by have := hw.inTime l hl; simpa [State.beginWait, State.launch] using this)
  obtain ⟨f1, f2, f3, f4, f5⟩ := s.finish_frame k v p n
  refine ⟨n, hn.trans (.of_step ?_)⟩
  change step (s.finish k v p n) = _
  rw [step_prim (p := p) (ph := .poll) (by rw [State.hostEager_congr (s := s) (by rw [f3])]; exact hw.eager) (by rw [f4]; exact hb) f5
    (by rw [f4])]
  simp [primStep, primPoll, hd n]

end Sys2Proof.Machine
end

