-- ==== Sys2Proof/Laws/Prim.lean ====
section
/-! SUPPORT. What a run of each bus primitive does (41_bus_primitives.md R163-R166), for every answer of the slave and with or
without a bus error, where every wait ends. -/

namespace Sys2Proof.Machine

/-! ### The command words (30_encoding.md R90) -/

theorem writeTwcr_cmdStart {s : State} (ho : s.twi.op = none) :
    s.writeTwcr (cmdStart s.cfg.layout) = .next (s.launch .start (cmdStart s.cfg.layout)) := by
  have hl : s.line (cmdStart s.cfg.layout) = .start := by
    cases h : s.cfg.layout <;> simp [State.line, twcrLine, Twi.busy, ho, h, cmdStart, fieldEn, fieldInt, fieldSta, fieldSto]
  simp [State.writeTwcr, hl, State.lineEffect]

theorem writeTwcr_cmdStop {s : State} (ho : s.twi.op = none) :
    s.writeTwcr (cmdStop s.cfg.layout) = .next (s.launch .stop (cmdStop s.cfg.layout)) := by
  have hl : s.line (cmdStop s.cfg.layout) = .stop := by
    cases h : s.cfg.layout <;> simp [State.line, twcrLine, Twi.busy, ho, h, cmdStop, fieldEn, fieldInt, fieldSta, fieldSto]
  simp [State.writeTwcr, hl, State.lineEffect]

theorem writeTwcr_cmdTx_sla {s : State} (ho : s.twi.op = none) (hm : s.twi.mode = .afterStart) :
    s.writeTwcr (cmdTx s.cfg.layout) = .next (s.launch .sla (cmdTx s.cfg.layout)) := by
  have hl : s.line (cmdTx s.cfg.layout) = .sla := by
    cases h : s.cfg.layout <;> simp [State.line, twcrLine, Twi.busy, ho, h, hm, cmdTx, fieldEn, fieldInt, fieldSta, fieldSto]
  simp [State.writeTwcr, hl, State.lineEffect]

theorem writeTwcr_cmdTx_tx {s : State} (ho : s.twi.op = none) (hm : s.twi.mode = .mt) :
    s.writeTwcr (cmdTx s.cfg.layout) = .next (s.launch .tx (cmdTx s.cfg.layout)) := by
  have hl : s.line (cmdTx s.cfg.layout) = .tx := by
    cases h : s.cfg.layout <;> simp [State.line, twcrLine, Twi.busy, ho, h, hm, cmdTx, fieldEn, fieldInt, fieldSta, fieldSto]
  simp [State.writeTwcr, hl, State.lineEffect]

/-- receiveByte's command word (41_bus_primitives.md R166). -/
def cmdRx (l : TwcrLayout) (ack : Bool) : Byte := if ack then cmdRxAck l else cmdRxNack l

theorem writeTwcr_cmdRx {s : State} {ack : Bool} (ho : s.twi.op = none) (hm : s.twi.mode = .mr) :
    s.writeTwcr (cmdRx s.cfg.layout ack) = .next (s.launch .rx (cmdRx s.cfg.layout ack)) := by
  cases ack
  · have hl : s.line (cmdRx s.cfg.layout false) = .rxNack := by
      cases h : s.cfg.layout <;>
        simp [State.line, twcrLine, Twi.busy, ho, h, hm, cmdRx, cmdRxNack, fieldEn, fieldInt, fieldSta, fieldSto, fieldEa]
    simp [State.writeTwcr, hl, State.lineEffect]
  · have hl : s.line (cmdRx s.cfg.layout true) = .rxAck := by
      cases h : s.cfg.layout <;>
        simp [State.line, twcrLine, Twi.busy, ho, h, hm, cmdRx, cmdRxAck, fieldEn, fieldInt, fieldSta, fieldSto, fieldEa]
    simp [State.writeTwcr, hl, State.lineEffect]

theorem writeTwcr_cmdDisable (s : State) : s.writeTwcr cmdDisable = .next (s.disable cmdDisable) := by
  have hl : s.line cmdDisable = .disable := by
    cases h : s.cfg.layout <;> simp [State.line, twcrLine, h, cmdDisable, fieldEn]
  simp [State.writeTwcr, hl, State.lineEffect]

/-! ### TWCR as the wait sees it -/

/-- The bits of TWCR that both layouts have at the same place (10_state.md R24). -/
theorem twcr_bits (l : TwcrLayout) (t : Twi) :
    (t.twcr l).getLsbD 7 = t.twint ∧ (t.twcr l).getLsbD 6 = t.twea ∧ (t.twcr l).getLsbD 5 = t.twsta ∧
    (t.twcr l).getLsbD 4 = t.twsto ∧ (t.twcr l).getLsbD 3 = t.twwc := by
  obtain ⟨-, -, -, -, i, e, a, o, w, n, j, -, -, -, -⟩ := t
  cases l <;> simp only [Twi.twcr, bit] <;> revert i e a o w n j <;> decide

theorem twcr_bit7 (l : TwcrLayout) (t : Twi) : (t.twcr l).getLsbD 7 = t.twint := (twcr_bits l t).1

theorem twcr_bit4 (l : TwcrLayout) (t : Twi) : (t.twcr l).getLsbD 4 = t.twsto := (twcr_bits l t).2.2.2.1

theorem twcr_bit3 (l : TwcrLayout) (t : Twi) : (t.twcr l).getLsbD 3 = t.twwc := (twcr_bits l t).2.2.2.2

/-- The wait condition of stop is TWSTO clear (41_bus_primitives.md R161). -/
theorem waitCond_stop (s : State) : waitCond .stop s.twcr = !s.twi.twsto := by
  rw [waitCond, State.twcr, twcr_bit4]

/-- The wait condition of the others is TWINT set (41_bus_primitives.md R161). -/
theorem waitCond_int {p : Prim} (hp : p ≠ .stop) (s : State) : waitCond p s.twcr = s.twi.twint := by
  cases p <;> first | exact absurd rfl hp | exact twcr_bit7 _ _

/-- The status code as sendByte and the others read it, from TWS alone (30_encoding.md R92). -/
theorem twsr_masked (t : Twi) : t.twsr &&& statusMask = t.tws ++ 0#3 := by
  have h : ∀ (a : BitVec 5) (b : BitVec 2), (a ++ 0#1 ++ b : BitVec 8) &&& 0xF8#8 = a ++ 0#3 := by decide
  exact h _ _

theorem twsOf_of_append {t : BitVec 5} {c : Byte} (h : t ++ 0#3 = c) : t = twsOf c := by
  subst h
  revert t
  decide

theorem twsOf_append {c : Byte} (h : c &&& 0x07#8 = 0#8) : twsOf c ++ 0#3 = c := by
  revert c
  decide

/-! ### What a primitive leaves alone -/

/-- A primitive touches the TWI unit, the trace and the draws, and of the sequencer its position, counter and status. -/
structure PrimFrame (s u : State) : Prop where
  cfg : u.cfg = s.cfg
  fb : u.fb = s.fb
  host : u.host = s.host
  seq : u.seq = { s.seq with polls := u.seq.polls, pos := u.seq.pos, lastStatus := u.seq.lastStatus }
  op : u.twi.op = none
  twbr : u.twi.twbr = s.twi.twbr
  twps : u.twi.twps = s.twi.twps
  twen : u.twi.twen = true
  stalls : u.oracle.stalls = s.drawStall.2.stalls
  delays : u.oracle.delays = s.drawStall.2.delay.2.delays

theorem PrimFrame.seqBusy {s u : State} (h : PrimFrame s u) : u.seq.seqBusy = s.seq.seqBusy := by rw [h.seq]
theorem PrimFrame.req {s u : State} (h : PrimFrame s u) : u.seq.req = s.seq.req := by rw [h.seq]
theorem PrimFrame.isOpen {s u : State} (h : PrimFrame s u) : u.seq.isOpen = s.seq.isOpen := by rw [h.seq]
theorem PrimFrame.locals {s u : State} (h : PrimFrame s u) : u.seq.locals = s.seq.locals := by rw [h.seq]
theorem PrimFrame.txn {s u : State} (h : PrimFrame s u) : u.seq.txn = s.seq.txn := by rw [h.seq]
theorem PrimFrame.job {s u : State} (h : PrimFrame s u) : u.seq.job = s.seq.job := by rw [h.seq]
theorem PrimFrame.jobs {s u : State} (h : PrimFrame s u) : u.seq.jobs = s.seq.jobs := by rw [h.seq]

/-- Every wait still ends after a step that leaves the parameters and the host's stream alone. -/
theorem State.waitsEnd_congr {s u : State} (hc : u.cfg = s.cfg) (hh : u.host.stream = s.host.stream) (h : s.waitsEnd) :
    u.waitsEnd := by
  obtain ⟨h1, h2, h3⟩ := h
  exact ⟨by rw [hc, h1], by rw [hc, h2], by rw [State.hostEager_congr hh, h3]⟩

theorem PrimFrame.waitsEnd {s u : State} (h : PrimFrame s u) (hw : s.waitsEnd) : u.waitsEnd :=
  State.waitsEnd_congr h.cfg (by rw [h.host]) hw

/-! ### stop (41_bus_primitives.md R164) -/

theorem fieldEn_cmd (l : TwcrLayout) : fieldEn l (cmdStart l) = true ∧ fieldEn l (cmdStop l) = true ∧
    fieldEn l (cmdTx l) = true ∧ fieldEn l (cmdRx l true) = true ∧ fieldEn l (cmdRx l false) = true := by
  cases l <;> decide

theorem fieldInt_cmd (l : TwcrLayout) : fieldInt (cmdStart l) = true ∧ fieldInt (cmdStop l) = true ∧
    fieldInt (cmdTx l) = true ∧ fieldInt (cmdRx l true) = true ∧ fieldInt (cmdRx l false) = true := by
  cases l <;> decide

theorem fieldSto_cmd (l : TwcrLayout) : fieldSto (cmdStart l) = false ∧ fieldSto (cmdStop l) = true ∧
    fieldSto (cmdTx l) = false ∧ fieldSto (cmdRx l true) = false ∧ fieldSto (cmdRx l false) = false := by
  cases l <;> decide

theorem fieldSta_cmd (l : TwcrLayout) : fieldSta (cmdStart l) = true ∧ fieldSta (cmdStop l) = false ∧
    fieldSta (cmdTx l) = false ∧ fieldSta (cmdRx l true) = false ∧ fieldSta (cmdRx l false) = false := by
  cases l <;> decide

theorem fieldEa_cmd (l : TwcrLayout) : fieldEa (cmdRx l true) = true ∧ fieldEa (cmdRx l false) = false := by
  cases l <;> decide

/-- stop() ends with the bus released. -/
theorem stop_runs {s : State} (hw : s.LaunchEnds) (hb : s.seq.seqBusy = true) (ho : s.twi.op = none)
    (hp : s.seq.pos = .prim .stop .write) :
    ∃ u, Reaches s (u.primDone .stop (.ok [])) ∧ PrimFrame s u ∧ u.seq.lastStatus = s.seq.lastStatus ∧
      u.twi.mode = .none ∧ u.twi.twint = false ∧ u.twi.twsto = false ∧ u.twi.tws = twsOf codeNone ∧
      u.twi.twdr = s.twi.twdr ∧ u.trace = (if s.twi.mode = .none then s.trace else s.trace ++ [.stop]) ∧
      u.oracle.acks = s.oracle.acks ∧ u.oracle.rxs = s.oracle.rxs := by
  have h1 : step s = .next ((s.launch .stop (cmdStop s.cfg.layout)).beginWait .stop) := by
    rw [step_prim hw.eager hb ho hp, primStep, primWrite, writeTwcr_cmdStop ho, andThen_next]
  have e1 := (fieldEn_cmd s.cfg.layout).2.1
  have e2 := (fieldInt_cmd s.cfg.layout).2.1
  have e3 := (fieldSto_cmd s.cfg.layout).2.1
  obtain ⟨n, hn⟩ := reaches_afterWait (p := .stop) (k := .stop) (v := cmdStop s.cfg.layout) hw hb
    (by simp [waitCond_stop, State.launch, Twi.fieldUpdate, e3])
    (fun n => by simp [waitCond_stop, State.finish, complete, completeStop, State.launch, State.due, State.beginWait])
  obtain ⟨f1, f2, f3, f4, f5⟩ := s.finish_frame .stop (cmdStop s.cfg.layout) .stop n
  obtain ⟨q1, q2⟩ := s.finish_oracle .stop (cmdStop s.cfg.layout) .stop n
  refine ⟨_, .head h1 hn, ⟨f1, f2, f3, by rw [f4], f5, rfl, rfl, e1, q1, q2⟩, by rw [f4], rfl, ?_, rfl, rfl, rfl, rfl, ?_, ?_⟩
  · simp [State.finish, complete, completeStop, State.launch, State.due, State.beginWait, Twi.fieldUpdate, e2]
  · simp [State.finish, complete, completeStop, State.launch, State.due, State.beginWait]
  · simp [State.finish, complete, completeStop, State.launch, State.due, State.beginWait]

/-! ### Completions, by whether the oracle draws a bus error -/

/-- The unit after a completion that is no bus error and no STOP, with the draws left as `o`. -/
def State.completed (o : Oracle) (code : Byte) (mode : Mode) (ev : Event) (s : State) : State :=
  completeWith code mode ev { s with oracle := o }

/-- Whether a completion is a bus error, `e`, and what is left of the answers `q`: none is drawn where the parameter is false
(40_twi_unit.md R146; log 22). -/
def ErrDrawn (possible e : Bool) (q rest : List Bool) : Prop :=
  (possible = false ∧ e = false ∧ rest = q) ∨ (possible = true ∧ (q = e :: rest ∨ (q = [] ∧ rest = [])))

theorem State.drawBusErr_drawn (s : State) :
    ErrDrawn s.cfg.busErrorPossible s.drawBusErr.1 s.oracle.busErrs s.drawBusErr.2.busErrs := by
  unfold State.drawBusErr
  cases s.cfg.busErrorPossible
  · exact .inl ⟨rfl, rfl, rfl⟩
  · refine .inr ⟨rfl, ?_⟩
    unfold Oracle.busErr draw
    cases s.oracle.busErrs
    · exact .inr ⟨rfl, rfl⟩
    · exact .inl rfl

/-- Where the parameter is false, there is no bus error. -/
theorem ErrDrawn.none {e : Bool} {q rest : List Bool} {possible : Bool} (hp : possible = false)
    (h : ErrDrawn possible e q rest) : e = false ∧ rest = q := by
  obtain ⟨-, h1, h2⟩ | ⟨h1, -⟩ := h
  · exact ⟨h1, h2⟩
  · rw [hp] at h1
    cases h1

theorem ErrDrawn.possible {q rest : List Bool} {possible : Bool} (h : ErrDrawn possible true q rest) : possible = true := by
  obtain ⟨-, h, -⟩ | ⟨h, -⟩ := h
  · cases h
  · exact h

/-- A bus error given in advance, or its absence. -/
theorem ErrDrawn.given {e d : Bool} {q rest : List Bool} {possible : Bool} (hp : possible = true)
    (h : ErrDrawn possible e (d :: q) rest) : e = d ∧ rest = q := by
  obtain ⟨h, -⟩ | ⟨-, h | ⟨h, -⟩⟩ := h
  · rw [hp] at h
    cases h
  · cases h
    exact ⟨rfl, rfl⟩
  · cases h

theorem complete_start {s : State} (h : s.twi.op = some .start) :
    ∃ e o, ErrDrawn s.cfg.busErrorPossible e s.oracle.busErrs o.busErrs ∧ o.acks = s.oracle.acks ∧ o.rxs = s.oracle.rxs ∧
      ((e = false ∧ s.twi.mode = .none ∧ complete s = s.completed o codeStart .afterStart .start) ∨
       (e = false ∧ s.twi.mode ≠ .none ∧ complete s = s.completed o codeRepStart .afterStart .repStart) ∨
       (e = true ∧ complete s = completeBusErr { s with oracle := o })) := by
  refine ⟨_, s.drawBusErr.2, s.drawBusErr_drawn, by simp, by simp, ?_⟩
  have hc : complete s = orBusErr s completeStart := by unfold complete; rw [h]
  rw [hc]
  cases he : s.drawBusErr.1
  · by_cases hm : s.twi.mode = .none
    · exact .inl ⟨rfl, hm, by simp [orBusErr, he, completeStart, hm, State.completed]⟩
    · exact .inr (.inl ⟨rfl, hm, by simp [orBusErr, he, completeStart, hm, State.completed]⟩)
  · exact .inr (.inr ⟨rfl, by simp [orBusErr, he]⟩)

/-- The answer `a` and what is left of the answers `q`: the first of them, or any answer where none is left. -/
def AckDrawn (a : Ack) (q rest : List Ack) : Prop := q = a :: rest ∨ (q = [] ∧ rest = [])

theorem Oracle.ack_drawn (o : Oracle) : AckDrawn o.ack.1 o.acks o.ack.2.acks := by
  unfold Oracle.ack draw
  cases o.acks
  · exact .inr ⟨rfl, rfl⟩
  · exact .inl rfl

theorem complete_sla {s : State} (h : s.twi.op = some .sla) :
    ∃ e a o, ErrDrawn s.cfg.busErrorPossible e s.oracle.busErrs o.busErrs ∧ o.rxs = s.oracle.rxs ∧
      ((e = false ∧ AckDrawn a s.oracle.acks o.acks ∧ s.twi.twdr.getLsbD 0 = false ∧
          complete s = s.completed o (codeSlaW a) .mt (.tx s.twi.twdr a)) ∨
       (e = false ∧ AckDrawn a s.oracle.acks o.acks ∧ s.twi.twdr.getLsbD 0 = true ∧
          complete s = s.completed o (codeSlaR a) (if a = .ack then .mr else .mrEnd) (.tx s.twi.twdr a)) ∨
       (e = true ∧ o.acks = s.oracle.acks ∧ complete s = completeBusErr { s with oracle := o })) := by
  have hc : complete s = orBusErr s completeSla := by unfold complete; rw [h]
  have hd := s.drawBusErr_drawn
  rw [hc]
  cases he : s.drawBusErr.1 <;> rw [he] at hd
  · refine ⟨_, s.drawBusErr.2.ack.1, s.drawBusErr.2.ack.2, by simpa using hd, by simp, ?_⟩
    have hk := s.drawBusErr.2.ack_drawn
    rw [State.drawBusErr_acks] at hk
    cases hd : s.twi.twdr.getLsbD 0
    · exact .inl ⟨rfl, hk, rfl, by simp only [orBusErr, he, completeSla, hd, State.completed]; simp⟩
    · exact .inr (.inl ⟨rfl, hk, rfl, by simp only [orBusErr, he, completeSla, hd, State.completed]; simp⟩)
  · exact ⟨_, .ack, s.drawBusErr.2, hd, by simp, .inr (.inr ⟨rfl, by simp, by simp [orBusErr, he]⟩)⟩

theorem complete_tx {s : State} (h : s.twi.op = some .tx) :
    ∃ e a o, ErrDrawn s.cfg.busErrorPossible e s.oracle.busErrs o.busErrs ∧ o.rxs = s.oracle.rxs ∧
      ((e = false ∧ AckDrawn a s.oracle.acks o.acks ∧ complete s = s.completed o (codeTx a) .mt (.tx s.twi.twdr a)) ∨
       (e = true ∧ o.acks = s.oracle.acks ∧ complete s = completeBusErr { s with oracle := o })) := by
  have hc : complete s = orBusErr s completeTx := by unfold complete; rw [h]
  have hd := s.drawBusErr_drawn
  rw [hc]
  cases he : s.drawBusErr.1 <;> rw [he] at hd
  · refine ⟨_, s.drawBusErr.2.ack.1, s.drawBusErr.2.ack.2, by simpa using hd, by simp,
      .inl ⟨rfl, ?_, by simp [orBusErr, he, completeTx, State.completed]⟩⟩
    have hk := s.drawBusErr.2.ack_drawn
    rwa [State.drawBusErr_acks] at hk
  · exact ⟨_, .ack, s.drawBusErr.2, hd, by simp, .inr ⟨rfl, by simp, by simp [orBusErr, he]⟩⟩

/-- The byte received and what is left of the bytes: the first of them, or any byte where none is left. -/
def RxDrawn (r : Byte) (q rest : List Byte) : Prop := q = r :: rest ∨ (q = [] ∧ rest = [])

theorem Oracle.rx_drawn (o : Oracle) : RxDrawn o.rx.1 o.rxs o.rx.2.rxs := by
  unfold Oracle.rx draw
  cases o.rxs
  · exact .inr ⟨rfl, rfl⟩
  · exact .inl rfl

theorem complete_rx {s : State} (h : s.twi.op = some .rx) :
    ∃ e r o, ErrDrawn s.cfg.busErrorPossible e s.oracle.busErrs o.busErrs ∧ o.acks = s.oracle.acks ∧
      ((e = false ∧ RxDrawn r s.oracle.rxs o.rxs ∧
          complete s = State.completed o (codeRx s.twi.answer) (if s.twi.answer = .ack then .mr else .mrEnd)
            (.rx r s.twi.answer) { s with twi := { s.twi with twdr := r } }) ∨
       (e = true ∧ o.rxs = s.oracle.rxs ∧ complete s = completeBusErr { s with oracle := o })) := by
  have hc : complete s = orBusErr s completeRx := by unfold complete; rw [h]
  have hd := s.drawBusErr_drawn
  rw [hc]
  cases he : s.drawBusErr.1 <;> rw [he] at hd
  · refine ⟨_, s.drawBusErr.2.rx.1, s.drawBusErr.2.rx.2, by simpa using hd, by simp,
      .inl ⟨rfl, ?_, by simp [orBusErr, he, completeRx, State.completed]⟩⟩
    have hk := s.drawBusErr.2.rx_drawn
    rwa [State.drawBusErr_rxs] at hk
  · exact ⟨_, 0#8, s.drawBusErr.2, hd, by simp, .inr ⟨rfl, by simp, by simp [orBusErr, he]⟩⟩

/-! ### start (41_bus_primitives.md R163) -/

/-- The status read: lastStatus is the code, and the result of the primitive follows (41_bus_primitives.md R163-R168). -/
theorem status_runs {s : State} {p : Prim} {c : Byte} (he : s.hostEager = false) (hb : s.seq.seqBusy = true)
    (ho : s.twi.op = none) (hp : s.seq.pos = .prim p .status) (hc : s.twi.tws ++ 0#3 = c) :
    Reaches s (State.statusResult p c { s with seq := { s.seq with lastStatus := c } }) := by
  refine .of_step ?_
  rw [step_prim he hb ho hp, primStep, primStatus, twsr_masked, hc]

/-- A launch by a primitive other than stop, and its wait, reach the status read. -/
theorem launch_runs {s : State} {p : Prim} {k : Op} {v : Byte} (hw : s.LaunchEnds) (hb : s.seq.seqBusy = true)
    (hps : p ≠ .stop) (hi : fieldInt v = true) (hk : k ≠ .stop) :
    ∃ n, Reaches ((s.launch k v).beginWait p) ((s.finish k v p n).goto (.prim p .status)) := by
  obtain ⟨n, hn⟩ := reaches_afterWait (p := p) (k := k) (v := v) hw hb
    (by rw [waitCond_int hps]; simp [State.launch, Twi.fieldUpdate, hi])
    (fun n => by rw [waitCond_int hps]; exact ((s.finish_twi k v p n).2.2.2.2.2.2.1 hk).2)
  refine ⟨n, ?_⟩
  cases p <;> first | exact absurd rfl hps | exact hn

/-- The unit after the status read `c` of a primitive. -/
def State.statused (p : Prim) (c : Byte) (s : State) : State :=
  { s with seq := { s.seq with pos := .prim p .status, lastStatus := c } }

/-- A launch by a primitive other than stop reaches its result: the completion, its status read, and what follows. -/
theorem launch_result {s : State} {p : Prim} {k : Op} {v : Byte} (hw : s.LaunchEnds) (hb : s.seq.seqBusy = true)
    (hps : p ≠ .stop) (hi : fieldInt v = true) (hk : k ≠ .stop) :
    ∃ (n : Nat) (c : Byte), (s.finish k v p n).twi.tws ++ 0#3 = c ∧
      Reaches ((s.launch k v).beginWait p) (State.statusResult p c ((s.finish k v p n).statused p c)) := by
  obtain ⟨n, hn⟩ := launch_runs hw hb hps hi hk
  obtain ⟨f1, f2, f3, f4, f5⟩ := s.finish_frame k v p n
  refine ⟨n, _, rfl, hn.trans ?_⟩
  exact status_runs (s := (s.finish k v p n).goto (.prim p .status))
    (by rw [State.hostEager_congr (s := s) (by simp [f3])]; exact hw.eager) (by simp [State.goto, f4, hb]) (by simp [f5]) rfl rfl

/-- start() reads the status of a START, of a repeated START, or of a bus error. -/
theorem start_runs {s : State} (hw : s.LaunchEnds) (hb : s.seq.seqBusy = true) (ho : s.twi.op = none)
    (hp : s.seq.pos = .prim .start .write) :
    ∃ u e, Reaches s (u.statusResult .start u.seq.lastStatus) ∧ PrimFrame s u ∧
      ErrDrawn s.cfg.busErrorPossible e s.oracle.busErrs u.oracle.busErrs ∧
      u.twi.twint = true ∧ u.twi.twsto = false ∧ u.twi.twsta = true ∧ u.twi.twdr = s.twi.twdr ∧
      u.twi.tws = twsOf u.seq.lastStatus ∧ u.oracle.acks = s.oracle.acks ∧ u.oracle.rxs = s.oracle.rxs ∧
      ((e = false ∧ s.twi.mode = .none ∧ u.twi.mode = .afterStart ∧ u.seq.lastStatus = codeStart ∧
          u.trace = s.trace ++ [.start]) ∨
       (e = false ∧ s.twi.mode ≠ .none ∧ u.twi.mode = .afterStart ∧ u.seq.lastStatus = codeRepStart ∧
          u.trace = s.trace ++ [.repStart]) ∨
       (e = true ∧ u.twi.mode = .none ∧ u.seq.lastStatus = codeBusError ∧
          u.trace = s.trace ++ [.busErr])) := by
  have h1 : step s = .next ((s.launch .start (cmdStart s.cfg.layout)).beginWait .start) := by
    rw [step_prim hw.eager hb ho hp, primStep, primWrite, writeTwcr_cmdStart ho, andThen_next]
  have e1 := (fieldEn_cmd s.cfg.layout).1
  have e2 := (fieldInt_cmd s.cfg.layout).1
  have e3 := (fieldSto_cmd s.cfg.layout).1
  have e4 := (fieldSta_cmd s.cfg.layout).1
  obtain ⟨n, c, hc, hn⟩ := launch_result (p := .start) (k := .start) hw hb (by simp) e2 (by simp)
  obtain ⟨f1, f2, f3, f4, f5⟩ := s.finish_frame .start (cmdStart s.cfg.layout) .start n
  obtain ⟨q1, q2⟩ := s.finish_oracle .start (cmdStart s.cfg.layout) .start n
  obtain ⟨e, o, hd, ha, hr, h⟩ := complete_start (s := ((s.launch .start (cmdStart s.cfg.layout)).beginWait .start).due n) rfl
  have hd : ErrDrawn s.cfg.busErrorPossible e s.oracle.busErrs o.busErrs := by
    simpa [State.due, State.beginWait, State.launch] using hd
  have ha : o.acks = s.oracle.acks := by rw [ha]; simp [State.due, State.beginWait, State.launch]
  have hr : o.rxs = s.oracle.rxs := by rw [hr]; simp [State.due, State.beginWait, State.launch]
  refine ⟨(s.finish .start (cmdStart s.cfg.layout) .start n).statused .start c, e, .head h1 hn, ?_⟩
  rw [State.finish] at *
  obtain ⟨rfl, hm, h⟩ | ⟨rfl, hm, h⟩ | ⟨rfl, h⟩ := h <;> rw [h] at hc f1 f2 f3 f4 f5 q1 q2 ⊢ <;> subst hc
  · exact ⟨⟨f1, f2, f3, rfl, f5, rfl, rfl, e1, q1, q2⟩, hd, rfl, e3, e4, rfl, twsOf_of_append rfl, ha, hr,
      .inl ⟨rfl, hm, rfl, twsOf_append (c := codeStart) (by decide), rfl⟩⟩
  · exact ⟨⟨f1, f2, f3, rfl, f5, rfl, rfl, e1, q1, q2⟩, hd, rfl, e3, e4, rfl, twsOf_of_append rfl, ha, hr,
      .inr (.inl ⟨rfl, hm, rfl, twsOf_append (c := codeRepStart) (by decide), rfl⟩)⟩
  · exact ⟨⟨f1, f2, f3, rfl, f5, rfl, rfl, e1, q1, q2⟩, hd, rfl, e3, e4, rfl, twsOf_of_append rfl, ha, hr,
      .inr (.inr ⟨rfl, rfl, twsOf_append (c := codeBusError) (by decide), rfl⟩)⟩

/-! ### sendByte (41_bus_primitives.md R165) -/

/-- The unit before sendByte's launch: TWDR written, no collision. -/
def State.loaded (b : Byte) (p : Prim) (s : State) : State :=
  { s with twi := { s.twi with twdr := b, twwc := false }, seq := { s.seq with pos := .prim p .launch } }

/-- With TWINT set, sendByte's TWDR write and TWWC check pass. -/
theorem send_loads_run {s : State} {b : Byte} {role : SendRole} (he : s.hostEager = false) (hb : s.seq.seqBusy = true)
    (ho : s.twi.op = none) (hi : s.twi.twint = true) (hp : s.seq.pos = .prim (.send b role) .write) :
    run 2 s = .next (s.loaded b (.send b role)) := by
  have h1 : step s = .next ((s.writeTwdr b).goto (.prim (.send b role) .check)) := by
    rw [step_prim he hb ho hp, primStep, primWrite]
  have hw2 : (s.writeTwdr b).twi = { s.twi with twdr := b, twwc := false } := by
    simp [State.writeTwdr, Twi.writeTwdr, hi]
  rw [run_succ_of_step h1, run_succ_of_step (u := s.loaded b (.send b role)) ?_]
  · rfl
  rw [step_prim (s := (s.writeTwdr b).goto (.prim (.send b role) .check)) he (by simpa [State.goto] using hb)
    (by simp [hw2, ho]) rfl, primStep, primCheck, State.twcr, twcr_bit3]
  simp only [State.goto_twi, hw2, Bool.false_eq_true, if_false]
  simp [State.goto, State.writeTwdr, Twi.writeTwdr, hi, State.loaded]

theorem send_loads {s : State} {b : Byte} {role : SendRole} (he : s.hostEager = false) (hb : s.seq.seqBusy = true)
    (ho : s.twi.op = none) (hi : s.twi.twint = true) (hp : s.seq.pos = .prim (.send b role) .write) :
    Reaches s (s.loaded b (.send b role)) := ⟨2, send_loads_run he hb ho hi hp⟩

/-- What sendByte's operation is: SLA after a START, TX in transmit mode (30_encoding.md R89). -/
theorem send_launches {s : State} {b : Byte} {p : Prim} (ho : s.twi.op = none)
    (hm : s.twi.mode = .afterStart ∨ s.twi.mode = .mt) :
    (s.loaded b p).writeTwcr (cmdTx s.cfg.layout) =
      .next ((s.loaded b p).launch (if s.twi.mode = .mt then .tx else .sla) (cmdTx s.cfg.layout)) := by
  obtain hm | hm := hm
  · rw [if_neg (by simp [hm])]
    exact writeTwcr_cmdTx_sla (s := s.loaded b p) ho hm
  · rw [if_pos hm]
    exact writeTwcr_cmdTx_tx (s := s.loaded b p) ho hm

/-- sendByte with TWINT set and the mode of its role reads the status of the byte's answer, or of a bus error. -/
theorem send_runs {s : State} {b : Byte} {role : SendRole} (hw : s.LaunchEnds) (hb : s.seq.seqBusy = true)
    (ho : s.twi.op = none) (hi : s.twi.twint = true) (hm : s.twi.mode = .afterStart ∨ s.twi.mode = .mt)
    (hp : s.seq.pos = .prim (.send b role) .write) :
    ∃ u e a, Reaches s (u.statusResult (.send b role) u.seq.lastStatus) ∧ PrimFrame s u ∧
      ErrDrawn s.cfg.busErrorPossible e s.oracle.busErrs u.oracle.busErrs ∧
      u.twi.twint = true ∧ u.twi.twsto = false ∧ u.twi.twsta = false ∧ u.twi.twdr = b ∧ u.twi.twwc = false ∧
      u.twi.tws = twsOf u.seq.lastStatus ∧ u.oracle.rxs = s.oracle.rxs ∧
      ((e = false ∧ AckDrawn a s.oracle.acks u.oracle.acks ∧ u.trace = s.trace ++ [.tx b a] ∧
          ((s.twi.mode = .mt ∧ u.twi.mode = .mt ∧ u.seq.lastStatus = codeTx a) ∨
           (s.twi.mode = .afterStart ∧ b.getLsbD 0 = false ∧ u.twi.mode = .mt ∧ u.seq.lastStatus = codeSlaW a) ∨
           (s.twi.mode = .afterStart ∧ b.getLsbD 0 = true ∧ u.twi.mode = (if a = .ack then .mr else .mrEnd) ∧
              u.seq.lastStatus = codeSlaR a))) ∨
       (e = true ∧ u.twi.mode = .none ∧ u.seq.lastStatus = codeBusError ∧
          u.trace = s.trace ++ [.busErr] ∧ u.oracle.acks = s.oracle.acks)) := by
  have e1 := (fieldEn_cmd s.cfg.layout).2.2.1
  have e2 := (fieldInt_cmd s.cfg.layout).2.2.1
  have e3 := (fieldSto_cmd s.cfg.layout).2.2.1
  have e4 := (fieldSta_cmd s.cfg.layout).2.2.1
  have h0 := send_loads hw.eager hb ho hi hp
  generalize hx : s.loaded b (.send b role) = x at h0
  have xc : x.cfg = s.cfg := by rw [← hx]; rfl
  have xb : x.seq.seqBusy = true := by rw [← hx]; exact hb
  have xo : x.twi.op = none := by rw [← hx]; exact ho
  have xh : x.host = s.host := by rw [← hx]; rfl
  have xor : x.oracle = s.oracle := by rw [← hx]; rfl
  have xs : x.drawStall = s.drawStall := by simp [State.drawStall, xc, xor]
  have xw : x.LaunchEnds := by
    refine ⟨?_, by rw [xs]; exact hw.stall, fun l hl => ?_⟩
    · rw [State.hostEager_congr (s := s) (by rw [xh])]
      exact hw.eager
    · rw [xs]
      exact hw.inTime l (by rw [← xc]; exact hl)
  have xp : x.seq.pos = .prim (.send b role) .launch := by rw [← hx]; rfl
  have hl := send_launches (s := s) (b := b) (p := .send b role) ho hm
  rw [hx] at hl
  generalize hk : (if s.twi.mode = .mt then Op.tx else Op.sla) = k at hl
  have h1 : step x = .next ((x.launch k (cmdTx s.cfg.layout)).beginWait (.send b role)) := by
    rw [step_prim xw.eager xb xo xp, primStep, primLaunch, xc, hl, andThen_next]
  have hkc : (k = .tx ∧ s.twi.mode = .mt) ∨ (k = .sla ∧ s.twi.mode = .afterStart) := by
    obtain hm | hm := hm <;> simp [← hk, hm]
  have hks : k ≠ .stop ∧ k ≠ .rx := by obtain ⟨rfl, -⟩ | ⟨rfl, -⟩ := hkc <;> simp
  obtain ⟨n, c, hc, hn⟩ := launch_result (p := .send b role) (k := k) xw xb (by simp) e2 hks.1
  obtain ⟨f1, f2, f3, f4, f5⟩ := x.finish_frame k (cmdTx s.cfg.layout) (.send b role) n
  obtain ⟨q1, q2⟩ := x.finish_oracle k (cmdTx s.cfg.layout) (.send b role) n
  obtain ⟨g1, g2, g3, -, g5, g6, g7, g8⟩ := x.finish_twi k (cmdTx s.cfg.layout) (.send b role) n
  have g7 := g7 hks.1
  have g8 := g8 hks.2
  refine ⟨(x.finish k (cmdTx s.cfg.layout) (.send b role) n).statused (.send b role) c, ?_⟩
  have hr := h0.trans (.head h1 hn)
  have xm : x.twi.mode = s.twi.mode := by rw [← hx]; rfl
  have xd : x.twi.twdr = b := by rw [← hx]; rfl
  have xt : x.trace = s.trace := by rw [← hx]; rfl
  have hfr : PrimFrame s ((x.finish k (cmdTx s.cfg.layout) (.send b role) n).statused (.send b role) c) := by
    refine ⟨f1.trans xc, ?_, f3.trans xh, ?_, f5, ?_, ?_, ?_, q1.trans (by rw [xs]), q2.trans (by rw [xs])⟩
    · exact f2.trans (by rw [← hx]; rfl)
    · simp only [State.statused, f4]; subst hx; rfl
    · exact g1.trans (by rw [← hx]; rfl)
    · exact g2.trans (by rw [← hx]; rfl)
    · exact g3.trans (by rw [xc]; exact e1)
  have hww : (x.finish k (cmdTx s.cfg.layout) (.send b role) n).twi.twwc = false := g6.trans (by rw [← hx]; rfl)
  have hmode : (((x.launch k (cmdTx s.cfg.layout)).beginWait (.send b role)).due n).oracle.acks = s.oracle.acks ∧
      (((x.launch k (cmdTx s.cfg.layout)).beginWait (.send b role)).due n).oracle.rxs = s.oracle.rxs ∧
      (((x.launch k (cmdTx s.cfg.layout)).beginWait (.send b role)).due n).oracle.busErrs = s.oracle.busErrs := by
    simp [State.due, State.beginWait, State.launch, xor]
  have code : ∀ {d : Byte}, d &&& 0x07#8 = 0#8 →
      (x.finish k (cmdTx s.cfg.layout) (.send b role) n).twi.tws = twsOf d → c = d := by
    intro d hd h
    rw [← hc, h, twsOf_append hd]
  obtain ⟨rfl, hm⟩ | ⟨rfl, hm⟩ := hkc
  · obtain ⟨e, a, o, hd, h1, ⟨rfl, h2, h⟩ | ⟨rfl, h3, h⟩⟩ :=
      complete_tx (s := ((x.launch .tx (cmdTx s.cfg.layout)).beginWait (.send b role)).due n) rfl
    · refine ⟨false, a, hr, hfr, ?_, g7.2, g7.1.trans e3, g5.trans e4, g8.trans xd, hww, twsOf_of_append hc, ?_, ?_⟩
      · rw [State.statused, State.finish, h]
        exact hmode.2.2 ▸ xc ▸ hd
      · simp only [State.statused, State.finish, h]
        exact h1.trans hmode.2.1
      · refine .inl ⟨rfl, ?_, ?_, .inl ⟨hm, ?_, code (by cases a <;> decide) (by rw [State.finish, h]; rfl)⟩⟩
        · simp only [State.statused, State.finish, h]
          rw [← hmode.1]
          exact h2
        · simp only [State.statused, State.finish, h]
          rw [← xt, ← xd]
          rfl
        · simp only [State.statused, State.finish, h]
          rfl
    · refine ⟨true, a, hr, hfr, ?_, g7.2, g7.1.trans e3, g5.trans e4, g8.trans xd, hww, twsOf_of_append hc, ?_, .inr ⟨rfl, ?_,
        code (by decide) (by rw [State.finish, h]; rfl), ?_, ?_⟩⟩
      · rw [State.statused, State.finish, h]
        exact hmode.2.2 ▸ xc ▸ hd
      · simp only [State.statused, State.finish, h]
        exact h1.trans hmode.2.1
      · simp only [State.statused, State.finish, h]
        rfl
      · simp only [State.statused, State.finish, h]
        rw [← xt]
        rfl
      · simp only [State.statused, State.finish, h]
        exact h3.trans hmode.1
  · obtain ⟨e, a, o, hd, h1, ⟨rfl, h2, h4, h⟩ | ⟨rfl, h2, h4, h⟩ | ⟨rfl, h3, h⟩⟩ :=
      complete_sla (s := ((x.launch .sla (cmdTx s.cfg.layout)).beginWait (.send b role)).due n) rfl
    · refine ⟨false, a, hr, hfr, ?_, g7.2, g7.1.trans e3, g5.trans e4, g8.trans xd, hww, twsOf_of_append hc, ?_, ?_⟩
      · rw [State.statused, State.finish, h]
        exact hmode.2.2 ▸ xc ▸ hd
      · simp only [State.statused, State.finish, h]
        exact h1.trans hmode.2.1
      · refine .inl ⟨rfl, ?_, ?_, .inr (.inl ⟨hm, by rw [← xd]; exact h4, ?_,
          code (by cases a <;> decide) (by rw [State.finish, h]; rfl)⟩)⟩
        · simp only [State.statused, State.finish, h]
          rw [← hmode.1]
          exact h2
        · simp only [State.statused, State.finish, h]
          rw [← xt, ← xd]
          rfl
        · simp only [State.statused, State.finish, h]
          rfl
    · refine ⟨false, a, hr, hfr, ?_, g7.2, g7.1.trans e3, g5.trans e4, g8.trans xd, hww, twsOf_of_append hc, ?_, ?_⟩
      · rw [State.statused, State.finish, h]
        exact hmode.2.2 ▸ xc ▸ hd
      · simp only [State.statused, State.finish, h]
        exact h1.trans hmode.2.1
      · refine .inl ⟨rfl, ?_, ?_, .inr (.inr ⟨hm, by rw [← xd]; exact h4, ?_,
          code (by cases a <;> decide) (by rw [State.finish, h]; rfl)⟩)⟩
        · simp only [State.statused, State.finish, h]
          rw [← hmode.1]
          exact h2
        · simp only [State.statused, State.finish, h]
          rw [← xt, ← xd]
          rfl
        · simp only [State.statused, State.finish, h]
          rfl
    · refine ⟨true, a, hr, hfr, ?_, g7.2, g7.1.trans e3, g5.trans e4, g8.trans xd, hww, twsOf_of_append hc, ?_, .inr ⟨rfl, ?_,
        code (by decide) (by rw [State.finish, h]; rfl), ?_, ?_⟩⟩
      · rw [State.statused, State.finish, h]
        exact hmode.2.2 ▸ xc ▸ hd
      · simp only [State.statused, State.finish, h]
        exact h1.trans hmode.2.1
      · simp only [State.statused, State.finish, h]
        rfl
      · simp only [State.statused, State.finish, h]
        rw [← xt]
        rfl
      · simp only [State.statused, State.finish, h]
        exact h3.trans hmode.1

/-! ### receiveByte (41_bus_primitives.md R166) -/

/-- A receive that the primitive `p` launches, answered as `ack` says, up to the status read: the byte, or a bus error. -/
theorem receive_runs {s : State} {p : Prim} {ack : Bool} (hw : s.LaunchEnds) (hb : s.seq.seqBusy = true) (hps : p ≠ .stop) :
    ∃ u e r, Reaches ((s.launch .rx (cmdRx s.cfg.layout ack)).beginWait p) (u.statusResult p u.seq.lastStatus) ∧ PrimFrame s u ∧
      ErrDrawn s.cfg.busErrorPossible e s.oracle.busErrs u.oracle.busErrs ∧
      u.twi.twint = true ∧ u.twi.twsto = false ∧ u.twi.twsta = false ∧ u.twi.twea = ack ∧ u.twi.twwc = s.twi.twwc ∧
      u.twi.tws = twsOf u.seq.lastStatus ∧ u.oracle.acks = s.oracle.acks ∧
      ((e = false ∧ RxDrawn r s.oracle.rxs u.oracle.rxs ∧ u.twi.twdr = r ∧
          u.trace = s.trace ++ [.rx r (if ack then .ack else .nack)] ∧ u.twi.mode = (if ack then .mr else .mrEnd) ∧
          u.seq.lastStatus = codeRx (if ack then .ack else .nack)) ∨
       (e = true ∧ u.twi.mode = .none ∧ u.seq.lastStatus = codeBusError ∧
          u.trace = s.trace ++ [.busErr] ∧ u.oracle.rxs = s.oracle.rxs)) := by
  have e1 : fieldEn s.cfg.layout (cmdRx s.cfg.layout ack) = true := by
    cases ack
    · exact (fieldEn_cmd _).2.2.2.2
    · exact (fieldEn_cmd _).2.2.2.1
  have e2 : fieldInt (cmdRx s.cfg.layout ack) = true := by
    cases ack
    · exact (fieldInt_cmd _).2.2.2.2
    · exact (fieldInt_cmd _).2.2.2.1
  have e3 : fieldSto (cmdRx s.cfg.layout ack) = false := by
    cases ack
    · exact (fieldSto_cmd _).2.2.2.2
    · exact (fieldSto_cmd _).2.2.2.1
  have e4 : fieldSta (cmdRx s.cfg.layout ack) = false := by
    cases ack
    · exact (fieldSta_cmd _).2.2.2.2
    · exact (fieldSta_cmd _).2.2.2.1
  have e5 : fieldEa (cmdRx s.cfg.layout ack) = ack := by
    cases ack
    · exact (fieldEa_cmd _).2
    · exact (fieldEa_cmd _).1
  generalize cmdRx s.cfg.layout ack = v at *
  obtain ⟨n, c, hc, hn⟩ := launch_result (p := p) (k := .rx) hw hb hps e2 (by simp)
  obtain ⟨f1, f2, f3, f4, f5⟩ := s.finish_frame .rx v p n
  obtain ⟨q1, q2⟩ := s.finish_oracle .rx v p n
  obtain ⟨g1, g2, g3, g4, g5, g6, g7, -⟩ := s.finish_twi .rx v p n
  have g7 := g7 (by simp)
  have hr := hn
  have hfr : PrimFrame s ((s.finish .rx v p n).statused p c) := by
    refine ⟨f1, f2, f3, ?_, f5, g1, g2, g3.trans e1, q1, q2⟩
    simp only [State.statused, f4]
  have hq : (((s.launch .rx v).beginWait p).due n).oracle.acks = s.oracle.acks ∧
      (((s.launch .rx v).beginWait p).due n).oracle.rxs = s.oracle.rxs ∧
      (((s.launch .rx v).beginWait p).due n).oracle.busErrs = s.oracle.busErrs := by
    simp [State.due, State.beginWait, State.launch]
  have hans : (((s.launch .rx v).beginWait p).due n).twi.answer = if ack then .ack else .nack := by
    simp [State.due, State.beginWait, State.launch, Twi.answer, Twi.fieldUpdate, e5]
  have code : ∀ {d : Byte}, d &&& 0x07#8 = 0#8 → (s.finish .rx v p n).twi.tws = twsOf d → c = d := by
    intro d hd h
    rw [← hc, h, twsOf_append hd]
  obtain ⟨e, r, o, hd, h2, ⟨rfl, h3, h⟩ | ⟨rfl, h4, h⟩⟩ :=
    complete_rx (s := ((s.launch .rx v).beginWait p).due n) rfl
  · rw [hans] at h
    refine ⟨_, false, r, hr, hfr, ?_, g7.2, g7.1.trans e3, g5.trans e4, g4.trans e5, g6, twsOf_of_append hc, ?_, .inl ⟨rfl, ?_, ?_, ?_, ?_,
      code (by cases ack <;> decide) (by rw [State.finish, h]; rfl)⟩⟩
    · rw [State.statused, State.finish, h]
      exact hq.2.2 ▸ hd
    · simp only [State.statused, State.finish, h]
      exact h2.trans hq.1
    · simp only [State.statused, State.finish, h]
      rw [← hq.2.1]
      exact h3
    · simp only [State.statused, State.finish, h]
      rfl
    · simp only [State.statused, State.finish, h]
      rfl
    · simp only [State.statused, State.finish, h]
      cases ack <;> rfl
  · refine ⟨_, true, r, hr, hfr, ?_, g7.2, g7.1.trans e3, g5.trans e4, g4.trans e5, g6, twsOf_of_append hc, ?_, .inr ⟨rfl, ?_,
      code (by decide) (by rw [State.finish, h]; rfl), ?_, ?_⟩⟩
    · rw [State.statused, State.finish, h]
      exact hq.2.2 ▸ hd
    · simp only [State.statused, State.finish, h]
      exact h2.trans hq.1
    · simp only [State.statused, State.finish, h]
      rfl
    · simp only [State.statused, State.finish, h]
      rfl
    · simp only [State.statused, State.finish, h]
      exact h4.trans hq.2.1

/-- receiveByte in receive mode reads the status of the byte it answered, or of a bus error. -/
theorem recv_runs {s : State} {ack : Bool} {i : Nat} (hw : s.LaunchEnds) (hb : s.seq.seqBusy = true)
    (ho : s.twi.op = none) (hm : s.twi.mode = .mr) (hp : s.seq.pos = .prim (.recv ack i) .write) :
    ∃ u e r, Reaches s (u.statusResult (.recv ack i) u.seq.lastStatus) ∧ PrimFrame s u ∧
      ErrDrawn s.cfg.busErrorPossible e s.oracle.busErrs u.oracle.busErrs ∧
      u.twi.twint = true ∧ u.twi.twsto = false ∧ u.twi.twsta = false ∧ u.twi.twea = ack ∧ u.twi.twwc = s.twi.twwc ∧
      u.twi.tws = twsOf u.seq.lastStatus ∧ u.oracle.acks = s.oracle.acks ∧
      ((e = false ∧ RxDrawn r s.oracle.rxs u.oracle.rxs ∧ u.twi.twdr = r ∧
          u.trace = s.trace ++ [.rx r (if ack then .ack else .nack)] ∧ u.twi.mode = (if ack then .mr else .mrEnd) ∧
          u.seq.lastStatus = codeRx (if ack then .ack else .nack)) ∨
       (e = true ∧ u.twi.mode = .none ∧ u.seq.lastStatus = codeBusError ∧
          u.trace = s.trace ++ [.busErr] ∧ u.oracle.rxs = s.oracle.rxs)) := by
  have h1 : step s = .next ((s.launch .rx (cmdRx s.cfg.layout ack)).beginWait (.recv ack i)) := by
    rw [step_prim hw.eager hb ho hp, primStep, primWrite]
    have := writeTwcr_cmdRx (ack := ack) ho hm
    unfold cmdRx at this ⊢
    rw [this, andThen_next]
  obtain ⟨u, e, r, hu, h⟩ := receive_runs (p := .recv ack i) (ack := ack) hw hb (by simp)
  exact ⟨u, e, r, .head h1 hu, h⟩

/-- sendByte in receive mode launches a receive that is answered NACK (30_encoding.md R89, line 11), whatever the byte. -/
theorem send_receives {s : State} {b : Byte} {role : SendRole} (hw : s.LaunchEnds) (hb : s.seq.seqBusy = true)
    (ho : s.twi.op = none) (hi : s.twi.twint = true) (hm : s.twi.mode = .mr)
    (hp : s.seq.pos = .prim (.send b role) .write) :
    ∃ u e r, Reaches s (u.statusResult (.send b role) u.seq.lastStatus) ∧ PrimFrame s u ∧
      ErrDrawn s.cfg.busErrorPossible e s.oracle.busErrs u.oracle.busErrs ∧
      u.twi.twint = true ∧ u.twi.twsto = false ∧ u.twi.twsta = false ∧ u.twi.twea = false ∧ u.twi.twwc = false ∧
      u.twi.tws = twsOf u.seq.lastStatus ∧ u.oracle.acks = s.oracle.acks ∧
      ((e = false ∧ RxDrawn r s.oracle.rxs u.oracle.rxs ∧ u.twi.twdr = r ∧
          u.trace = s.trace ++ [.rx r .nack] ∧ u.twi.mode = .mrEnd ∧ u.seq.lastStatus = codeRx .nack) ∨
       (e = true ∧ u.twi.mode = .none ∧ u.seq.lastStatus = codeBusError ∧
          u.trace = s.trace ++ [.busErr] ∧ u.oracle.rxs = s.oracle.rxs)) := by
  have h0 := send_loads hw.eager hb ho hi hp
  have h1 : step (s.loaded b (.send b role)) =
      .next (((s.loaded b (.send b role)).launch .rx (cmdRx s.cfg.layout false)).beginWait (.send b role)) := by
    have := writeTwcr_cmdRx (s := s.loaded b (.send b role)) (ack := false) ho hm
    rw [step_prim (s := s.loaded b (.send b role)) hw.eager hb ho rfl, primStep, primLaunch]
    exact (congrArg (andThen · _) this).trans rfl
  obtain ⟨u, e, r, hu, fr, h⟩ := receive_runs (s := s.loaded b (.send b role)) (p := .send b role) (ack := false)
    ⟨hw.eager, hw.stall, hw.inTime⟩ hb (by simp)
  refine ⟨u, e, r, h0.trans (.head h1 hu), ?_, h⟩
  exact ⟨fr.cfg, fr.fb, fr.host, fr.seq, fr.op, fr.twbr, fr.twps, fr.twen, fr.stalls, fr.delays⟩

/-- sendByte in a mode that launches no byte is refused at its launch, its third step (40_twi_unit.md R138). -/
theorem send_refused {s : State} {b : Byte} {role : SendRole} (he : s.hostEager = false) (hb : s.seq.seqBusy = true)
    (ho : s.twi.op = none) (hi : s.twi.twint = true) (hm : s.twi.mode = .none ∨ s.twi.mode = .mrEnd)
    (hp : s.seq.pos = .prim (.send b role) .write) :
    run 3 s = .refused .twcrUnmodelled := by
  have hl : (s.loaded b (.send b role)).line (cmdTx s.cfg.layout) = .byteRefused := by
    have hm' : (s.loaded b (.send b role)).twi.mode = s.twi.mode := rfl
    have ho' : (s.loaded b (.send b role)).twi.op = none := ho
    have hc : (s.loaded b (.send b role)).cfg = s.cfg := rfl
    obtain hm | hm := hm <;> cases h : s.cfg.layout <;>
      simp [State.line, twcrLine, Twi.busy, ho', hm', hc, h, hm, cmdTx, fieldEn, fieldInt, fieldSta, fieldSto]
  have h2 : run 2 s = .next (s.loaded b (.send b role)) := send_loads_run he hb ho hi hp
  have h3 : step (s.loaded b (.send b role)) = .refused .twcrUnmodelled := by
    rw [step_prim (s := s.loaded b (.send b role)) he hb ho rfl, primStep, primLaunch]
    change andThen ((s.loaded b (.send b role)).writeTwcr (cmdTx s.cfg.layout)) _ = _
    rw [State.writeTwcr_of_refuses (by rw [hl]; rfl), andThen_refused]
  rw [run_add 2 1, h2, andThen_next, run_succ, h3]
  rfl

/-! ### A primitive whose operation stalls (41_bus_primitives.md R161, R162) -/

/-- The next launch stalls, and the wait for it is bounded. -/
structure State.LaunchStalls (l : Nat) (s : State) : Prop where
  eager : s.hostEager = false
  stall : s.drawStall.1 = true
  limit : s.cfg.pollLimit = some l
  pos : 1 ≤ l

/-- The unit after a wait that read its condition `l` times, and its recovery. -/
structure Recovered (l : Nat) (u : State) : Prop where
  polls : u.seq.polls = l
  op : u.twi.op = none
  mode : u.twi.mode = .none
  twen : u.twi.twen = false
  tws : u.twi.tws = twsOf codeNone
  twint : u.twi.twint = false
  twsto : u.twi.twsto = false

theorem Recovered.busIdle {l : Nat} {u : State} (h : Recovered l u) : u.busIdle := ⟨h.op, h.mode⟩

/-- What a primitive that times out does: the unit recovered, an Abort where the bus was held, and nothing else. -/
structure TimedOut (l : Nat) (s u : State) : Prop where
  cfg : u.cfg = s.cfg
  fb : u.fb = s.fb
  host : u.host = s.host
  seq : u.seq = { s.seq with polls := l, pos := u.seq.pos }
  twbr : u.twi.twbr = s.twi.twbr
  twps : u.twi.twps = s.twi.twps
  off : Recovered l u
  trace : u.trace = if s.twi.mode = .none then s.trace else s.trace ++ [.abort]

/-- A launch that stalls ends in the recovery, after exactly POLL_LIMIT reads. -/
theorem stalled_runs {s : State} {p : Prim} {k : Op} {v : Byte} {l : Nat} (hw : s.LaunchStalls l)
    (hb : s.seq.seqBusy = true) (hi : fieldInt v = true) (hv : p = .stop → fieldSto v = true) :
    ∃ u, Reaches ((s.launch k v).beginWait p) (u.primDone p (.error (timeoutError p.step))) ∧ TimedOut l s u := by
  have hr : ((s.launch k v).beginWait p).running = false := by
    simp [State.running, State.beginWait, State.launch, hw.stall]
  have hc : waitCond p ((s.launch k v).beginWait p).twcr = false := by
    by_cases hp : p = .stop
    · subst hp
      simp [waitCond_stop, State.launch, Twi.fieldUpdate, hv rfl]
    · simp [waitCond_int hp, State.launch, Twi.fieldUpdate, hi]
  have h1 := reaches_recover (s := (s.launch k v).beginWait p) hw.eager hb rfl hr hc hw.limit hw.pos
  generalize hx : ({ ((s.launch k v).beginWait p) with seq := { ((s.launch k v).beginWait p).seq with
    polls := l, pos := .prim p .recover } } : State) = x at h1
  have h2 : step x = .next ((x.disable cmdDisable).primDone p (.error (timeoutError p.step))) := by
    have hp : x.seq.pos = .prim p .recover := by subst hx; rfl
    rw [step_sequencer_stalled (by subst hx; exact hw.eager) (by subst hx; exact hb) (by subst hx; exact hr), seqStep, hp]
    change primRecover p x = _
    rw [primRecover, writeTwcr_cmdDisable, andThen_next]
  refine ⟨_, h1.trans (.of_step h2), ?_⟩
  subst hx
  refine ⟨rfl, rfl, rfl, rfl, rfl, rfl, ⟨rfl, rfl, rfl, ?_, rfl, ?_, rfl⟩, rfl⟩
  · change fieldEn s.cfg.layout cmdDisable = false
    cases s.cfg.layout <;> decide
  · simp [State.disable, State.beginWait, State.launch, Twi.fieldUpdate, hi]

/-- The engine state in which a primitive's launch is one of 30_encoding.md R89's lines 6 to 11. -/
def Prim.ready (p : Prim) (s : State) : Prop :=
  match p with
  | .start => True
  | .stop => True
  | .send _ _ => s.twi.twint = true ∧ s.twi.mode ≠ .none ∧ s.twi.mode ≠ .mrEnd
  | .recv _ _ => s.twi.mode = .mr

/-- In a mode that launches a byte, CMD_TX launches one. -/
theorem writeTwcr_cmdTx {s : State} (ho : s.twi.op = none) (h1 : s.twi.mode ≠ .none) (h2 : s.twi.mode ≠ .mrEnd) :
    ∃ k, s.writeTwcr (cmdTx s.cfg.layout) = .next (s.launch k (cmdTx s.cfg.layout)) := by
  cases hm : s.twi.mode
  case none => exact absurd hm h1
  case afterStart => exact ⟨_, writeTwcr_cmdTx_sla ho hm⟩
  case mt => exact ⟨_, writeTwcr_cmdTx_tx ho hm⟩
  case mr =>
    refine ⟨.rx, ?_⟩
    have hl : s.line (cmdTx s.cfg.layout) = .rxNack := by
      cases h : s.cfg.layout <;>
        simp [State.line, twcrLine, Twi.busy, ho, h, hm, cmdTx, fieldEn, fieldInt, fieldSta, fieldSto, fieldEa]
    simp [State.writeTwcr, hl, State.lineEffect]
  case mrEnd => exact absurd hm h2

/-- A primitive whose operation stalls ends with the Timeout of its step. -/
theorem prim_times_out {s : State} {p : Prim} {l : Nat} (hw : s.LaunchStalls l) (hb : s.seq.seqBusy = true)
    (ho : s.twi.op = none) (hr : p.ready s) (hp : s.seq.pos = .prim p .write) :
    ∃ u, Reaches s (u.primDone p (.error (timeoutError p.step))) ∧ TimedOut l s u := by
  cases p with
  | start =>
    obtain ⟨u, hu, ht⟩ := stalled_runs (p := .start) (k := .start) hw hb (fieldInt_cmd s.cfg.layout).1 (by simp)
    refine ⟨u, .head ?_ hu, ht⟩
    rw [step_prim hw.eager hb ho hp, primStep, primWrite, writeTwcr_cmdStart ho, andThen_next]
  | stop =>
    obtain ⟨u, hu, ht⟩ := stalled_runs (p := .stop) (k := .stop) hw hb (fieldInt_cmd s.cfg.layout).2.1
      (fun _ => (fieldSto_cmd s.cfg.layout).2.1)
    refine ⟨u, .head ?_ hu, ht⟩
    rw [step_prim hw.eager hb ho hp, primStep, primWrite, writeTwcr_cmdStop ho, andThen_next]
  | send b role =>
    have h0 := send_loads hw.eager hb ho hr.1 hp
    obtain ⟨k, hk⟩ := writeTwcr_cmdTx (s := s.loaded b (.send b role)) ho hr.2.1 hr.2.2
    obtain ⟨u, hu, ht⟩ := stalled_runs (s := s.loaded b (.send b role)) (p := .send b role) (k := k)
      ⟨hw.eager, hw.stall, hw.limit, hw.pos⟩ hb (fieldInt_cmd s.cfg.layout).2.2.1 (by simp)
    refine ⟨u, h0.trans (.head ?_ hu), ⟨ht.cfg, ht.fb, ht.host, ?_, ht.twbr, ht.twps, ht.off, ht.trace⟩⟩
    · rw [step_prim (s := s.loaded b (.send b role)) hw.eager hb ho rfl, primStep, primLaunch, hk, andThen_next]
      rfl
    · rw [ht.seq]
      rfl
  | recv ack i =>
    have hv : fieldInt (cmdRx s.cfg.layout ack) = true := by
      cases ack
      · exact (fieldInt_cmd _).2.2.2.2
      · exact (fieldInt_cmd _).2.2.2.1
    obtain ⟨u, hu, ht⟩ := stalled_runs (p := .recv ack i) (k := .rx) hw hb hv (by simp)
    refine ⟨u, .head ?_ hu, ht⟩
    rw [step_prim hw.eager hb ho hp, primStep, primWrite]
    have := writeTwcr_cmdRx (ack := ack) ho hr
    unfold cmdRx at this ⊢
    rw [this, andThen_next]

end Sys2Proof.Machine
end

