-- ==== Sys2Proof/Laws/Txn.lean ====
section
/-! SUPPORT. What a run of a whole transaction does (42_bus_transactions.md R181-R185), up to its end `txnDone`: the way to
each of its primitives, where it fails there, and the write transaction with any answers. -/

namespace Sys2Proof.Machine

/-! ### What a transaction leaves alone -/

/-- A transaction touches the TWI unit, the trace and the draws, and of the sequencer its position, counter, status, loop
variable and the transaction itself. -/
structure TxnKeep (s u : State) : Prop where
  cfg : u.cfg = s.cfg
  fb : u.fb = s.fb
  host : u.host = s.host
  seq : u.seq = { s.seq with
    polls := u.seq.polls, pos := u.seq.pos, lastStatus := u.seq.lastStatus, txn := u.seq.txn
    locals := { s.seq.locals with i := u.seq.locals.i } }
  twbr : u.twi.twbr = s.twi.twbr
  twps : u.twi.twps = s.twi.twps

theorem TxnKeep.refl (s : State) : TxnKeep s s := ⟨rfl, rfl, rfl, rfl, rfl, rfl⟩

theorem TxnKeep.trans {s u v : State} (h1 : TxnKeep s u) (h2 : TxnKeep u v) : TxnKeep s v := by
  refine ⟨h2.cfg.trans h1.cfg, h2.fb.trans h1.fb, h2.host.trans h1.host, ?_, h2.twbr.trans h1.twbr, h2.twps.trans h1.twps⟩
  rw [h2.seq, h1.seq]

theorem PrimFrame.keep {s u : State} (h : PrimFrame s u) : TxnKeep s u :=
  ⟨h.cfg, h.fb, h.host, by rw [h.seq], h.twbr, h.twps⟩

theorem TxnKeep.seqBusy {s u : State} (h : TxnKeep s u) : u.seq.seqBusy = s.seq.seqBusy := by rw [h.seq]
theorem TxnKeep.req {s u : State} (h : TxnKeep s u) : u.seq.req = s.seq.req := by rw [h.seq]
theorem TxnKeep.isOpen {s u : State} (h : TxnKeep s u) : u.seq.isOpen = s.seq.isOpen := by rw [h.seq]
theorem TxnKeep.job {s u : State} (h : TxnKeep s u) : u.seq.job = s.seq.job := by rw [h.seq]
theorem TxnKeep.jobs {s u : State} (h : TxnKeep s u) : u.seq.jobs = s.seq.jobs := by rw [h.seq]
theorem TxnKeep.page {s u : State} (h : TxnKeep s u) : u.seq.locals.p = s.seq.locals.p := by rw [h.seq]
theorem TxnKeep.waitsEnd {s u : State} (h : TxnKeep s u) (hw : s.waitsEnd) : u.waitsEnd :=
  State.waitsEnd_congr h.cfg (by rw [h.host]) hw

theorem State.sendFrom_keep (bytes : List Byte) (i : Nat) (s : State) : TxnKeep s (s.sendFrom bytes i) := by
  unfold State.sendFrom
  dsimp only
  split <;> exact ⟨rfl, rfl, rfl, rfl, rfl, rfl⟩

theorem State.recvFrom_keep (n i : Nat) (s : State) : TxnKeep s (s.recvFrom n i) := by
  unfold State.recvFrom
  dsimp only
  split <;> exact ⟨rfl, rfl, rfl, rfl, rfl, rfl⟩

/-- A local computation of the sequencer leaves the draws of acknowledgements alone. -/
@[simp] theorem State.sendFrom_oracle (bytes : List Byte) (i : Nat) (s : State) : (s.sendFrom bytes i).oracle = s.oracle := by
  unfold State.sendFrom; dsimp only; split <;> rfl
@[simp] theorem State.recvFrom_oracle (n i : Nat) (s : State) : (s.recvFrom n i).oracle = s.oracle := by
  unfold State.recvFrom; dsimp only; split <;> rfl

/-! ### The return of a primitive inside a transaction -/

theorem primDone_ok {s : State} {p : Prim} {v : List Byte} {t : TxnFrame} (h : s.seq.txn = some t)
    (hr : t.releasing = none) : s.primDone p (.ok v) = s.txnNext t p v := by
  unfold State.primDone
  rw [h]
  dsimp only
  rw [hr]

theorem primDone_error {s : State} {p : Prim} {e : BusError} {t : TxnFrame} (h : s.seq.txn = some t)
    (hr : t.releasing = none) : s.primDone p (.error e) = s.release t e := by
  unfold State.primDone
  rw [h]
  dsimp only
  rw [hr]

theorem primDone_releasing {s : State} {p : Prim} {v : List Byte} {t : TxnFrame} {e : BusError} (h : s.seq.txn = some t)
    (hr : t.releasing = some e) : s.primDone p (.ok v) = s.txnDone (.error { e with released := some true }) := by
  unfold State.primDone
  rw [h]
  dsimp only
  rw [hr]
  rfl

/-- The return of a raw primitive (41_bus_primitives.md R167). -/
theorem primDone_raw_ok {s : State} {p : Prim} {v : List Byte} (h : s.seq.txn = none) :
    s.primDone p (.ok v) = s.respond (.ok v) := by
  unfold State.primDone
  rw [h]

theorem primDone_raw_error {s : State} {p : Prim} {e : BusError} (h : s.seq.txn = none) :
    s.primDone p (.error e) = s.respond (.busErr e) := by
  unfold State.primDone
  rw [h]
  rfl

/-- The decision of sendByte's status read (41_bus_primitives.md R165). -/
theorem statusResult_send_ok {s : State} {b c : Byte} {role : SendRole} (h : c = role.expected) :
    s.statusResult (.send b role) c = s.primDone (.send b role) (.ok []) := if_pos h

theorem statusResult_send_error {s : State} {b c : Byte} {role : SendRole} (h : c ≠ role.expected) :
    s.statusResult (.send b role) c = s.primDone (.send b role) (.error (role.mismatch c)) := if_neg h

/-- The result of a raw sendByte is its response (41_bus_primitives.md R165, R167, R168). -/
theorem statusResult_send_raw {s : State} {b c : Byte} {role : Role} (h : s.seq.txn = none) :
    s.statusResult (.send b (Role.sendRole role)) c = s.respond (sendResponse role c) := by
  by_cases hc : c = (Role.sendRole role).expected
  · rw [statusResult_send_ok hc, primDone_raw_ok h]
    cases role <;> rw [hc] <;> rfl
  · rw [statusResult_send_error hc, primDone_raw_error h]
    cases role <;> exact congrArg (State.respond · s) (if_neg hc).symm

/-- The decision of start()'s status read (41_bus_primitives.md R163). -/
theorem statusResult_start_ok {s : State} {c : Byte} (h : c = codeStart) :
    s.statusResult .start c = s.primDone .start (.ok []) := if_pos h

theorem statusResult_start_error {s : State} {c : Byte} (h : c ≠ codeStart) :
    s.statusResult .start c = s.primDone .start (.error (protocolError .start c)) := if_neg h

/-! ### The end of a transaction -/

/-- The unit after a transaction's stop. -/
structure Stopped (u : State) : Prop where
  op : u.twi.op = none
  mode : u.twi.mode = .none
  twint : u.twi.twint = false
  twsto : u.twi.twsto = false
  twen : u.twi.twen = true
  tws : u.twi.tws = twsOf codeNone

theorem Stopped.busIdle {u : State} (h : Stopped u) : u.busIdle := ⟨h.op, h.mode⟩

/-- A transaction's stop ends with the bus released. -/
theorem txn_stop_runs {s : State} (hw : s.LaunchEnds) (hb : s.seq.seqBusy = true) (ho : s.twi.op = none)
    (hp : s.seq.pos = .prim .stop .write) :
    ∃ u, Reaches s (u.primDone .stop (.ok [])) ∧ TxnKeep s u ∧ Stopped u ∧ u.seq.txn = s.seq.txn ∧
      u.twi.twdr = s.twi.twdr ∧ u.trace = (if s.twi.mode = .none then s.trace else s.trace ++ [.stop]) ∧
      u.oracle.acks = s.oracle.acks ∧ u.oracle.rxs = s.oracle.rxs := by
  obtain ⟨u, hr, fr, -, h2, h3, h4, h5, h6, h7, h8, h9⟩ := stop_runs hw hb ho hp
  exact ⟨u, hr, fr.keep, ⟨fr.op, h2, h3, h4, fr.twen, h5⟩, fr.txn, h6, h7, h8, h9⟩

/-- `release(e)` after an error that is no Timeout: a stop, which succeeds (42_bus_transactions.md R185). -/
theorem release_runs {s : State} {t : TxnFrame} {e : BusError} (hw : s.LaunchEnds) (hb : s.seq.seqBusy = true)
    (ho : s.twi.op = none) (he : e.kind ≠ .timeout) :
    ∃ u, Reaches (s.release t e) (u.txnDone (.error { e with released := some true })) ∧ TxnKeep s u ∧ Stopped u ∧
      u.trace = (if s.twi.mode = .none then s.trace else s.trace ++ [.stop]) ∧ u.oracle.acks = s.oracle.acks := by
  rw [State.release, if_neg he]
  obtain ⟨u, hr, fr, hs, h1, -, h2, h3, -⟩ := txn_stop_runs
    (s := State.call .stop { s with seq := { s.seq with txn := some { t with releasing := some e } } })
    ⟨hw.eager, hw.stall, hw.inTime⟩ hb ho rfl
  refine ⟨u, ?_, TxnKeep.trans (u := State.call .stop { s with seq := { s.seq with txn := some { t with releasing := some e } } })
    ⟨rfl, rfl, rfl, rfl, rfl, rfl⟩ fr, hs, h2, h3⟩
  rwa [primDone_releasing (p := .stop) (v := []) (t := { t with releasing := some e }) (e := e) h1 rfl] at hr

/-- The direction bit of the address byte (30_encoding.md R94). -/
theorem slaByte_bit0 (a : Byte) (read : Bool) : (slaByte a read).getLsbD 0 = read := by
  revert a read
  decide

/-! ### Answers given in advance -/

/-- The next `n` launches end: nothing stalls and waits have no bound, or the answers given in advance say so, and the stall
draws after them are `qs`. -/
def State.Waits (n : Nat) (qs : List Bool) (s : State) : Prop :=
  s.hostEager = false ∧
    ((s.cfg.slaveMayStall = false ∧ s.cfg.pollLimit = none) ∨
      (s.cfg.slaveMayStall = true ∧ s.oracle.stalls = List.replicate n false ++ qs ∧
        ∃ ds rd, ds.length = n ∧ (∀ d ∈ ds, s.inTime d) ∧ s.oracle.delays = ds ++ rd))

theorem State.waitsEnd.waits {s : State} (h : s.waitsEnd) (n : Nat) (qs : List Bool) : s.Waits n qs :=
  ⟨h.2.2, .inl ⟨h.2.1, h.1⟩⟩

theorem State.Waits.launchEnds {n : Nat} {qs : List Bool} {s : State} (h : s.Waits (n + 1) qs) : s.LaunchEnds := by
  obtain ⟨he, ⟨h1, h2⟩ | ⟨h1, h2, ds, rd, h3, h4, h5⟩⟩ := h
  · exact ⟨he, by rw [State.drawStall_of_not_may h1], fun l hl => by rw [h2] at hl; cases hl⟩
  · cases ds with
    | nil => cases h3
    | cons d ds =>
      refine ⟨he, ?_, ?_⟩
      · simp [State.drawStall, h1, Oracle.stall, draw, h2, List.replicate_succ]
      · have : s.drawStall.2.delay.1 = d := by simp [State.drawStall, h1, Oracle.stall, Oracle.delay, draw, h5]
        rw [this]
        exact h4 d (by simp)

/-- One launch less. -/
theorem State.Waits.next {n : Nat} {qs : List Bool} {s u : State} (h : s.Waits (n + 1) qs) (fr : PrimFrame s u) :
    u.Waits n qs := by
  obtain ⟨he, ⟨h1, h2⟩ | ⟨h1, h2, ds, rd, h3, h4, h5⟩⟩ := h
  · exact ⟨by rw [State.hostEager_congr (s := s) (by rw [fr.host]), he], .inl ⟨by rw [fr.cfg, h1], by rw [fr.cfg, h2]⟩⟩
  · cases ds with
    | nil => cases h3
    | cons d ds =>
      refine ⟨by rw [State.hostEager_congr (s := s) (by rw [fr.host]), he], .inr ⟨by rw [fr.cfg, h1], ?_, ds, rd, ?_, ?_, ?_⟩⟩
      · rw [fr.stalls]
        simp [State.drawStall, h1, Oracle.stall, draw, h2, List.replicate_succ]
      · simpa using h3
      · intro d hd l hl
        exact h4 d (by simp [hd]) l (by rw [← fr.cfg]; exact hl)
      · rw [fr.delays]
        simp [State.drawStall, h1, Oracle.stall, Oracle.delay, draw, h5]

/-- A change of the sequencer's own state changes no answer. -/
theorem State.Waits.congr {n : Nat} {qs : List Bool} {s u : State} (h : s.Waits n qs) (hc : u.cfg = s.cfg)
    (ho : u.oracle = s.oracle) (hh : u.host = s.host) : u.Waits n qs := by
  unfold State.Waits State.hostEager State.inTime at *
  rw [hc, ho, hh]
  exact h

/-- The next launch stalls. -/
theorem State.Waits.stalls {qs : List Bool} {s : State} {l : Nat} (h : s.Waits 0 (true :: qs))
    (hm : s.cfg.slaveMayStall = true) (hl : s.cfg.pollLimit = some l) (h1 : 1 ≤ l) : s.LaunchStalls l := by
  obtain ⟨he, ⟨h0, -⟩ | ⟨-, h2, -⟩⟩ := h
  · rw [hm] at h0
    cases h0
  · exact ⟨he, by simp [State.drawStall, hm, Oracle.stall, draw, h2], hl, h1⟩

/-- Whether each of the next completions is a bus error. -/
def State.Errs (q : List Bool) (s : State) : Prop :=
  (s.cfg.busErrorPossible = false ∧ ∀ e ∈ q, e = false) ∨
    (s.cfg.busErrorPossible = true ∧ ∃ rest, s.oracle.busErrs = q ++ rest)

theorem State.Errs.none {s : State} (h : s.cfg.busErrorPossible = false) (n : Nat) :
    s.Errs (List.replicate n false) := .inl ⟨h, fun _ he => (List.mem_replicate.1 he).2⟩

theorem State.Errs.drawn {s u : State} {e d : Bool} {q : List Bool} (h : s.Errs (e :: q)) (hc : u.cfg = s.cfg)
    (hd : ErrDrawn s.cfg.busErrorPossible d s.oracle.busErrs u.oracle.busErrs) : d = e ∧ u.Errs q := by
  obtain ⟨h1, h2⟩ | ⟨h1, rest, h2⟩ := h
  · exact ⟨by rw [(hd.none h1).1, h2 e (by simp)], .inl ⟨by rw [hc, h1], fun x hx => h2 x (by simp [hx])⟩⟩
  · rw [h2, List.cons_append] at hd
    exact ⟨(hd.given h1).1, .inr ⟨by rw [hc, h1], rest, (hd.given h1).2⟩⟩

theorem State.Errs.congr {q : List Bool} {s u : State} (h : s.Errs q) (hc : u.cfg = s.cfg) (ho : u.oracle = s.oracle) :
    u.Errs q := by
  unfold State.Errs at *
  rw [hc, ho]
  exact h

/-! ### A transaction in progress -/

/-- The transaction `t` begun in `s0` has come to `s`: the bus is in mode `m`, and the trace has gained `evs`. -/
structure TxnRan (s0 : State) (t : TxnFrame) (m : Mode) (evs : List Event) (s : State) : Prop where
  keep : TxnKeep s0 s
  txn : s.seq.txn = some t
  op : s.twi.op = none
  mode : s.twi.mode = m
  twint : m ≠ .none → s.twi.twint = true
  trace : s.trace = s0.trace ++ evs

theorem TxnRan.begin {s : State} (h : s.busIdle) (t : Txn) :
    TxnRan s { txn := t, buf := [], releasing := none } .none [] (s.startTxn t) :=
  ⟨⟨rfl, rfl, rfl, rfl, rfl, rfl⟩, rfl, h.1, h.2, by simp, by simp⟩

/-- A change of the sequencer's own position, loop variable and transaction. -/
theorem TxnRan.local {s0 s u : State} {t t' : TxnFrame} {m : Mode} {evs : List Event} (h : TxnRan s0 t m evs s)
    (hk : TxnKeep s u) (ht : u.seq.txn = some t') (hw : u.twi = s.twi) (hr : u.trace = s.trace) : TxnRan s0 t' m evs u :=
  ⟨h.keep.trans hk, ht, by rw [hw, h.op], by rw [hw, h.mode], fun hm => by rw [hw, h.twint hm], by rw [hr, h.trace]⟩

theorem TxnRan.seqBusy {s0 s : State} {t : TxnFrame} {m : Mode} {evs : List Event} (h : TxnRan s0 t m evs s)
    (hb : s0.seq.seqBusy = true) : s.seq.seqBusy = true := h.keep.seqBusy.trans hb

/-- start() inside a transaction, on an idle bus (41_bus_primitives.md R163). -/
theorem TxnRan.start {s0 s : State} {t : TxnFrame} {evs : List Event} {n : Nat} {qs q : List Bool} {e : Bool}
    (h : TxnRan s0 t .none evs s) (hb : s0.seq.seqBusy = true) (hr : t.releasing = none)
    (hp : s.seq.pos = .prim .start .write) (hw : s.Waits (n + 1) qs) (he : s.Errs (e :: q)) :
    ∃ u, Reaches s (if e then u.release t (protocolError .start codeBusError) else u.txnNext t .start []) ∧
      TxnRan s0 t (if e then .none else .afterStart) (evs ++ [if e then .busErr else .start]) u ∧
      u.Waits n qs ∧ u.Errs q ∧ u.oracle.acks = s.oracle.acks ∧ u.oracle.rxs = s.oracle.rxs := by
  obtain ⟨u, d, hu, fr, hd, h1, -, -, -, -, h5, h6, h7⟩ := start_runs hw.launchEnds (h.seqBusy hb) h.op hp
  obtain ⟨rfl, hq⟩ := he.drawn fr.cfg hd
  have hk : ∀ m evs', u.twi.mode = m → u.trace = s.trace ++ evs' → TxnRan s0 t m (evs ++ evs') u := fun m evs' hm ht =>
    ⟨h.keep.trans fr.keep, fr.txn.trans h.txn, fr.op, hm, fun _ => h1, by rw [ht, h.trace, List.append_assoc]⟩
  obtain ⟨rfl, -, g1, g2, g3⟩ | ⟨-, g0, -⟩ | ⟨rfl, g1, g2, g3⟩ := h7
  · rw [statusResult_start_ok g2, primDone_ok (fr.txn.trans h.txn) hr] at hu
    exact ⟨u, hu, hk _ _ g1 g3, hw.next fr, hq, h5, h6⟩
  · exact absurd h.mode g0
  · rw [statusResult_start_error (by rw [g2]; decide), primDone_error (fr.txn.trans h.txn) hr, g2] at hu
    exact ⟨u, hu, hk _ _ g1 g3, hw.next fr, hq, h5, h6⟩

/-- The mode a byte of this role is sent in, and the mode after the answer `a` (40_twi_unit.md R142-R144). -/
def SendRole.before (role : SendRole) : Mode :=
  match role with
  | .addrW => .afterStart
  | .addrR => .afterStart
  | .data _ => .mt

def SendRole.after (role : SendRole) (a : Ack) : Mode :=
  match role with
  | .addrW => .mt
  | .addrR => if a = .ack then .mr else .mrEnd
  | .data _ => .mt

/-- The status of the answer `a` (30_encoding.md R98). -/
def SendRole.code (role : SendRole) (a : Ack) : Byte :=
  match role with
  | .addrW => codeSlaW a
  | .addrR => codeSlaR a
  | .data _ => codeTx a

/-- The direction bit an address byte of this role has. -/
def SendRole.fits (role : SendRole) (b : Byte) : Prop :=
  match role with
  | .addrW => b.getLsbD 0 = false
  | .addrR => b.getLsbD 0 = true
  | .data _ => True

/-- sendByte inside a transaction (41_bus_primitives.md R165). -/
theorem TxnRan.send {s0 s : State} {t : TxnFrame} {evs : List Event} {n : Nat} {qs q : List Bool} {e : Bool}
    {b : Byte} {role : SendRole} {a : Ack} {qa : List Ack}
    (h : TxnRan s0 t role.before evs s) (hb : s0.seq.seqBusy = true) (hr : t.releasing = none) (hf : role.fits b)
    (hp : s.seq.pos = .prim (.send b role) .write) (hw : s.Waits (n + 1) qs) (he : s.Errs (e :: q))
    (hak : e = false → s.oracle.acks = a :: qa) :
    ∃ u, Reaches s (if e then u.release t (role.mismatch codeBusError)
        else if a = .ack then u.txnNext t (.send b role) [] else u.release t (role.mismatch (role.code a))) ∧
      TxnRan s0 t (if e then .none else role.after a) (evs ++ [if e then .busErr else .tx b a]) u ∧
      u.Waits n qs ∧ u.Errs q ∧ (e = false → u.oracle.acks = qa) ∧ u.oracle.rxs = s.oracle.rxs ∧ u.twi.twdr = b ∧
      u.seq.locals = s.seq.locals := by
  have hm : s.twi.mode = .afterStart ∨ s.twi.mode = .mt := by
    rw [h.mode]
    cases role <;> simp [SendRole.before]
  obtain ⟨u, d, c, hu, fr, hd, h1, -, -, h4, -, -, h6, h7⟩ := send_runs hw.launchEnds (h.seqBusy hb) h.op
    (h.twint (by cases role <;> simp [SendRole.before])) hm hp
  obtain ⟨rfl, hq⟩ := he.drawn fr.cfg hd
  have hk : ∀ m evs', u.twi.mode = m → u.trace = s.trace ++ evs' → TxnRan s0 t m (evs ++ evs') u := fun m evs' hm ht =>
    ⟨h.keep.trans fr.keep, fr.txn.trans h.txn, fr.op, hm, fun _ => h1, by rw [ht, h.trace, List.append_assoc]⟩
  obtain ⟨rfl, k1, k2, k3⟩ | ⟨rfl, g1, g2, g3, -⟩ := h7
  · have hc : c = a ∧ u.oracle.acks = qa := by
      rw [hak rfl] at k1
      obtain h | ⟨h, -⟩ := k1
      · simp only [List.cons.injEq] at h
        exact ⟨h.1.symm, h.2.symm⟩
      · cases h
    obtain ⟨rfl, hqa⟩ := hc
    have hst : u.twi.mode = role.after c ∧ u.seq.lastStatus = role.code c := by
      rw [h.mode] at k3
      cases role <;> simp [SendRole.before, SendRole.fits] at k3 hf
      · simpa [hf, SendRole.after, SendRole.code] using k3
      · simpa [hf, SendRole.after, SendRole.code] using k3
      · exact k3
    refine ⟨u, ?_, hk _ _ hst.1 k2, hw.next fr, hq, fun _ => hqa, h6, h4, fr.locals⟩
    rw [hst.2] at hu
    cases c
    · rw [statusResult_send_ok (by cases role <;> rfl), primDone_ok (fr.txn.trans h.txn) hr] at hu
      exact hu
    · rw [statusResult_send_error (by cases role <;> (intro h; cases h)), primDone_error (fr.txn.trans h.txn) hr] at hu
      exact hu
  · refine ⟨u, ?_, hk _ _ g1 g3, hw.next fr, hq, by simp, h6, h4, fr.locals⟩
    rw [statusResult_send_error (by rw [g2]; cases role <;> (intro h; cases h)), primDone_error (fr.txn.trans h.txn) hr, g2] at hu
    exact hu

/-- The decision of receiveByte's status read (41_bus_primitives.md R166). -/
theorem statusResult_recv_ok {s : State} {ack : Bool} {i : Nat} {c : Byte}
    (h : c = codeRx (if ack then .ack else .nack)) :
    s.statusResult (.recv ack i) c = s.goto (.prim (.recv ack i) .data) := if_pos h

theorem statusResult_recv_error {s : State} {ack : Bool} {i : Nat} {c : Byte}
    (h : c ≠ codeRx (if ack then .ack else .nack)) :
    s.statusResult (.recv ack i) c = s.primDone (.recv ack i) (.error (protocolError (.rx i) c)) := if_neg h

/-- receiveByte's data read, with nothing in flight (41_bus_primitives.md R166). -/
theorem data_runs {s : State} {ack : Bool} {i : Nat} (he : s.hostEager = false) (hb : s.seq.seqBusy = true)
    (ho : s.twi.op = none) :
    Reaches (s.goto (.prim (.recv ack i) .data))
      ((s.goto (.prim (.recv ack i) .data)).primDone (.recv ack i) (.ok [s.twi.twdr])) := by
  refine .of_step ?_
  rw [step_prim (s := s.goto (.prim (.recv ack i) .data)) he hb ho rfl, primStep, primData]
  have : (s.goto (.prim (.recv ack i) .data)).readTwdr = (s.twi.twdr, s.goto (.prim (.recv ack i) .data)) := by
    simp [State.readTwdr, Twi.busy, ho]
  rw [this]

/-- receiveByte inside a transaction (41_bus_primitives.md R166). -/
theorem TxnRan.recv {s0 s : State} {t : TxnFrame} {evs : List Event} {n : Nat} {qs q : List Bool} {e : Bool}
    {ack : Bool} {i : Nat} {r : Byte} {qr : List Byte}
    (h : TxnRan s0 t .mr evs s) (hb : s0.seq.seqBusy = true) (hr : t.releasing = none)
    (hp : s.seq.pos = .prim (.recv ack i) .write) (hw : s.Waits (n + 1) qs) (he : s.Errs (e :: q))
    (hrx : e = false → s.oracle.rxs = r :: qr) :
    ∃ u, Reaches s (if e then u.release t (protocolError (.rx i) codeBusError) else u.txnNext t (.recv ack i) [r]) ∧
      TxnRan s0 t (if e then .none else if ack then .mr else .mrEnd)
        (evs ++ [if e then .busErr else .rx r (if ack then .ack else .nack)]) u ∧
      u.Waits n qs ∧ u.Errs q ∧ (e = false → u.oracle.rxs = qr ∧ u.twi.twdr = r) ∧ u.seq.locals = s.seq.locals := by
  obtain ⟨u, d, c, hu, fr, hd, h1, -, -, -, -, -, -, h7⟩ := recv_runs hw.launchEnds (h.seqBusy hb) h.op h.mode hp
  obtain ⟨rfl, hq⟩ := he.drawn fr.cfg hd
  have hk : ∀ m evs', u.twi.mode = m → u.trace = s.trace ++ evs' → TxnRan s0 t m (evs ++ evs') u := fun m evs' hm ht =>
    ⟨h.keep.trans fr.keep, fr.txn.trans h.txn, fr.op, hm, fun _ => h1, by rw [ht, h.trace, List.append_assoc]⟩
  have hq' := hw.next fr
  obtain ⟨rfl, k1, k2, k3, k4, k5⟩ | ⟨rfl, g1, g2, g3, -⟩ := h7
  · have hc : c = r ∧ u.oracle.rxs = qr := by
      rw [hrx rfl] at k1
      obtain h | ⟨h, -⟩ := k1
      · simp only [List.cons.injEq] at h
        exact ⟨h.1.symm, h.2.symm⟩
      · cases h
    obtain ⟨rfl, hqr⟩ := hc
    have hu' := data_runs (s := u) (ack := ack) (i := i) hq'.1 (fr.seqBusy.trans (h.seqBusy hb)) fr.op
    rw [primDone_ok (s := u.goto (.prim (.recv ack i) .data)) (fr.txn.trans h.txn) hr, k2] at hu'
    rw [statusResult_recv_ok k5] at hu
    have hg : TxnKeep u (u.goto (.prim (.recv ack i) .data)) := ⟨rfl, rfl, rfl, rfl, rfl, rfl⟩
    exact ⟨u.goto (.prim (.recv ack i) .data), hu.trans hu', (hk _ _ k4 k3).local hg (fr.txn.trans h.txn) rfl rfl,
      hq'.congr rfl rfl rfl, hq.congr rfl rfl, fun _ => ⟨hqr, k2⟩, fr.locals⟩
  · refine ⟨u, ?_, hk _ _ g1 g3, hq', hq, by simp, fr.locals⟩
    rw [statusResult_recv_error (by rw [g2]; cases ack <;> decide), primDone_error (fr.txn.trans h.txn) hr, g2] at hu
    exact hu

/-- The final stop of a transaction, and the release stop (42_bus_transactions.md R181, R185). -/
theorem TxnRan.release {s0 s : State} {t : TxnFrame} {m : Mode} {evs : List Event} {n : Nat} {qs : List Bool} {e : BusError}
    (h : TxnRan s0 t m evs s) (hb : s0.seq.seqBusy = true) (hw : s.Waits (n + 1) qs) (he : e.kind ≠ .timeout) :
    ∃ u, Reaches (s.release t e) (u.txnDone (.error { e with released := some true })) ∧ TxnKeep s0 u ∧ Stopped u ∧
      u.trace = s0.trace ++ evs ++ (if m = .none then [] else [.stop]) := by
  obtain ⟨u, hu, fu, hs, h1, -⟩ := release_runs (t := t) hw.launchEnds (h.seqBusy hb) h.op he
  refine ⟨u, hu, h.keep.trans fu, hs, ?_⟩
  rw [h1, h.mode, h.trace]
  split <;> simp

/-- A primitive inside a transaction whose operation stalls: the transaction ends with its Timeout, and nothing is released
(42_bus_transactions.md R185). -/
theorem TxnRan.timesOut {s0 s : State} {t : TxnFrame} {m : Mode} {evs : List Event} {l : Nat} {p : Prim}
    (h : TxnRan s0 t m evs s) (hb : s0.seq.seqBusy = true) (hr : t.releasing = none) (hw : s.LaunchStalls l)
    (hp : s.seq.pos = .prim p .write) (hy : p.ready s) :
    ∃ u, Reaches s (u.txnDone (.error (timeoutError p.step))) ∧ TxnKeep s0 u ∧ Recovered l u ∧
      u.trace = s0.trace ++ evs ++ (if m = .none then [] else [.abort]) := by
  obtain ⟨u, hu, ht⟩ := prim_times_out hw (h.seqBusy hb) h.op hy hp
  have hk : TxnKeep s u := ⟨ht.cfg, ht.fb, ht.host, by rw [ht.seq], ht.twbr, ht.twps⟩
  rw [primDone_error (t := t) (by rw [ht.seq]; exact h.txn) hr] at hu
  refine ⟨u, hu, h.keep.trans hk, ht.off, ?_⟩
  rw [ht.trace, h.mode, h.trace]
  split <;> simp

/-- A release stop that stalls: the primary error, with the release recorded as failed (42_bus_transactions.md R185). -/
theorem TxnRan.releaseTimesOut {s0 s : State} {t : TxnFrame} {m : Mode} {evs : List Event} {l : Nat} {e : BusError}
    (h : TxnRan s0 t m evs s) (hb : s0.seq.seqBusy = true) (hw : s.LaunchStalls l) (he : e.kind ≠ .timeout) :
    ∃ u, Reaches (s.release t e) (u.txnDone (.error { e with released := some false })) ∧ TxnKeep s0 u ∧ Recovered l u ∧
      u.trace = s0.trace ++ evs ++ (if m = .none then [] else [.abort]) := by
  rw [State.release, if_neg he]
  obtain ⟨u, hu, ht⟩ := prim_times_out
    (s := State.call .stop { s with seq := { s.seq with txn := some { t with releasing := some e } } }) (p := .stop)
    ⟨hw.eager, hw.stall, hw.limit, hw.pos⟩ (h.seqBusy hb) h.op trivial rfl
  have hd : u.primDone .stop (.error (timeoutError Prim.stop.step)) = u.txnDone (.error { e with released := some false }) := by
    unfold State.primDone
    rw [ht.seq]
    rfl
  rw [hd] at hu
  have hk : TxnKeep s u := ⟨ht.cfg, ht.fb, ht.host, by rw [ht.seq]; rfl, ht.twbr, ht.twps⟩
  refine ⟨u, hu, h.keep.trans hk, ht.off, ?_⟩
  rw [ht.trace]
  change (if s.twi.mode = .none then s.trace else s.trace ++ [.abort]) = _
  rw [h.mode, h.trace]
  split <;> simp

/-! ### The write transaction (42_bus_transactions.md R181) -/

/-- The `k`-th primitive of a write transaction. -/
def writePrim (a : Byte) (bytes : List Byte) (k : Nat) : Prim :=
  match k with
  | 0 => .start
  | 1 => .send (slaByte a false) .addrW
  | i + 2 =>
    match bytes[i]? with
    | some b => .send b (.data i)
    | none => .stop

/-- The mode of the bus before it. -/
def writeMode (k : Nat) : Mode :=
  match k with
  | 0 => .none
  | 1 => .afterStart
  | _ + 2 => .mt

theorem writeMode_eq_none {k : Nat} : writeMode k = .none ↔ k = 0 := by
  match k with
  | 0 => simp [writeMode]
  | 1 => simp [writeMode]
  | k + 2 => simp [writeMode]

theorem writePrim_data {bytes : List Byte} {i : Nat} {b : Byte} (a : Byte) (h : bytes[i]? = some b) :
    writePrim a bytes (i + 2) = .send b (.data i) := by
  simp only [writePrim, h]

/-- After the last sent byte, the stop. -/
theorem writePrim_stop {bytes : List Byte} {i : Nat} (a : Byte) (h : bytes.length ≤ i) :
    writePrim a bytes (i + 2) = .stop := by
  simp only [writePrim, List.getElem?_eq_none h]

theorem writePrim_step (a : Byte) (bytes : List Byte) {k : Nat} :
    (writePrim a bytes k).step = writeStep bytes.length k := by
  match k with
  | 0 => rfl
  | 1 => rfl
  | i + 2 =>
    rw [writeStep]
    by_cases h : i < bytes.length
    · rw [writePrim_data a (List.getElem?_eq_getElem h), if_pos h]
      rfl
    · rw [writePrim_stop a (by omega), if_neg h]
      rfl

theorem State.sendFrom_eq (a : Byte) (bytes : List Byte) (i : Nat) (s : State) :
    s.sendFrom bytes i =
      State.call (writePrim a bytes (i + 2)) { s with seq := { s.seq with locals := { s.seq.locals with i := i } } } := by
  by_cases h : i < bytes.length
  · rw [writePrim_data a (List.getElem?_eq_getElem h), State.sendFrom, List.drop_eq_getElem_cons h]
  · rw [writePrim_stop a (by omega), State.sendFrom, List.drop_eq_nil_of_le (by omega)]

/-- The state in which a write transaction comes to its `k`-th primitive. -/
structure AtWrite (s0 : State) (a : Byte) (bytes : List Byte) (k : Nat) (s : State) : Prop where
  ran : TxnRan s0 { txn := .write a bytes, buf := [], releasing := none } (writeMode k) ((writeTrace a bytes).take k) s
  pos : s.seq.pos = .prim (writePrim a bytes k) .write
  index : ∀ i, k = i + 2 → s.seq.locals.i = i
  twdr : ∀ i, k = i + 2 → s.twi.twdr = (bytes.take i).getLast?.getD (slaByte a false)

theorem AtWrite.ready {s0 s : State} {a : Byte} {bytes : List Byte} {k : Nat} (h : AtWrite s0 a bytes k s) :
    (writePrim a bytes k).ready s := by
  have hm := h.ran.mode
  have hi := h.ran.twint
  match k with
  | 0 => trivial
  | 1 => exact ⟨hi (by simp [writeMode]), by rw [hm]; simp [writeMode], by rw [hm]; simp [writeMode]⟩
  | i + 2 =>
    cases hb : bytes[i]? with
    | none =>
      rw [writePrim_stop a (List.getElem?_eq_none_iff.1 hb)]
      trivial
    | some b =>
      rw [writePrim_data a hb]
      exact ⟨hi (by simp [writeMode]), by rw [hm]; simp [writeMode], by rw [hm]; simp [writeMode]⟩

theorem writeTrace_take_last (a : Byte) (bytes : List Byte) :
    (writeTrace a bytes).take (bytes.length + 2) ++ [.stop] = writeTrace a bytes := by
  unfold writeTrace
  rw [List.take_left' (by simp)]

/-- The `k`-th sent byte of a write transaction, as the primitive that sends it. -/
theorem writePrim_send {a : Byte} {bytes : List Byte} {k : Nat} {b : Byte} (h : (slaByte a false :: bytes)[k]? = some b) :
    ∃ role : SendRole, writePrim a bytes (k + 1) = .send b role ∧ role.before = writeMode (k + 1) ∧ role.fits b ∧
      (∀ c, role.after c = .mt) ∧ (∀ i, k + 1 = i + 2 → role = .data i) ∧
      { role.mismatch (role.code .nack) with released := some true } = nackError k := by
  match k with
  | 0 =>
    cases h
    exact ⟨.addrW, rfl, rfl, slaByte_bit0 _ _, fun _ => rfl, by omega, rfl⟩
  | i + 1 =>
    rw [List.getElem?_cons_succ] at h
    exact ⟨.data i, writePrim_data a h, rfl, trivial, fun _ => rfl, fun j hj => by rw [show j = i by omega], rfl⟩

/-- The events of the first primitives of a write transaction, one more. -/
theorem writeTrace_take_send {a : Byte} {bytes : List Byte} {k : Nat} {b : Byte}
    (h : (slaByte a false :: bytes)[k]? = some b) :
    (writeTrace a bytes).take (k + 2) = (writeTrace a bytes).take (k + 1) ++ [.tx b .ack] := by
  rw [List.take_add_one]
  congr 1
  unfold writeTrace
  match k with
  | 0 =>
    cases h
    rfl
  | i + 1 =>
    rw [List.getElem?_cons_succ] at h
    obtain ⟨hi, rfl⟩ := List.getElem?_eq_some_iff.1 h
    simp [List.getElem?_append, hi]

/-- A write transaction comes to its `k`-th primitive, where the launches and completions before it succeed and every byte
before it is acknowledged. -/
theorem write_reaches {s : State} {a : Byte} {bytes : List Byte} {k n : Nat} {qs q : List Bool} {qa : List Ack}
    (hb : s.seq.seqBusy = true) (hidle : s.busIdle) (hk : k ≤ bytes.length + 2) (hw : s.Waits (k + n) qs)
    (he : s.Errs (List.replicate k false ++ q)) (hak : s.oracle.acks = List.replicate (k - 1) Ack.ack ++ qa) :
    ∃ u, Reaches (s.startTxn (.write a bytes)) u ∧ AtWrite s a bytes k u ∧ u.Waits n qs ∧ u.Errs q ∧ u.oracle.acks = qa := by
  induction k generalizing n q qa with
  | zero =>
    exact ⟨_, .refl _, ⟨.begin hidle _, rfl, by omega, by omega⟩, (by simpa using hw : s.Waits n qs).congr rfl rfl rfl,
      (by simpa using he : s.Errs q).congr rfl rfl, hak⟩
  | succ k ih =>
    have he' : s.Errs (List.replicate k false ++ (false :: q)) := by
      rw [List.replicate_succ'] at he
      simpa using he
    match k with
    | 0 =>
      obtain ⟨u, hu, hat, hw1, he1, ha1⟩ := ih (n := n + 1) (q := false :: q) (qa := qa) (by omega)
        (by rw [show 0 + (n + 1) = 0 + 1 + n by omega]; exact hw) he' hak
      obtain ⟨v, hv, hran, hw2, he2, ha2, -⟩ := hat.ran.start hb rfl hat.pos hw1 he1
      refine ⟨_, hu.trans hv, ⟨?_, rfl, by omega, by omega⟩, hw2.congr rfl rfl rfl, he2.congr rfl rfl, ha2.trans ha1⟩
      exact hran.local ⟨rfl, rfl, rfl, rfl, rfl, rfl⟩ hran.txn rfl rfl
    | k + 1 =>
      have hlt : k < (slaByte a false :: bytes).length := by simp; omega
      obtain ⟨role, h1, h2, h3, h4, h5, -⟩ := writePrim_send (List.getElem?_eq_getElem hlt)
      obtain ⟨u, hu, hat, hw1, he1, ha1⟩ := ih (n := n + 1) (q := false :: q) (qa := .ack :: qa) (by omega)
        (by rw [show k + 1 + (n + 1) = k + 1 + 1 + n by omega]; exact hw) he'
        (by rw [hak]; simp [List.replicate_succ'])
      have hran1 := hat.ran
      rw [← h2] at hran1
      obtain ⟨v, hv, hran, hw2, he2, ha2, -, hd, hloc⟩ := hran1.send (a := .ack) (qa := qa) hb rfl h3
        (by rw [hat.pos, h1]) hw1 he1 (fun _ => ha1)
      simp only [Bool.false_eq_true, if_false, if_true] at hv hran
      rw [h4, ← writeTrace_take_send (List.getElem?_eq_getElem hlt)] at hran
      have hnx : v.txnNext { txn := .write a bytes, buf := [], releasing := none } (.send (slaByte a false :: bytes)[k] role) [] =
          v.sendFrom bytes k := by
        match k with
        | 0 =>
          have : role = .addrW := by
            unfold writePrim at h1
            cases h1
            rfl
          subst this
          rfl
        | i + 1 =>
          rw [h5 i rfl]
          change v.sendFrom bytes (v.seq.locals.i + 1) = _
          rw [hloc, hat.index i rfl]
      rw [hnx, State.sendFrom_eq a] at hv
      refine ⟨_, hu.trans hv, ⟨?_, rfl, ?_, ?_⟩, hw2.congr rfl rfl rfl, he2.congr rfl rfl, ha2 rfl⟩
      · exact hran.local ⟨rfl, rfl, rfl, rfl, rfl, rfl⟩ hran.txn rfl rfl
      · intro i hi
        rw [show i = k by omega]
        rfl
      · intro i hi
        rw [show i = k by omega]
        change v.twi.twdr = _
        rw [hd]
        match k with
        | 0 => rfl
        | i + 1 =>
          have hlt' : i < bytes.length := by simp at hlt; omega
          simp [List.getLast?_take, hlt']

/-- A write transaction with every byte acknowledged. -/
theorem write_runs {s : State} {a : Byte} {bytes : List Byte} {rest : List Ack} (hw : s.waitsEnd)
    (hbe : s.cfg.busErrorPossible = false) (hb : s.seq.seqBusy = true) (hidle : s.busIdle)
    (hak : s.oracle.acks = List.replicate (bytes.length + 1) Ack.ack ++ rest) :
    ∃ u, Reaches (s.startTxn (.write a bytes)) (u.txnDone (.ok [])) ∧ TxnKeep s u ∧ Stopped u ∧
      u.trace = s.trace ++ writeTrace a bytes ∧ u.oracle.acks = rest ∧
      u.twi.twdr = bytes.getLast?.getD (slaByte a false) := by
  obtain ⟨u, hu, hat, hw1, -, ha1⟩ := write_reaches (a := a) (bytes := bytes) (k := bytes.length + 2) (n := 1) (q := []) (qa := rest) hb hidle
    (Nat.le_refl _) (hw.waits _ []) (by simpa using State.Errs.none hbe _) hak
  obtain ⟨v, hv, fv, hs, h1, h2, h3, h4, -⟩ := txn_stop_runs hw1.launchEnds (hat.ran.seqBusy hb) hat.ran.op
    (by rw [hat.pos, writePrim_stop a (Nat.le_refl _)])
  rw [primDone_ok (h1.trans hat.ran.txn) rfl] at hv
  refine ⟨v, hu.trans hv, hat.ran.keep.trans fv, hs, ?_, h4.trans ha1, ?_⟩
  · rw [h3, hat.ran.mode, if_neg (by simp [writeMode]), hat.ran.trace, List.append_assoc, writeTrace_take_last]
  · rw [h2, hat.twdr bytes.length rfl, List.take_length]

/-- A write transaction whose `k`-th sent byte is not acknowledged. -/
theorem write_nack {s : State} {a : Byte} {bytes : List Byte} {k : Nat} {rest : List Ack} (hw : s.waitsEnd)
    (hbe : s.cfg.busErrorPossible = false) (hb : s.seq.seqBusy = true) (hidle : s.busIdle) (hk : k ≤ bytes.length)
    (hak : s.oracle.acks = List.replicate k Ack.ack ++ .nack :: rest) :
    ∃ u, Reaches (s.startTxn (.write a bytes)) (u.txnDone (.error (nackError k))) ∧ TxnKeep s u ∧ Stopped u ∧
      u.trace = s.trace ++ nackTrace a bytes k := by
  have hlt : k < (slaByte a false :: bytes).length := by simp; omega
  obtain ⟨role, h1, h2, h3, h4, -, h6⟩ := writePrim_send (List.getElem?_eq_getElem hlt)
  obtain ⟨u, hu, hat, hw1, he1, ha1⟩ := write_reaches (a := a) (bytes := bytes) (k := k + 1) (n := 2) (q := [false]) (qa := .nack :: rest) hb hidle
    (by omega) (hw.waits _ []) (by simpa [← List.replicate_succ'] using State.Errs.none hbe (k + 2)) hak
  have hran1 := hat.ran
  rw [← h2] at hran1
  obtain ⟨v, hv, hran, hw2, -⟩ := hran1.send (a := .nack) (qa := rest) hb rfl h3 (by rw [hat.pos, h1]) hw1 he1 (fun _ => ha1)
  simp only [Bool.false_eq_true, if_false, reduceCtorEq] at hv hran
  rw [h4] at hran
  obtain ⟨w, hw', kw, sw, tw⟩ := hran.release (e := role.mismatch (role.code .nack)) hb hw2
    (by cases role <;> simp [SendRole.mismatch])
  rw [h6] at hw'
  refine ⟨w, hu.trans (hv.trans hw'), kw, sw, ?_⟩
  rw [tw, nackTrace, nackEvents, List.getElem?_eq_getElem hlt]
  simp

/-- A write transaction whose `k`-th primitive ends in a bus error: no STOP event, since the bus is not held. -/
theorem write_busErr {s : State} {a : Byte} {bytes : List Byte} {k : Nat} {q : List Bool} {rest : List Ack} (hw : s.waitsEnd)
    (hb : s.seq.seqBusy = true) (hidle : s.busIdle) (hk : k ≤ bytes.length + 1)
    (he : s.Errs (List.replicate k false ++ true :: q)) (hak : s.oracle.acks = List.replicate (k - 1) Ack.ack ++ rest) :
    ∃ u, Reaches (s.startTxn (.write a bytes)) (u.txnDone (.error
        { kind := if k ≤ 1 then .protocol else .nack, step := writeStep bytes.length k, status := some 0x00#8
          released := some true })) ∧
      TxnKeep s u ∧ Stopped u ∧ u.trace = s.trace ++ (writeTrace a bytes).take k ++ [.busErr] := by
  obtain ⟨u, hu, hat, hw1, he1, -⟩ := write_reaches (a := a) (bytes := bytes) (k := k) (n := 2) hb hidle (by omega) (hw.waits _ []) he hak
  match k with
  | 0 =>
    obtain ⟨v, hv, hran, hw2, -⟩ := hat.ran.start hb rfl hat.pos hw1 he1
    obtain ⟨w, hw', kw, sw, tw⟩ := hran.release (e := protocolError .start codeBusError) hb hw2 (by simp [protocolError])
    exact ⟨w, hu.trans (hv.trans hw'), kw, sw, by rw [tw]; simp⟩
  | k + 1 =>
    have hlt : k < (slaByte a false :: bytes).length := by simp; omega
    obtain ⟨role, h1, h2, h3, h4, h5, h6⟩ := writePrim_send (List.getElem?_eq_getElem hlt)
    have hran1 := hat.ran
    rw [← h2] at hran1
    obtain ⟨v, hv, hran, hw2, -⟩ := hran1.send (a := .ack) (qa := []) hb rfl h3 (by rw [hat.pos, h1]) hw1 he1 (by simp)
    obtain ⟨w, hw', kw, sw, tw⟩ := hran.release (e := role.mismatch codeBusError) hb hw2
      (by cases role <;> simp [SendRole.mismatch])
    have hstep := writePrim_step a bytes (k := k + 1)
    rw [h1] at hstep
    refine ⟨w, ?_, kw, sw, by rw [tw]; simp⟩
    have : ({ role.mismatch codeBusError with released := some true } : BusError) =
        { kind := if k + 1 ≤ 1 then .protocol else .nack, step := writeStep bytes.length (k + 1), status := some 0x00#8
          released := some true } := by
      rw [← hstep]
      match k with
      | 0 =>
        unfold writePrim at h1
        cases h1
        rfl
      | i + 1 =>
        rw [h5 i rfl]
        rfl
    rw [← this]
    exact hu.trans (hv.trans hw')

/-- A write transaction whose `k`-th primitive stalls. -/
theorem write_times_out {s : State} {a : Byte} {bytes : List Byte} {k l : Nat} {qs : List Bool} {rest : List Ack}
    (hw : s.Waits k (true :: qs)) (hm : s.cfg.slaveMayStall = true) (hl : s.cfg.pollLimit = some l) (h1 : 1 ≤ l)
    (hbe : s.cfg.busErrorPossible = false) (hb : s.seq.seqBusy = true) (hidle : s.busIdle) (hk : k ≤ bytes.length + 2)
    (hak : s.oracle.acks = List.replicate (k - 1) Ack.ack ++ rest) :
    ∃ u, Reaches (s.startTxn (.write a bytes)) (u.txnDone (.error (timeoutError (writeStep bytes.length k)))) ∧
      TxnKeep s u ∧ Recovered l u ∧
      u.trace = s.trace ++ (writeTrace a bytes).take k ++ (if k = 0 then [] else [.abort]) := by
  obtain ⟨u, hu, hat, hw1, -, -⟩ := write_reaches (a := a) (bytes := bytes) (k := k) (n := 0) (q := []) hb hidle hk hw
    (by simpa using State.Errs.none hbe k) hak
  have hk' := hat.ran.keep.cfg
  obtain ⟨v, hv, kv, rv, tv⟩ := hat.ran.timesOut hb rfl (hw1.stalls (by rw [hk', hm]) (by rw [hk', hl]) h1) hat.pos hat.ready
  rw [writePrim_step] at hv
  refine ⟨v, hu.trans hv, kv, rv, ?_⟩
  rw [tv]
  simp only [writeMode_eq_none]

/-- A write transaction whose `j`-th sent byte is not acknowledged, and whose release stop stalls. -/
theorem write_release_times_out {s : State} {a : Byte} {bytes : List Byte} {j l : Nat} {qs : List Bool} {rest : List Ack}
    (hw : s.Waits (j + 2) (true :: qs)) (hm : s.cfg.slaveMayStall = true) (hl : s.cfg.pollLimit = some l) (h1 : 1 ≤ l)
    (hbe : s.cfg.busErrorPossible = false) (hb : s.seq.seqBusy = true) (hidle : s.busIdle) (hj : j ≤ bytes.length)
    (hak : s.oracle.acks = List.replicate j Ack.ack ++ .nack :: rest) :
    ∃ u, Reaches (s.startTxn (.write a bytes)) (u.txnDone (.error { nackError j with released := some false })) ∧
      TxnKeep s u ∧ Recovered l u ∧ u.trace = s.trace ++ nackEvents a bytes j ++ [.abort] := by
  have hlt : j < (slaByte a false :: bytes).length := by simp; omega
  obtain ⟨role, g1, g2, g3, g4, -, g6⟩ := writePrim_send (List.getElem?_eq_getElem hlt)
  obtain ⟨u, hu, hat, hw1, he1, ha1⟩ := write_reaches (a := a) (bytes := bytes) (k := j + 1) (n := 1) (q := [false]) (qa := .nack :: rest) hb hidle
    (by omega) hw (by simpa [← List.replicate_succ'] using State.Errs.none hbe (j + 2)) hak
  have hran1 := hat.ran
  rw [← g2] at hran1
  obtain ⟨v, hv, hran, hw2, -⟩ := hran1.send (a := .nack) (qa := rest) hb rfl g3 (by rw [hat.pos, g1]) hw1 he1 (fun _ => ha1)
  simp only [Bool.false_eq_true, if_false, reduceCtorEq] at hv hran
  rw [g4] at hran
  have hk' := hran.keep.cfg
  obtain ⟨w, hw', kw, rw', tw⟩ := hran.releaseTimesOut (e := role.mismatch (role.code .nack)) hb
    (hw2.stalls (by rw [hk', hm]) (by rw [hk', hl]) h1) (by cases role <;> simp [SendRole.mismatch])
  have hn : ({ role.mismatch (role.code .nack) with released := some false } : BusError) =
      { nackError j with released := some false } := by rw [← g6]
  rw [hn] at hw'
  refine ⟨w, hu.trans (hv.trans hw'), kw, rw', ?_⟩
  rw [tw, nackEvents, List.getElem?_eq_getElem hlt]
  simp

/-! ### The read transaction (42_bus_transactions.md R183, R184) -/

/-- The `k`-th primitive of a read transaction. -/
def readPrim (a : Byte) (n k : Nat) : Prim :=
  match k with
  | 0 => .start
  | 1 => .send (slaByte a true) .addrR
  | i + 2 => if i < n then .recv (decide (i + 1 < n)) i else .stop

/-- The mode of the bus before it. -/
def readMode (n k : Nat) : Mode :=
  match k with
  | 0 => .none
  | 1 => .afterStart
  | i + 2 => if i < n then .mr else .mrEnd

/-- Every byte but the last is acknowledged (42_bus_transactions.md R184). -/
def readAck (n i : Nat) : Ack := if i + 1 < n then .ack else .nack

theorem State.recvFrom_eq (a : Byte) (n i : Nat) (s : State) :
    s.recvFrom n i =
      State.call (readPrim a n (i + 2)) { s with seq := { s.seq with locals := { s.seq.locals with i := i } } } := by
  rw [readPrim, State.recvFrom]
  split <;> rfl

/-- The data events of a read transaction, byte by byte. -/
theorem readTrace_get {a : Byte} {bs : List Byte} {i : Nat} (h : i < bs.length) :
    (readTrace a bs)[i + 2]? = some (.rx bs[i] (readAck bs.length i)) := by
  unfold readTrace readAck
  by_cases hl : i + 1 < bs.length
  · rw [if_pos hl]
    simp [List.getElem?_append, show i < bs.length - 1 by omega]
  · have hi : i = bs.length - 1 := by omega
    rw [if_neg hl]
    subst hi
    have : bs.getLast? = some bs[bs.length - 1] := by
      rw [List.getLast?_eq_getElem?, List.getElem?_eq_getElem h]
    simp [this]

theorem readTrace_take_recv {a : Byte} {bs : List Byte} {i : Nat} (h : i < bs.length) :
    (readTrace a bs).take (i + 3) = (readTrace a bs).take (i + 2) ++ [.rx bs[i] (readAck bs.length i)] := by
  rw [List.take_add_one, readTrace_get h]
  rfl

theorem readTrace_take_last (a : Byte) {bs : List Byte} (h : 1 ≤ bs.length) :
    (readTrace a bs).take (bs.length + 2) ++ [.stop] = readTrace a bs := by
  unfold readTrace
  have : ∃ b, bs.getLast? = some b := by
    cases hb : bs.getLast? with
    | none => rw [List.getLast?_eq_none_iff] at hb; subst hb; cases h
    | some b => exact ⟨b, rfl⟩
  obtain ⟨b, hb⟩ := this
  rw [List.take_left' (by simp [hb]; omega)]

/-- The state in which a read transaction comes to its `k`-th primitive, having received the first bytes of `bs`. -/
structure AtRead (s0 : State) (a : Byte) (bs : List Byte) (k : Nat) (s : State) : Prop where
  ran : TxnRan s0 { txn := .read a bs.length, buf := bs.take (k - 2), releasing := none } (readMode bs.length k)
    ((readTrace a bs).take k) s
  pos : s.seq.pos = .prim (readPrim a bs.length k) .write
  index : ∀ i, k = i + 2 → s.seq.locals.i = i
  twdr : ∀ i, k = i + 2 → s.twi.twdr = (bs.take i).getLast?.getD (slaByte a true)

/-- A read transaction comes to its `k`-th primitive, where the launches and completions before it succeed and the address is
acknowledged. -/
theorem read_reaches {s : State} {a : Byte} {bs qr : List Byte} {k n : Nat} {qs q : List Bool} {qa : List Ack}
    (hb : s.seq.seqBusy = true) (hidle : s.busIdle) (hn : 1 ≤ bs.length) (hk : k ≤ bs.length + 2) (hw : s.Waits (k + n) qs)
    (he : s.Errs (List.replicate k false ++ q)) (hak : s.oracle.acks = List.replicate (min (k - 1) 1) Ack.ack ++ qa)
    (hrx : s.oracle.rxs = bs.take (k - 2) ++ qr) :
    ∃ u, Reaches (s.startTxn (.read a bs.length)) u ∧ AtRead s a bs k u ∧ u.Waits n qs ∧ u.Errs q ∧
      (k ≤ 1 → u.oracle.acks = qa) ∧ u.oracle.rxs = qr := by
  induction k generalizing n q qa qr with
  | zero =>
    exact ⟨_, .refl _, ⟨.begin hidle _, rfl, by omega, by omega⟩, (by simpa using hw : s.Waits n qs).congr rfl rfl rfl,
      (by simpa using he : s.Errs q).congr rfl rfl, fun _ => hak, hrx⟩
  | succ k ih =>
    have he' : s.Errs (List.replicate k false ++ (false :: q)) := by
      rw [List.replicate_succ'] at he
      simpa using he
    have hw' : s.Waits (k + (n + 1)) qs := by rw [show k + (n + 1) = k + 1 + n by omega]; exact hw
    match k with
    | 0 =>
      obtain ⟨u, hu, hat, hw1, he1, ha1, hr1⟩ := ih (q := false :: q) (qa := qa) (qr := qr) (by omega) hw' he' hak hrx
      obtain ⟨v, hv, hran, hw2, he2, ha2, hr2⟩ := hat.ran.start hb rfl hat.pos hw1 he1
      refine ⟨_, hu.trans hv, ⟨?_, rfl, by omega, by omega⟩, hw2.congr rfl rfl rfl, he2.congr rfl rfl,
        fun _ => ha2.trans (ha1 (by omega)), hr2.trans hr1⟩
      exact hran.local ⟨rfl, rfl, rfl, rfl, rfl, rfl⟩ hran.txn rfl rfl
    | 1 =>
      obtain ⟨u, hu, hat, hw1, he1, ha1, hr1⟩ := ih (q := false :: q) (qa := .ack :: qa) (qr := qr) (by omega) hw' he'
        (by simpa using hak) hrx
      obtain ⟨v, hv, hran, hw2, he2, ha2, hr2, hd, hloc⟩ := TxnRan.send (role := .addrR) (a := .ack) (qa := qa) hat.ran hb rfl
        (slaByte_bit0 _ _) hat.pos hw1 he1 (fun _ => ha1 (by omega))
      simp only [Bool.false_eq_true, if_false, if_true] at hv hran
      have hnx : v.txnNext { txn := .read a bs.length, buf := bs.take 0, releasing := none } (.send (slaByte a true) .addrR) [] =
          v.recvFrom bs.length 0 := rfl
      rw [hnx, State.recvFrom_eq a] at hv
      refine ⟨_, hu.trans hv, ⟨?_, rfl, ?_, ?_⟩, hw2.congr rfl rfl rfl, he2.congr rfl rfl, by omega, hr2.trans hr1⟩
      · have hm : readMode bs.length 2 = SendRole.addrR.after .ack := by
          rw [readMode, if_pos (by omega)]
          rfl
        rw [hm]
        exact hran.local ⟨rfl, rfl, rfl, rfl, rfl, rfl⟩ hran.txn rfl rfl
      · intro i hi
        rw [show i = 0 by omega]
        rfl
      · intro i hi
        rw [show i = 0 by omega]
        exact hd
    | i + 2 =>
      have hlt : i < bs.length := by omega
      have htake : bs.take (i + 1) = bs.take i ++ [bs[i]] := by
        rw [List.take_add_one, List.getElem?_eq_getElem hlt]
        rfl
      have hmin : List.replicate (min (i + 2 + 1 - 1) 1) Ack.ack = List.replicate (min (i + 2 - 1) 1) Ack.ack := by
        rw [Nat.min_eq_right (by omega), Nat.min_eq_right (by omega)]
      obtain ⟨u, hu, hat, hw1, he1, -, hr1⟩ := ih (q := false :: q) (qa := qa) (qr := bs[i] :: qr) (by omega) hw' he'
        (by rw [hak, hmin])
        (by rw [hrx, show i + 2 + 1 - 2 = i + 1 by omega, htake, List.append_assoc]; rfl)
      have hpos := hat.pos
      have hran0 := hat.ran
      rw [readPrim, if_pos hlt] at hpos
      rw [readMode, if_pos hlt] at hran0
      obtain ⟨v, hv, hran, hw2, he2, hr2, hloc⟩ := TxnRan.recv (r := bs[i]) (qr := qr) hran0 hb rfl hpos hw1 he1 (fun _ => hr1)
      simp only [Bool.false_eq_true, if_false] at hv hran
      have hnx : v.txnNext { txn := .read a bs.length, buf := bs.take (i + 2 - 2), releasing := none }
            (.recv (decide (i + 1 < bs.length)) i) [bs[i]] =
          State.recvFrom bs.length (i + 1)
            { v with seq := { v.seq with txn := some { txn := .read a bs.length, buf := bs.take (i + 1), releasing := none } } } := by
        change State.recvFrom bs.length (v.seq.locals.i + 1) _ = _
        rw [hloc, hat.index i rfl, htake]
        rfl
      rw [hnx, State.recvFrom_eq a] at hv
      refine ⟨_, hu.trans hv, ⟨?_, rfl, ?_, ?_⟩, hw2.congr rfl rfl rfl, he2.congr rfl rfl, by omega, (hr2 rfl).1⟩
      · have hm : readMode bs.length (i + 2 + 1) = if decide (i + 1 < bs.length) = true then .mr else .mrEnd := by
          simp [readMode]
        rw [hm, readTrace_take_recv hlt]
        have hack : readAck bs.length i = if decide (i + 1 < bs.length) = true then .ack else .nack := by simp [readAck]
        rw [hack]
        exact hran.local ⟨rfl, rfl, rfl, rfl, rfl, rfl⟩ rfl rfl rfl
      · intro j hj
        rw [show j = i + 1 by omega]
        rfl
      · intro j hj
        rw [show j = i + 1 by omega]
        change v.twi.twdr = _
        rw [(hr2 rfl).2]
        simp [List.getLast?_take, hlt]

/-- A read transaction with the address acknowledged. -/
theorem read_runs {s : State} {a : Byte} {n : Nat} {bs rest : List Byte} {ra : List Ack} (hw : s.waitsEnd)
    (hbe : s.cfg.busErrorPossible = false) (hb : s.seq.seqBusy = true) (hidle : s.busIdle)
    (hak : s.oracle.acks = .ack :: ra) (hlen : bs.length = n) (hn : 1 ≤ n) (hrx : s.oracle.rxs = bs ++ rest) :
    ∃ u, Reaches (s.startTxn (.read a n)) (u.txnDone (.ok bs)) ∧ TxnKeep s u ∧ Stopped u ∧
      u.trace = s.trace ++ readTrace a bs ∧ u.twi.twdr = bs.getLast?.getD (slaByte a true) := by
  subst hlen
  obtain ⟨u, hu, hat, hw1, -, -, -⟩ := read_reaches (a := a) (bs := bs) (k := bs.length + 2) (n := 1) (q := []) (qa := ra)
    (qr := rest) hb hidle hn (Nat.le_refl _) (hw.waits _ []) (by simpa using State.Errs.none hbe _)
    (by rw [Nat.min_eq_right (by omega)]; exact hak) (by simpa using hrx)
  obtain ⟨v, hv, fv, hs, h1, h2, h3, -⟩ := txn_stop_runs hw1.launchEnds (hat.ran.seqBusy hb) hat.ran.op
    (by rw [hat.pos, readPrim, if_neg (by omega)])
  rw [primDone_ok (h1.trans hat.ran.txn) rfl] at hv
  refine ⟨v, hu.trans ?_, hat.ran.keep.trans fv, hs, ?_, ?_⟩
  · simpa [State.txnNext] using hv
  · rw [h3, hat.ran.mode, if_neg (by simp [readMode]), hat.ran.trace, List.append_assoc, readTrace_take_last a hn]
  · rw [h2, hat.twdr bs.length rfl, List.take_length]

/-- A read transaction whose address is not acknowledged (42_bus_transactions.md R183). -/
theorem read_nack {s : State} {a : Byte} {n : Nat} {ra : List Ack} (hw : s.waitsEnd)
    (hbe : s.cfg.busErrorPossible = false) (hb : s.seq.seqBusy = true) (hidle : s.busIdle) (hn : 1 ≤ n)
    (hak : s.oracle.acks = .nack :: ra) :
    ∃ u, Reaches (s.startTxn (.read a n))
        (u.txnDone (.error { kind := .protocol, step := .addrR, status := some 0x48#8, released := some true })) ∧
      TxnKeep s u ∧ Stopped u ∧ u.trace = s.trace ++ [.start, .tx (slaByte a true) .nack, .stop] := by
  obtain ⟨u, hu, hat, hw1, he1, ha1, -⟩ := read_reaches (a := a) (bs := List.replicate n 0#8) (k := 1) (n := 2) (q := [false])
    (qr := s.oracle.rxs) hb hidle (by simpa using hn) (by omega) (hw.waits _ []) (State.Errs.none hbe 2) hak rfl
  rw [List.length_replicate] at hu
  obtain ⟨v, hv, hran, hw2, -⟩ := TxnRan.send (role := .addrR) (a := .nack) (qa := ra) hat.ran hb rfl (slaByte_bit0 _ _)
    hat.pos hw1 he1 (fun _ => ha1 (Nat.le_refl _))
  simp only [Bool.false_eq_true, if_false, reduceCtorEq] at hv hran
  obtain ⟨w, hw', kw, sw, tw⟩ := hran.release (e := SendRole.addrR.mismatch (SendRole.addrR.code .nack)) hb hw2
    (by simp [SendRole.mismatch])
  refine ⟨w, hu.trans (hv.trans hw'), kw, sw, ?_⟩
  rw [tw]
  simp [SendRole.after, readTrace]

/-- A read transaction whose `k`-th primitive ends in a bus error. -/
theorem read_busErr {s : State} {a : Byte} {n k : Nat} {bs rest : List Byte} {q : List Bool} {ra : List Ack} (hw : s.waitsEnd)
    (hb : s.seq.seqBusy = true) (hidle : s.busIdle) (hn : 1 ≤ n) (hk : k ≤ n + 1) (hlen : bs.length = n)
    (he : s.Errs (List.replicate k false ++ true :: q)) (hak : s.oracle.acks = .ack :: ra) (hrx : s.oracle.rxs = bs ++ rest) :
    ∃ u, Reaches (s.startTxn (.read a n)) (u.txnDone (.error
        { kind := .protocol, step := readStep n k, status := some 0x00#8, released := some true })) ∧
      TxnKeep s u ∧ Stopped u ∧ u.trace = s.trace ++ (readTrace a bs).take k ++ [.busErr] := by
  subst hlen
  obtain ⟨qa, hqa⟩ : ∃ qa, s.oracle.acks = List.replicate (min (k - 1) 1) Ack.ack ++ qa := by
    match k with
    | 0 => exact ⟨_, rfl⟩
    | 1 => exact ⟨_, rfl⟩
    | i + 2 => exact ⟨ra, by rw [Nat.min_eq_right (by omega)]; exact hak⟩
  obtain ⟨u, hu, hat, hw1, he1, -, -⟩ := read_reaches (a := a) (bs := bs) (k := k) (n := 2) (qa := qa)
    (qr := bs.drop (k - 2) ++ rest) hb hidle hn (by omega) (hw.waits _ []) he hqa
    (by rw [hrx, ← List.append_assoc, List.take_append_drop])
  match k with
  | 0 =>
    obtain ⟨v, hv, hran, hw2, -⟩ := hat.ran.start hb rfl hat.pos hw1 he1
    obtain ⟨w, hw', kw, sw, tw⟩ := hran.release (e := protocolError .start codeBusError) hb hw2 (by simp [protocolError])
    exact ⟨w, hu.trans (hv.trans hw'), kw, sw, by rw [tw]; simp⟩
  | 1 =>
    obtain ⟨v, hv, hran, hw2, -⟩ := TxnRan.send (role := .addrR) (a := .ack) (qa := []) hat.ran hb rfl (slaByte_bit0 _ _)
      hat.pos hw1 he1 (by simp)
    obtain ⟨w, hw', kw, sw, tw⟩ := hran.release (e := SendRole.addrR.mismatch codeBusError) hb hw2 (by simp [SendRole.mismatch])
    exact ⟨w, hu.trans (hv.trans hw'), kw, sw, by rw [tw]; simp⟩
  | i + 2 =>
    have hlt : i < bs.length := by omega
    have hpos := hat.pos
    have hran0 := hat.ran
    rw [readPrim, if_pos hlt] at hpos
    rw [readMode, if_pos hlt] at hran0
    obtain ⟨v, hv, hran, hw2, -⟩ := TxnRan.recv (r := 0#8) (qr := []) hran0 hb rfl hpos hw1 he1 (by simp)
    obtain ⟨w, hw', kw, sw, tw⟩ := hran.release (e := protocolError (.rx i) codeBusError) hb hw2 (by simp [protocolError])
    refine ⟨w, ?_, kw, sw, by rw [tw]; simp⟩
    rw [readStep, if_pos hlt]
    exact hu.trans (hv.trans hw')

/-! ### The write transaction, whatever the answers (42_bus_transactions.md R182, R185) -/

/-- How a transaction that does not time out ends: `Ok`, or an error whose release succeeded. -/
def Released (r : Except BusError (List Byte)) : Prop :=
  ∀ e, r = .error e → e.released = some true ∧ (e.kind = .protocol ∨ e.kind = .nack)

/-- An error of sendByte's status is Protocol or Nack (41_bus_primitives.md R165). -/
theorem SendRole.mismatch_kind (role : SendRole) (c : Byte) :
    (role.mismatch c).kind = .protocol ∨ (role.mismatch c).kind = .nack := by
  cases role <;> simp [SendRole.mismatch]

/-- The data loop and the stop, or the release. -/
theorem write_loop_ends {s : State} {a : Byte} {bytes buf : List Byte} {rem : List Byte} {i : Nat}
    (hw : s.waitsEnd) (hb : s.seq.seqBusy = true) (ho : s.twi.op = none)
    (hi : s.twi.twint = true) (hm : s.twi.mode = .mt)
    (ht : s.seq.txn = some { txn := .write a bytes, buf := buf, releasing := none }) (hrem : bytes.drop i = rem) :
    ∃ u r, Reaches (s.sendFrom bytes i) (u.txnDone r) ∧ TxnKeep s u ∧ Stopped u ∧ Released r ∧ (∀ v, r = .ok v → v = []) := by
  have hk := s.sendFrom_keep bytes i
  induction rem generalizing s i with
  | nil =>
    have hq : s.sendFrom bytes i = State.call .stop { s with seq := { s.seq with locals := { s.seq.locals with i := i } } } := by
      simp [State.sendFrom, hrem]
    rw [hq] at hk ⊢
    obtain ⟨u, hr, fr, hs, h1, -⟩ := txn_stop_runs
      (s := State.call .stop { s with seq := { s.seq with locals := { s.seq.locals with i := i } } })
      (State.waitsEnd.launchEnds hw) hb ho rfl
    rw [primDone_ok (h1.trans ht) rfl] at hr
    exact ⟨u, .ok [], hr, hk.trans fr, hs, by simp [Released], by simp⟩
  | cons b rem ih =>
    have hq : s.sendFrom bytes i =
        State.call (.send b (.data i)) { s with seq := { s.seq with locals := { s.seq.locals with i := i } } } := by
      simp [State.sendFrom, hrem]
    rw [hq] at hk ⊢
    obtain ⟨u, e, c, hr, fr, -, h1, -, -, -, -, -, -, h5⟩ := send_runs
      (s := State.call (.send b (.data i)) { s with seq := { s.seq with locals := { s.seq.locals with i := i } } })
      (b := b) (role := .data i) (State.waitsEnd.launchEnds hw) hb ho hi (.inr hm) rfl
    have htu : u.seq.txn = some { txn := .write a bytes, buf := buf, releasing := none } := fr.txn.trans ht
    by_cases hst : u.seq.lastStatus = codeTx .ack
    · have hmu : u.twi.mode = .mt := by
        obtain ⟨-, -, -, k3⟩ | ⟨-, -, k3, -⟩ := h5
        · change (s.twi.mode = .mt ∧ _) ∨ (s.twi.mode = .afterStart ∧ _) ∨ (s.twi.mode = .afterStart ∧ _) at k3
          rw [hm] at k3
          simp at k3
          exact k3.1
        · exact absurd (hst.symm.trans k3) (by decide)
      have hiu : u.seq.locals.i = i := by rw [fr.locals]; rfl
      rw [statusResult_send_ok hst, primDone_ok htu rfl] at hr
      have hnx : u.txnNext { txn := .write a bytes, buf := buf, releasing := none } (.send b (.data i)) [] =
          u.sendFrom bytes (i + 1) := by
        simp [State.txnNext, hiu]
      rw [hnx] at hr
      obtain ⟨v, r, hrv, fv, hs, hv1, hv2⟩ := ih (s := u) (i := i + 1) (fr.waitsEnd hw)
        (fr.seqBusy.trans hb) fr.op h1 hmu htu (by rw [← List.drop_drop, hrem]; rfl) (u.sendFrom_keep bytes (i + 1))
      exact ⟨v, r, hr.trans hrv, hk.trans (fr.keep.trans fv), hs, hv1, hv2⟩
    · rw [statusResult_send_error hst, primDone_error htu rfl] at hr
      obtain ⟨v, hrv, fv, hs, -, -⟩ := release_runs (s := u) (t := { txn := .write a bytes, buf := buf, releasing := none })
        (e := (SendRole.data i).mismatch u.seq.lastStatus) (fr.waitsEnd hw).launchEnds (fr.seqBusy.trans hb) fr.op (by simp [SendRole.mismatch])
      refine ⟨v, _, hr.trans hrv, hk.trans (fr.keep.trans fv), hs, ?_, by simp⟩
      intro e h
      cases h
      exact ⟨rfl, SendRole.mismatch_kind _ _⟩

/-- A write transaction ends with the bus released, whatever the slave answers and whether or not a bus error occurs. -/
theorem write_ends {s : State} {a : Byte} {bytes : List Byte} (hw : s.waitsEnd) (hb : s.seq.seqBusy = true)
    (hidle : s.busIdle) :
    ∃ u r, Reaches (s.startTxn (.write a bytes)) (u.txnDone r) ∧ TxnKeep s u ∧ Stopped u ∧ Released r ∧
      (∀ v, r = .ok v → v = []) := by
  obtain ⟨u, e, hr, fr, -, h1, -, -, -, -, -, -, h6⟩ :=
    start_runs (s := s.startTxn (.write a bytes)) (State.waitsEnd.launchEnds hw) hb hidle.1 rfl
  have hk : TxnKeep s u := TxnKeep.trans (u := s.startTxn (.write a bytes)) ⟨rfl, rfl, rfl, rfl, rfl, rfl⟩ fr.keep
  have htu : u.seq.txn = some { txn := .write a bytes, buf := [], releasing := none } := fr.txn
  by_cases hst : u.seq.lastStatus = codeStart
  swap
  · rw [statusResult_start_error hst, primDone_error htu rfl] at hr
    obtain ⟨v, hrv, fv, hs, -, -⟩ := release_runs (s := u) (t := { txn := .write a bytes, buf := [], releasing := none })
      (e := protocolError .start u.seq.lastStatus) (fr.waitsEnd hw).launchEnds (fr.seqBusy.trans hb) fr.op (by simp [protocolError])
    refine ⟨v, _, hr.trans hrv, hk.trans fv, hs, ?_, by simp⟩
    intro e h
    cases h
    exact ⟨rfl, .inl rfl⟩
  have g1 : u.twi.mode = .afterStart := by
    obtain ⟨-, -, g1, -⟩ | ⟨-, -, g1, -⟩ | ⟨-, -, g2, -⟩ := h6
    · exact g1
    · exact g1
    · exact absurd (hst.symm.trans g2) (by decide)
  rw [statusResult_start_ok hst, primDone_ok htu rfl] at hr
  obtain ⟨v, e', c, hrv, fv, -, k1, -, -, -, -, -, -, k5⟩ := send_runs (s := u.call (.send (slaByte a false) .addrW))
    (b := slaByte a false) (role := .addrW) (State.waitsEnd.launchEnds (fr.waitsEnd hw)) (fr.seqBusy.trans hb) fr.op h1 (.inl g1) rfl
  have hkv : TxnKeep s v := hk.trans (TxnKeep.trans (u := u.call (.send (slaByte a false) .addrW))
    ⟨rfl, rfl, rfl, rfl, rfl, rfl⟩ fv.keep)
  have htv : v.seq.txn = some { txn := .write a bytes, buf := [], releasing := none } := fv.txn.trans htu
  have hbv : v.seq.seqBusy = true := hkv.seqBusy.trans hb
  by_cases hsv : v.seq.lastStatus = codeSlaW .ack
  · have hmv : v.twi.mode = .mt := by
      obtain ⟨-, -, -, k8⟩ | ⟨-, -, k8, -⟩ := k5
      · change (u.twi.mode = .mt ∧ _) ∨ (u.twi.mode = .afterStart ∧ _) ∨ (u.twi.mode = .afterStart ∧ _) at k8
        rw [g1, slaByte_bit0] at k8
        simp at k8
        exact k8.1
      · exact absurd (hsv.symm.trans k8) (by decide)
    rw [statusResult_send_ok hsv, primDone_ok htv rfl] at hrv
    obtain ⟨w, r, hrw, fw, hs, hv1, hv2⟩ := write_loop_ends (rem := bytes) (i := 0) (hkv.waitsEnd hw) hbv fv.op k1 hmv htv rfl
    exact ⟨w, r, hr.trans (hrv.trans hrw), hkv.trans fw, hs, hv1, hv2⟩
  · rw [statusResult_send_error hsv, primDone_error htv rfl] at hrv
    obtain ⟨w, hrw, fw, hs, -, -⟩ := release_runs (s := v) (t := { txn := .write a bytes, buf := [], releasing := none })
      (e := SendRole.addrW.mismatch v.seq.lastStatus) (hkv.waitsEnd hw).launchEnds hbv fv.op (by simp [SendRole.mismatch])
    refine ⟨w, _, hr.trans (hrv.trans hrw), hkv.trans fw, hs, ?_, by simp⟩
    intro e h
    cases h
    exact ⟨rfl, SendRole.mismatch_kind _ _⟩

end Sys2Proof.Machine
end

