-- ==== Sys2Proof/Laws/Display.lean ====
section
/-! SUPPORT. What a run of the display transactions does: a list of commands (43_display_commands.md R196, R197, R205) and the
pages of flush (44_framebuffer.md R226-R228), every byte acknowledged. -/

namespace Sys2Proof.Machine

/-- A display transaction leaves alone the parameters, the frame buffer, the host, TWBR and TWPS, and of the sequencer the
request, `open` and the page. -/
structure JobKeep (s u : State) : Prop where
  cfg : u.cfg = s.cfg
  fb : u.fb = s.fb
  host : u.host = s.host
  seqBusy : u.seq.seqBusy = s.seq.seqBusy
  req : u.seq.req = s.seq.req
  isOpen : u.seq.isOpen = s.seq.isOpen
  page : u.seq.locals.p = s.seq.locals.p
  twbr : u.twi.twbr = s.twi.twbr
  twps : u.twi.twps = s.twi.twps

theorem JobKeep.refl (s : State) : JobKeep s s := ⟨rfl, rfl, rfl, rfl, rfl, rfl, rfl, rfl, rfl⟩

theorem JobKeep.trans {s u v : State} (h1 : JobKeep s u) (h2 : JobKeep u v) : JobKeep s v :=
  ⟨h2.cfg.trans h1.cfg, h2.fb.trans h1.fb, h2.host.trans h1.host, h2.seqBusy.trans h1.seqBusy, h2.req.trans h1.req,
    h2.isOpen.trans h1.isOpen, h2.page.trans h1.page, h2.twbr.trans h1.twbr, h2.twps.trans h1.twps⟩

theorem TxnKeep.toJob {s u : State} (h : TxnKeep s u) : JobKeep s u :=
  ⟨h.cfg, h.fb, h.host, h.seqBusy, h.req, h.isOpen, h.page, h.twbr, h.twps⟩

theorem JobKeep.waitsEnd {s u : State} (h : JobKeep s u) (hw : s.waitsEnd) : u.waitsEnd :=
  State.waitsEnd_congr h.cfg (by rw [h.host]) hw

/-- A display transaction that succeeded goes on to the next one. -/
theorem txnDone_job {s : State} {v : List Byte} {j : Job} (h : s.seq.job = some j) :
    s.txnDone (.ok v) = State.nextJob { s with seq := { s.seq with txn := none } } := by
  unfold State.txnDone
  rw [h]

/-- The end of WRITE_TXN and READ_TXN themselves. -/
theorem txnDone_ok {s : State} {v : List Byte} (h : s.seq.job = none) :
    s.txnDone (.ok v) = State.respond (.ok v) { s with seq := { s.seq with txn := none } } := by
  unfold State.txnDone
  rw [h]

theorem txnDone_error {s : State} {e : BusError} (h : s.seq.job = none) :
    s.txnDone (.error e) = State.respond (.busErr e) { s with seq := { s.seq with txn := none } } := by
  unfold State.txnDone
  rw [h]
  rfl

/-- The end of a display request (43_display_commands.md R197, R205). -/
theorem nextJob_done {s : State} (h : s.seq.jobs = []) (hf : s.flushing = false) : s.nextJob = s.respond (.ok []) := by
  unfold State.nextJob
  rw [h]
  simp [hf]

/-- The next page of flush, and its end (44_framebuffer.md R226). -/
theorem nextJob_page {s : State} (h : s.seq.jobs = []) (hf : s.flushing = true) (hp : s.seq.locals.p + 1 < Config.pages) :
    s.nextJob = s.startPage (s.seq.locals.p + 1) := by
  unfold State.nextJob
  rw [h]
  simp [hf, hp]

theorem nextJob_last {s : State} (h : s.seq.jobs = []) (hp : ¬ s.seq.locals.p + 1 < Config.pages) :
    s.nextJob = s.respond (.ok []) := by
  unfold State.nextJob
  rw [h]
  simp [hp]

/-! ### Commands -/

/-- One command of a list, acknowledged (43_display_commands.md R196). -/
theorem command_runs {s : State} {b : Byte} {tail : List Job} {rest : List Ack} (hw : s.waitsEnd)
    (hbe : s.cfg.busErrorPossible = false) (hb : s.seq.seqBusy = true) (hidle : s.busIdle)
    (hak : s.oracle.acks = List.replicate 3 Ack.ack ++ rest) :
    ∃ u, Reaches (s.startJob (.cmd b) tail) u.nextJob ∧ JobKeep s u ∧ u.busIdle ∧ u.seq.jobs = tail ∧
      u.trace = s.trace ++ cmdTrace b ∧ u.oracle.acks = rest := by
  obtain ⟨u, hr, hk, hs, h1, h2, -⟩ := write_runs (s := { s with seq := { s.seq with job := some (.cmd b), jobs := tail } })
    (a := Config.devAddr) (bytes := [Config.ctrlCmd, b]) hw hbe hb hidle hak
  rw [txnDone_job hk.job] at hr
  have hk0 : JobKeep s { s with seq := { s.seq with job := some (.cmd b), jobs := tail } } := ⟨rfl, rfl, rfl, rfl, rfl, rfl, rfl, rfl, rfl⟩
  exact ⟨{ u with seq := { u.seq with txn := none } }, hr, hk0.trans (hk.toJob.trans ⟨rfl, rfl, rfl, rfl, rfl, rfl, rfl, rfl, rfl⟩),
    hs.busIdle, hk.jobs, h1, h2⟩

/-- A list of commands, all acknowledged, and what follows it. -/
theorem commands_run {s : State} {cs : List Byte} {tail : List Job} {rest : List Ack} (hw : s.waitsEnd)
    (hbe : s.cfg.busErrorPossible = false) (hb : s.seq.seqBusy = true) (hidle : s.busIdle)
    (hj : s.seq.jobs = cs.map Job.cmd ++ tail) (hak : s.oracle.acks = List.replicate (3 * cs.length) Ack.ack ++ rest) :
    ∃ u, Reaches s.nextJob u.nextJob ∧ JobKeep s u ∧ u.busIdle ∧ u.seq.jobs = tail ∧
      u.trace = s.trace ++ cs.flatMap cmdTrace ∧ u.oracle.acks = rest := by
  induction cs generalizing s with
  | nil => exact ⟨s, .refl _, .refl s, hidle, hj, by simp, hak⟩
  | cons b cs ih =>
    have hq : s.nextJob = s.startJob (.cmd b) (cs.map Job.cmd ++ tail) := by
      unfold State.nextJob
      rw [hj]
      rfl
    have hak' : s.oracle.acks = List.replicate 3 Ack.ack ++ (List.replicate (3 * cs.length) Ack.ack ++ rest) := by
      rw [hak, List.length_cons, Nat.mul_succ, Nat.add_comm, List.replicate_add, List.append_assoc]
    obtain ⟨u, hr, hk, hi, h1, h2, h3⟩ := command_runs (b := b) (tail := cs.map Job.cmd ++ tail) hw hbe hb hidle hak'
    obtain ⟨v, hrv, kv, iv, g1, g2, g3⟩ := ih (hk.waitsEnd hw) (by rw [hk.cfg, hbe]) (hk.seqBusy.trans hb) hi h1 h3
    exact ⟨v, hq ▸ hr.trans hrv, hk.trans kv, iv, g1, by rw [g2, h2]; simp, g3⟩

/-! ### A page of flush -/

/-- The bytes of a row of columns of the frame buffer. -/
def rowBytes (fb : Memory) (base : Nat) (n : Nat) : List Byte := (List.range n).map (fun c => Memory.read fb (base + c))

theorem rowBytes_succ (fb : Memory) (base n : Nat) : rowBytes fb base (n + 1) = rowBytes fb base n ++ [Memory.read fb (base + n)] := by
  simp [rowBytes, List.range_succ]

/-- flush reads its page byte by byte, in column order, then starts the data transaction (44_framebuffer.md R226, R228). -/
theorem gather_runs {s : State} (hw : s.waitsEnd) (hb : s.seq.seqBusy = true) (hidle : s.busIdle)
    (hp : s.seq.pos = .gather) (hpage : s.seq.locals.p < Config.pages) (hi : s.seq.locals.i < s.cfg.width)
    (hacc : s.seq.acc = rowBytes s.fb (s.seq.locals.p * s.cfg.width) s.seq.locals.i) :
    ∃ u, Reaches s (u.startTxn (.write Config.devAddr (Config.ctrlData :: pageBytes s.cfg.width s.fb s.seq.locals.p))) ∧
      JobKeep s u ∧ u.twi = s.twi ∧ u.trace = s.trace ∧ u.oracle = s.oracle ∧ u.seq.job = s.seq.job ∧
      u.seq.jobs = s.seq.jobs := by
  generalize hd : s.cfg.width - s.seq.locals.i = d
  induction d generalizing s with
  | zero => omega
  | succ d ih =>
    have hin : s.seq.locals.p * s.cfg.width + s.seq.locals.i < s.cfg.bufSize := by
      unfold Config.bufSize
      have := Nat.mul_le_mul_right s.cfg.width (show s.seq.locals.p + 1 ≤ Config.pages by omega)
      rw [Nat.add_mul, Nat.one_mul] at this
      omega
    have hstep := step_sequencer hw.2.2 hb hidle.1
    rw [seqStep, hp] at hstep
    simp only [gatherStep, State.memRead, if_pos hin] at hstep
    have hnew : s.seq.acc ++ [Memory.read s.fb (s.seq.locals.p * s.cfg.width + s.seq.locals.i)] =
        rowBytes s.fb (s.seq.locals.p * s.cfg.width) (s.seq.locals.i + 1) := by
      rw [rowBytes_succ, hacc]
    by_cases hlast : s.seq.locals.i + 1 < s.cfg.width
    · rw [if_pos hlast, hnew] at hstep
      obtain ⟨u, hr, hk, h1, h2, h3, h4, h5⟩ := ih (s := { s with seq := { s.seq with
          acc := rowBytes s.fb (s.seq.locals.p * s.cfg.width) (s.seq.locals.i + 1)
          locals := { s.seq.locals with i := s.seq.locals.i + 1 } } })
        hw hb hidle hp hpage hlast rfl (by simp; omega)
      have hk0 : JobKeep s { s with seq := { s.seq with
          acc := rowBytes s.fb (s.seq.locals.p * s.cfg.width) (s.seq.locals.i + 1)
          locals := { s.seq.locals with i := s.seq.locals.i + 1 } } } := ⟨rfl, rfl, rfl, rfl, rfl, rfl, rfl, rfl, rfl⟩
      exact ⟨u, .head hstep hr, hk0.trans hk, h1, h2, h3, h4, h5⟩
    · have he : s.seq.locals.i + 1 = s.cfg.width := by omega
      rw [if_neg hlast, hnew, he] at hstep
      exact ⟨_, .of_step hstep, ⟨rfl, rfl, rfl, rfl, rfl, rfl, rfl, rfl, rfl⟩, rfl, rfl, rfl, rfl, rfl⟩

/-! ### Flush -/

/-- A page of flush leaves alone the parameters, the frame buffer, the host, TWBR and TWPS, and of the sequencer the request
and `open`. -/
structure FlushKeep (s u : State) : Prop where
  cfg : u.cfg = s.cfg
  fb : u.fb = s.fb
  host : u.host = s.host
  seqBusy : u.seq.seqBusy = s.seq.seqBusy
  req : u.seq.req = s.seq.req
  isOpen : u.seq.isOpen = s.seq.isOpen
  twbr : u.twi.twbr = s.twi.twbr
  twps : u.twi.twps = s.twi.twps

theorem FlushKeep.refl (s : State) : FlushKeep s s := ⟨rfl, rfl, rfl, rfl, rfl, rfl, rfl, rfl⟩

theorem FlushKeep.trans {s u v : State} (h1 : FlushKeep s u) (h2 : FlushKeep u v) : FlushKeep s v :=
  ⟨h2.cfg.trans h1.cfg, h2.fb.trans h1.fb, h2.host.trans h1.host, h2.seqBusy.trans h1.seqBusy, h2.req.trans h1.req,
    h2.isOpen.trans h1.isOpen, h2.twbr.trans h1.twbr, h2.twps.trans h1.twps⟩

theorem JobKeep.toFlush {s u : State} (h : JobKeep s u) : FlushKeep s u :=
  ⟨h.cfg, h.fb, h.host, h.seqBusy, h.req, h.isOpen, h.twbr, h.twps⟩

theorem FlushKeep.waitsEnd {s u : State} (h : FlushKeep s u) (hw : s.waitsEnd) : u.waitsEnd :=
  State.waitsEnd_congr h.cfg (by rw [h.host]) hw

/-- The state in which a page begins: its number is set, and its transactions are still to make. -/
def State.onPage (p : Nat) (s : State) : State :=
  { s with seq := { s.seq with
      locals := { s.seq.locals with p := p }, jobs := (pageCommands s.cfg.width p).map Job.cmd ++ [.frame] } }

theorem State.startPage_eq (p : Nat) (s : State) : s.startPage p = (s.onPage p).nextJob := rfl

theorem State.onPage_keep (p : Nat) (s : State) : FlushKeep s (s.onPage p) := ⟨rfl, rfl, rfl, rfl, rfl, rfl, rfl, rfl⟩

/-- A page of flush comes to its data transaction, with its commands acknowledged (44_framebuffer.md R226-R228). -/
theorem page_reaches_data {s : State} {p : Nat} {rest : List Ack} (hw : s.waitsEnd)
    (hbe : s.cfg.busErrorPossible = false) (hb : s.seq.seqBusy = true) (hidle : s.busIdle) (hp : p < Config.pages)
    (hwd : 1 ≤ s.cfg.width) (hak : s.oracle.acks = List.replicate 12 Ack.ack ++ rest) :
    ∃ u, Reaches (s.startPage p) (u.startTxn (.write Config.devAddr (Config.ctrlData :: pageBytes s.cfg.width s.fb p))) ∧
      FlushKeep s u ∧ u.seq.locals.p = p ∧ u.busIdle ∧ u.seq.job = some .frame ∧ u.seq.jobs = [] ∧
      u.trace = s.trace ++ (pageCommands s.cfg.width p).flatMap cmdTrace ∧ u.oracle.acks = rest := by
  obtain ⟨v, hv, kv, iv, g1, g2, g3⟩ := commands_run (s := s.onPage p) (cs := pageCommands s.cfg.width p) (tail := [.frame])
    hw hbe hb hidle rfl hak
  have hq : v.nextJob = v.startJob .frame [] := by
    unfold State.nextJob
    rw [g1]
  have kv' := (s.onPage_keep p).trans kv.toFlush
  have hpv : v.seq.locals.p = p := kv.page
  obtain ⟨u, hu, ku, u1, u2, u3, u4, u5⟩ := gather_runs (s := v.startJob .frame []) (kv.waitsEnd hw) (kv.seqBusy.trans hb) iv rfl
    (by change v.seq.locals.p < _; rw [hpv]; exact hp) (by change 0 < v.cfg.width; rw [kv'.cfg]; omega) rfl
  have hpb : pageBytes (v.startJob .frame []).cfg.width (v.startJob .frame []).fb (v.startJob .frame []).seq.locals.p =
      pageBytes s.cfg.width s.fb p := by
    change pageBytes v.cfg.width v.fb v.seq.locals.p = _
    rw [kv'.cfg, kv'.fb, hpv]
  rw [hpb] at hu
  have k0 : FlushKeep v (v.startJob .frame []) := ⟨rfl, rfl, rfl, rfl, rfl, rfl, rfl, rfl⟩
  refine ⟨u, (hq ▸ hv).trans hu, kv'.trans (k0.trans ku.toFlush), ku.page.trans hpv, ?_, u4, u5, ?_, ?_⟩
  · unfold State.busIdle
    rw [u1]
    exact iv
  · rw [u2]
    exact g2
  · rw [u3]
    exact g3

/-- One page of flush, all acknowledged. -/
theorem page_runs {s : State} {p : Nat} {rest : List Ack} (hw : s.waitsEnd)
    (hbe : s.cfg.busErrorPossible = false) (hb : s.seq.seqBusy = true) (hidle : s.busIdle) (hp : p < Config.pages)
    (hwd : 1 ≤ s.cfg.width) (hak : s.oracle.acks = List.replicate (14 + s.cfg.width) Ack.ack ++ rest) :
    ∃ u : State, Reaches (s.startPage p) u.nextJob ∧ FlushKeep s u ∧ u.seq.locals.p = p ∧ u.busIdle ∧ u.seq.jobs = [] ∧
      u.trace = s.trace ++ pageTrace s.cfg.width s.fb p ∧ u.oracle.acks = rest := by
  obtain ⟨u, hu, ku, up, ui, u1, u2, u3, u4⟩ := page_reaches_data (rest := List.replicate (2 + s.cfg.width) Ack.ack ++ rest)
    hw hbe hb hidle hp hwd (by rw [hak, ← List.append_assoc, ← List.replicate_add]; congr 2; omega)
  obtain ⟨v, hv, kv, sv, v1, v2, -⟩ := write_runs (s := u) (a := Config.devAddr) (rest := rest)
    (bytes := Config.ctrlData :: pageBytes s.cfg.width s.fb p) (ku.waitsEnd hw) (by rw [ku.cfg]; exact hbe)
    (ku.seqBusy.trans hb) ui (by rw [u4]; simp [pageBytes]; omega)
  rw [txnDone_job (kv.job.trans u1)] at hv
  have k0 : FlushKeep v { v with seq := { v.seq with txn := none } } := ⟨rfl, rfl, rfl, rfl, rfl, rfl, rfl, rfl⟩
  refine ⟨_, hu.trans hv, ku.trans (kv.toJob.toFlush.trans k0), kv.page.trans up, sv.busIdle, kv.jobs.trans u2, ?_, v2⟩
  change v.trace = _
  rw [v1, u3, pageTrace, List.append_assoc]

/-- Flush comes to its page `p`, with the pages before it acknowledged (44_framebuffer.md R226). -/
theorem flush_reaches {s : State} {p : Nat} {rest : List Ack} (hw : s.waitsEnd)
    (hbe : s.cfg.busErrorPossible = false) (hb : s.seq.seqBusy = true) (hf : s.flushing = true) (hidle : s.busIdle)
    (hp : p < Config.pages) (hwd : 1 ≤ s.cfg.width)
    (hak : s.oracle.acks = List.replicate (p * (14 + s.cfg.width)) Ack.ack ++ rest) :
    ∃ u : State, Reaches (s.startPage 0) (u.startPage p) ∧ FlushKeep s u ∧ u.busIdle ∧
      u.trace = s.trace ++ (List.range p).flatMap (pageTrace s.cfg.width s.fb) ∧ u.oracle.acks = rest := by
  induction p generalizing rest with
  | zero => exact ⟨s, .refl _, .refl s, hidle, by simp, by simpa using hak⟩
  | succ p ih =>
    obtain ⟨u, hu, ku, ui, u1, u2⟩ := ih (rest := List.replicate (14 + s.cfg.width) Ack.ack ++ rest) (by omega)
      (by rw [hak, ← List.append_assoc, ← List.replicate_add, Nat.add_mul, Nat.one_mul])
    have hc := ku.cfg
    obtain ⟨v, hv, kv, vp, vi, v1, v2, v3⟩ := page_runs (s := u) (p := p) (rest := rest) (ku.waitsEnd hw) (by rw [hc, hbe])
      (ku.seqBusy.trans hb) ui (by omega) (by rw [hc]; exact hwd) (by rw [u2, hc])
    have hfv : v.flushing = true := by
      unfold State.flushing at hf ⊢
      rw [kv.req, ku.req, hf]
    rw [nextJob_page v1 hfv (by rw [vp]; exact hp), vp] at hv
    refine ⟨v, hu.trans hv, ku.trans kv, vi, ?_, v3⟩
    rw [v2, u1, hc, ku.fb, List.range_succ]
    simp

/-- A flush with every byte acknowledged. -/
theorem flush_runs {s : State} {rest : List Ack} (hw : s.waitsEnd)
    (hbe : s.cfg.busErrorPossible = false) (hb : s.seq.seqBusy = true) (hf : s.flushing = true) (hidle : s.busIdle)
    (hwd : 1 ≤ s.cfg.width) (hak : s.oracle.acks = List.replicate (8 * (14 + s.cfg.width)) Ack.ack ++ rest) :
    ∃ u : State, Reaches (s.startPage 0) (u.respond (.ok [])) ∧ FlushKeep s u ∧ u.busIdle ∧
      u.trace = s.trace ++ flushTrace s.cfg.width s.fb := by
  obtain ⟨u, hu, ku, ui, u1, u2⟩ := flush_reaches (p := 7) (rest := List.replicate (14 + s.cfg.width) Ack.ack ++ rest)
    hw hbe hb hf hidle (by decide) hwd (by rw [hak, ← List.append_assoc, ← List.replicate_add]; congr 2; omega)
  have hc := ku.cfg
  obtain ⟨v, hv, kv, vp, vi, v1, v2, -⟩ := page_runs (s := u) (p := 7) (rest := rest) (ku.waitsEnd hw) (by rw [hc, hbe])
    (ku.seqBusy.trans hb) ui (by decide) (by rw [hc]; exact hwd) (by rw [u2, hc])
  rw [nextJob_last v1 (by rw [vp]; decide)] at hv
  refine ⟨v, hu.trans hv, ku.trans kv, vi, ?_⟩
  rw [v2, u1, hc, ku.fb, flushTrace, show List.range Config.pages = List.range 7 ++ [7] from rfl, List.flatMap_append,
    List.append_assoc, List.flatMap_singleton]

/-! ### Display requests that meet a NACK (43_display_commands.md R199, 44_framebuffer.md R229) -/

/-- A display transaction that failed ends the request with the DisplayError that names it. -/
theorem txnDone_fails {s : State} {j : Job} {e : BusError} (h : s.seq.job = some j) :
    s.txnDone (.error e) =
      State.respond (.displayErr (s.displayError j e)) { s with seq := { s.seq with txn := none } } := by
  unfold State.txnDone
  rw [h]
  rfl

/-- What a display error names does not change in a transaction. -/
theorem TxnKeep.displayError {s u : State} (h : TxnKeep s u) (j : Job) (e : BusError) :
    u.displayError j e = s.displayError j e := by
  unfold State.displayError State.flushing
  rw [h.req, h.page]

theorem JobKeep.displayError {s u : State} (h : JobKeep s u) (j : Job) (e : BusError) :
    u.displayError j e = s.displayError j e := by
  unfold State.displayError State.flushing
  rw [h.req, h.page]

/-- A write transaction of a display request, not acknowledged at its `k`-th byte. -/
theorem job_nack {s : State} {j : Job} {bytes : List Byte} {k : Nat} {rest : List Ack} (hw : s.waitsEnd)
    (hbe : s.cfg.busErrorPossible = false) (hb : s.seq.seqBusy = true) (hidle : s.busIdle) (hj : s.seq.job = some j)
    (hk : k ≤ bytes.length) (hak : s.oracle.acks = List.replicate k Ack.ack ++ .nack :: rest) :
    ∃ u, Reaches (s.startTxn (.write Config.devAddr bytes)) (u.respond (.displayErr (s.displayError j (nackError k)))) ∧
      JobKeep s u ∧ u.busIdle ∧ u.trace = s.trace ++ nackTrace Config.devAddr bytes k := by
  obtain ⟨u, hu, ku, su, u1⟩ := write_nack (a := Config.devAddr) hw hbe hb hidle hk hak
  rw [txnDone_fails (ku.job.trans hj), ku.displayError] at hu
  exact ⟨_, hu, ku.toJob.trans ⟨rfl, rfl, rfl, rfl, rfl, rfl, rfl, rfl, rfl⟩, su.busIdle, u1⟩

/-- A list of commands, not acknowledged at the `k`-th byte of the `j`-th. -/
theorem commands_nack {s : State} {cs : List Byte} {tail : List Job} {j k : Nat} {b : Byte} {rest : List Ack} (hw : s.waitsEnd)
    (hbe : s.cfg.busErrorPossible = false) (hb : s.seq.seqBusy = true) (hidle : s.busIdle)
    (hjobs : s.seq.jobs = cs.map Job.cmd ++ tail) (hj : cs[j]? = some b) (hk : k < 3)
    (hak : s.oracle.acks = List.replicate (3 * j + k) Ack.ack ++ .nack :: rest) :
    ∃ u, Reaches s.nextJob (u.respond (.displayErr (s.displayError (.cmd b) (nackError k)))) ∧ JobKeep s u ∧ u.busIdle ∧
      u.trace = s.trace ++ (cs.take j).flatMap cmdTrace ++ nackTrace Config.devAddr [Config.ctrlCmd, b] k := by
  obtain ⟨hlt, rfl⟩ := List.getElem?_eq_some_iff.1 hj
  have hlen : (cs.take j).length = j := by rw [List.length_take]; omega
  obtain ⟨u, hu, ku, ui, u1, u2, u3⟩ := commands_run (cs := cs.take j) (tail := (cs.drop j).map Job.cmd ++ tail)
    (rest := List.replicate k Ack.ack ++ .nack :: rest) hw hbe hb hidle
    (by rw [hjobs, ← List.append_assoc, ← List.map_append, List.take_append_drop])
    (by rw [hak, hlen, ← List.append_assoc, ← List.replicate_add])
  have hq : u.nextJob = u.startJob (.cmd cs[j]) ((cs.drop (j + 1)).map Job.cmd ++ tail) := by
    unfold State.nextJob
    rw [u1, List.drop_eq_getElem_cons hlt]
    rfl
  obtain ⟨v, hv, kv, vi, v1⟩ := job_nack
    (s := { u with seq := { u.seq with job := some (.cmd cs[j]), jobs := (cs.drop (j + 1)).map Job.cmd ++ tail } })
    (bytes := [Config.ctrlCmd, cs[j]]) (ku.waitsEnd hw) (by change u.cfg.busErrorPossible = false; rw [ku.cfg, hbe])
    (ku.seqBusy.trans hb) ui rfl (by simp; omega) u3
  have k0 : JobKeep u { u with seq := { u.seq with
      job := some (.cmd cs[j]), jobs := (cs.drop (j + 1)).map Job.cmd ++ tail } } := ⟨rfl, rfl, rfl, rfl, rfl, rfl, rfl, rfl, rfl⟩
  rw [k0.displayError, ku.displayError] at hv
  refine ⟨v, (hq ▸ hu).trans hv, ku.trans (k0.trans kv), vi, ?_⟩
  rw [v1]
  change u.trace ++ _ = _
  rw [u2]

/-- A page of flush, not acknowledged at the `k`-th byte of its `j`-th transaction. -/
theorem page_nack {s : State} {p j k : Nat} {rest : List Ack} (hw : s.waitsEnd)
    (hbe : s.cfg.busErrorPossible = false) (hb : s.seq.seqBusy = true) (hf : s.flushing = true) (hidle : s.busIdle)
    (hp : p < Config.pages) (hwd : 1 ≤ s.cfg.width) (hj : j < 5) (hk : k < if j < 4 then 3 else 2 + s.cfg.width)
    (hak : s.oracle.acks = List.replicate (3 * j + k) Ack.ack ++ .nack :: rest) :
    ∃ u, Reaches (s.startPage p) (u.respond (.displayErr
        { page := some p, command := (pageCommands s.cfg.width p)[j]?, cause := nackError k })) ∧
      FlushKeep s u ∧ u.busIdle ∧ u.trace = s.trace ++ pageNackTrace s.cfg.width s.fb p j k := by
  unfold pageNackTrace
  by_cases h4 : j < 4
  · rw [if_pos h4] at hk
    have hlt : j < (pageCommands s.cfg.width p).length := h4
    obtain ⟨u, hu, ku, ui, u1⟩ := commands_nack (s := s.onPage p) (tail := [.frame]) hw hbe hb hidle rfl
      (List.getElem?_eq_getElem hlt) hk hak
    rw [← State.startPage_eq] at hu
    have hd : (s.onPage p).displayError (.cmd (pageCommands s.cfg.width p)[j]) (nackError k) =
        { page := some p, command := (pageCommands s.cfg.width p)[j]?, cause := nackError k } := by
      have hf' : (s.onPage p).flushing = true := hf
      rw [State.displayError, if_pos hf', List.getElem?_eq_getElem hlt]
      rfl
    rw [hd] at hu
    refine ⟨u, hu, (s.onPage_keep p).trans ku.toFlush, ui, ?_⟩
    rw [u1, List.getElem?_eq_getElem hlt, List.append_assoc]
    rfl
  · rw [if_neg h4] at hk
    have hj4 : j = 4 := by omega
    subst hj4
    obtain ⟨u, hu, ku, up, ui, u1, u2, u3, u4⟩ := page_reaches_data (rest := List.replicate k Ack.ack ++ .nack :: rest)
      hw hbe hb hidle hp hwd (by rw [hak, ← List.append_assoc, ← List.replicate_add])
    obtain ⟨v, hv, kv, vi, v1⟩ := job_nack (s := u) (bytes := Config.ctrlData :: pageBytes s.cfg.width s.fb p)
      (ku.waitsEnd hw) (by rw [ku.cfg, hbe]) (ku.seqBusy.trans hb) ui u1 (by simp [pageBytes]; omega) u4
    have hd : u.displayError .frame (nackError k) =
        { page := some p, command := (pageCommands s.cfg.width p)[4]?, cause := nackError k } := by
      have hf' : u.flushing = true := by
        unfold State.flushing at hf ⊢
        rw [ku.req, hf]
      rw [State.displayError, if_pos hf', up]
      rfl
    rw [hd] at hv
    refine ⟨v, hu.trans hv, ku.trans kv.toFlush, vi, ?_⟩
    rw [v1, u3, List.append_assoc]
    rfl

end Sys2Proof.Machine
end

