-- ==== Sys2Proof/Laws/Memory.lean ====
section
/-! SUPPORT. The frame buffer: a read after a write, the canonical form, and drawPixel (44_framebuffer.md R221, R222). -/

namespace Sys2Proof.Machine

theorem Memory.read_of_above {m : Memory} {a b : Nat} (h : Memory.above a m = true) (hb : b ≤ a) :
    Memory.read m b = 0#8 := by
  induction m with
  | nil => rfl
  | cons c m ih =>
    obtain ⟨k, v⟩ := c
    simp only [Memory.above, Bool.and_eq_true, decide_eq_true_eq] at h
    have hk : ¬ k = b := by omega
    simp only [Memory.read, hk, if_false]
    exact ih h.2

theorem Memory.above_mono {m : Memory} {a b : Nat} (h : Memory.above a m = true) (hb : b ≤ a) :
    Memory.above b m = true := by
  induction m with
  | nil => rfl
  | cons c m ih =>
    obtain ⟨k, v⟩ := c
    simp only [Memory.above, Bool.and_eq_true, decide_eq_true_eq] at h ⊢
    exact ⟨by omega, ih h.2⟩

theorem Memory.above_write {m : Memory} {a b : Nat} {v : Byte} (h : Memory.above b m = true) (hb : b < a) :
    Memory.above b (Memory.write m a v) = true := by
  induction m with
  | nil =>
    unfold Memory.write
    split <;> simp [Memory.above, hb]
  | cons c m ih =>
    obtain ⟨k, w⟩ := c
    simp only [Memory.above, Bool.and_eq_true, decide_eq_true_eq] at h
    unfold Memory.write
    split
    · split <;> simp [Memory.above, hb, h]
    · split
      · split <;> simp [Memory.above, hb, h]
      · simp [Memory.above, h.1, ih h.2]

/-- A write keeps the canonical form. -/
theorem Memory.wf_write {m : Memory} (a : Nat) (v : Byte) (h : Memory.wf m = true) :
    Memory.wf (Memory.write m a v) = true := by
  induction m with
  | nil =>
    unfold Memory.write
    split <;> simp_all [Memory.wf, Memory.above]
  | cons c m ih =>
    obtain ⟨k, w⟩ := c
    simp only [Memory.wf, Bool.and_eq_true, bne_iff_ne, ne_eq] at h
    obtain ⟨⟨hw, hab⟩, hm⟩ := h
    unfold Memory.write
    split
    · rename_i hlt
      split
      · simp [Memory.wf, hw, hab, hm]
      · rename_i hv
        simp [Memory.wf, Memory.above, hw, hab, hm, hv, hlt, Memory.above_mono hab (Nat.le_of_lt hlt)]
    · split
      · rename_i _ heq
        subst heq
        split
        · exact hm
        · rename_i hv
          simp [Memory.wf, hv, hab, hm]
      · rename_i hlt hne
        simp [Memory.wf, hw, ih hm, Memory.above_write hab (by omega : k < a)]

/-- A write inside the buffer keeps every listed index inside. -/
theorem Memory.below_write {m : Memory} {a n : Nat} {v : Byte} (h : Memory.below n m = true) (ha : a < n) :
    Memory.below n (Memory.write m a v) = true := by
  induction m with
  | nil =>
    unfold Memory.write
    split <;> simp [Memory.below, ha]
  | cons c m ih =>
    obtain ⟨k, w⟩ := c
    simp only [Memory.below, Bool.and_eq_true, decide_eq_true_eq] at h
    unfold Memory.write
    split
    · split <;> simp [Memory.below, ha, h]
    · split
      · split <;> simp [Memory.below, ha, h]
      · simp [Memory.below, h.1, ih h.2]

/-- An index outside the buffer reads as an unlisted one. -/
theorem Memory.read_of_below {m : Memory} {a n : Nat} (h : Memory.below n m = true) (ha : n ≤ a) :
    Memory.read m a = 0#8 := by
  induction m with
  | nil => rfl
  | cons c m ih =>
    obtain ⟨k, w⟩ := c
    simp only [Memory.below, Bool.and_eq_true, decide_eq_true_eq] at h
    exact (if_neg (by omega)).trans (ih h.2)

/-- A read after a write of the same index gives the byte written. -/
theorem Memory.read_write_same {m : Memory} (a : Nat) (v : Byte) (h : Memory.wf m = true) :
    Memory.read (Memory.write m a v) a = v := by
  induction m with
  | nil =>
    unfold Memory.write
    split <;> simp_all [Memory.read]
  | cons c m ih =>
    obtain ⟨k, w⟩ := c
    simp only [Memory.wf, Bool.and_eq_true, bne_iff_ne, ne_eq] at h
    obtain ⟨⟨hw, hab⟩, hm⟩ := h
    unfold Memory.write
    split
    · rename_i hlt
      split
      · rename_i hv
        have hk : ¬ k = a := by omega
        simp only [Memory.read, hk, if_false, hv]
        exact Memory.read_of_above hab (Nat.le_of_lt hlt)
      · simp [Memory.read]
    · split
      · rename_i _ heq
        subst heq
        split
        · rename_i hv
          rw [hv]
          exact Memory.read_of_above hab (Nat.le_refl _)
        · simp [Memory.read]
      · rename_i hlt hne
        have hk : ¬ k = a := by omega
        simp only [Memory.read, hk, if_false]
        exact ih hm

/-- A write leaves every other index alone. -/
theorem Memory.read_write_other {m : Memory} {a b : Nat} (v : Byte) (h : b ≠ a) :
    Memory.read (Memory.write m a v) b = Memory.read m b := by
  induction m with
  | nil =>
    unfold Memory.write
    split <;> simp [Memory.read, Ne.symm h]
  | cons c m ih =>
    obtain ⟨k, w⟩ := c
    unfold Memory.write
    split
    · split <;> simp [Memory.read, Ne.symm h]
    · split
      · rename_i _ heq
        subst heq
        split <;> simp [Memory.read, Ne.symm h]
      · simp only [Memory.read, ih]

/-- Two canonical buffers with the same bytes are the same list. -/
theorem Memory.ext {m n : Memory} (hm : Memory.wf m = true) (hn : Memory.wf n = true)
    (h : ∀ a, Memory.read m a = Memory.read n a) : m = n := by
  induction m generalizing n with
  | nil =>
    cases n with
    | nil => rfl
    | cons d n =>
      obtain ⟨k, w⟩ := d
      simp only [Memory.wf, Bool.and_eq_true, bne_iff_ne, ne_eq] at hn
      have := h k
      simp only [Memory.read, if_true] at this
      exact absurd this.symm hn.1.1
  | cons c m ih =>
    obtain ⟨j, v⟩ := c
    simp only [Memory.wf, Bool.and_eq_true, bne_iff_ne, ne_eq] at hm
    cases n with
    | nil =>
      have := h j
      simp only [Memory.read, if_true] at this
      exact absurd this hm.1.1
    | cons d n =>
      obtain ⟨k, w⟩ := d
      simp only [Memory.wf, Bool.and_eq_true, bne_iff_ne, ne_eq] at hn
      have hjk : j = k := by
        rcases Nat.lt_trichotomy j k with hlt | heq | hlt
        · have := h j
          have hne : ¬ k = j := by omega
          simp only [Memory.read, if_true, hne, if_false,
            Memory.read_of_above hn.1.2 (Nat.le_of_lt hlt)] at this
          exact absurd this hm.1.1
        · exact heq
        · have := h k
          have hne : ¬ j = k := by omega
          simp only [Memory.read, if_true, hne, if_false,
            Memory.read_of_above hm.1.2 (Nat.le_of_lt hlt)] at this
          exact absurd this.symm hn.1.1
      subst hjk
      have hvw : v = w := by
        have := h j
        simpa [Memory.read] using this
      subst hvw
      congr 1
      refine ih hm.2 hn.2 fun a => ?_
      by_cases ha : j = a
      · subst ha
        rw [Memory.read_of_above hm.1.2 (Nat.le_refl _), Memory.read_of_above hn.1.2 (Nat.le_refl _)]
      · have := h a
        simpa [Memory.read, ha] using this

/-! ### drawPixel -/

/-- The index of a point on the screen is inside the buffer (44_framebuffer.md R221). -/
theorem pixelIndex_lt {width x y : Nat} (hx : x < width) (hy : y < Config.height) :
    pixelIndex width x y < Config.pages * width := by
  unfold pixelIndex Config.pages
  unfold Config.height at hy
  have h8 : y / 8 ≤ 7 := by omega
  have hmul := Nat.mul_le_mul_right width h8
  omega

/-- Every operation on the buffer keeps its form: drawPixel. -/
theorem drawPixel_wf {width : Nat} {fb : Memory} (x y : Nat) (on : Bool) (h : Memory.wf fb = true) :
    Memory.wf (drawPixel width fb x y on) = true := by
  unfold drawPixel
  split
  · exact h
  · exact Memory.wf_write _ _ h

theorem drawPixel_below {width : Nat} {fb : Memory} (x y : Nat) (on : Bool)
    (h : Memory.below (Config.pages * width) fb = true) :
    Memory.below (Config.pages * width) (drawPixel width fb x y on) = true := by
  unfold drawPixel
  split
  · exact h
  · rename_i hc
    exact Memory.below_write h (pixelIndex_lt (by omega) (by omega))

/-- A clipped drawPixel changes nothing. -/
theorem drawPixel_clipped {width x y : Nat} {fb : Memory} (on : Bool) (h : width ≤ x ∨ Config.height ≤ y) :
    drawPixel width fb x y on = fb := if_pos h

/-- drawPixel reads and writes one byte. -/
theorem drawPixel_read_other {width x y a : Nat} {fb : Memory} (on : Bool) (h : a ≠ pixelIndex width x y) :
    Memory.read (drawPixel width fb x y on) a = Memory.read fb a := by
  unfold drawPixel
  split
  · rfl
  · exact Memory.read_write_other _ h

theorem drawPixel_read_same {width x y : Nat} {fb : Memory} (on : Bool) (h : Memory.wf fb = true)
    (hx : x < width) (hy : y < Config.height) :
    Memory.read (drawPixel width fb x y on) (pixelIndex width x y) =
      setBit (Memory.read fb (pixelIndex width x y)) (y % 8) on := by
  unfold drawPixel
  rw [if_neg (by omega), Memory.read_write_same _ _ h]

/-- The bits of `setBit`. -/
theorem setBit_getLsbD (b : Byte) (on : Bool) {n k : Nat} (hn : n < 8) :
    (setBit b n on).getLsbD k = if k = n then on else b.getLsbD k := by
  have hone : (1#8 <<< n).getLsbD k = decide (k = n) := by
    rcases Nat.lt_or_ge k 8 with hk | hk
    · interval_cases n <;> interval_cases k <;> rfl
    · rw [BitVec.getLsbD_of_ge _ _ hk]
      have : k ≠ n := by omega
      simp [this]
  unfold setBit
  cases on
  · by_cases hkn : k = n
    · simp [BitVec.getLsbD_and, BitVec.getLsbD_not, hkn]
    · rcases Nat.lt_or_ge k 8 with hk | hk
      · have hnot : (~~~(1#8 <<< n)).getLsbD k = true := by rw [BitVec.getLsbD_not, hone]; simp [hk, hkn]
        simp only [Bool.false_eq_true, if_false, BitVec.getLsbD_and, hnot, Bool.and_true, if_neg hkn]
      · simp [hkn, BitVec.getLsbD_of_ge _ _ hk]
  · simp only [if_true, BitVec.getLsbD_or, hone]
    by_cases hkn : k = n <;> simp [hkn]

/-- Two points of the screen share a byte only in one column and one page (10_state.md R41). -/
theorem pixelIndex_inj {width x y x' y' : Nat} (hx : x < width) (hx' : x' < width)
    (h : pixelIndex width x y = pixelIndex width x' y') : x = x' ∧ y / 8 = y' / 8 := by
  unfold pixelIndex at h
  have hpage : y / 8 = y' / 8 := by
    rcases Nat.lt_trichotomy (y / 8) (y' / 8) with hlt | heq | hlt
    · have := Nat.mul_le_mul_right width (show y / 8 + 1 ≤ y' / 8 from hlt)
      rw [Nat.add_mul, Nat.one_mul] at this
      omega
    · exact heq
    · have := Nat.mul_le_mul_right width (show y' / 8 + 1 ≤ y / 8 from hlt)
      rw [Nat.add_mul, Nat.one_mul] at this
      omega
  rw [hpage] at h
  exact ⟨by omega, hpage⟩

/-- drawPixel sets or clears its own point and no other (44_framebuffer.md R222). -/
theorem pixelAt_drawPixel {width x y x' y' : Nat} {fb : Memory} (on : Bool) (hwf : Memory.wf fb = true)
    (hx : x < width) (hy : y < Config.height) (hx' : x' < width) :
    pixelAt width (drawPixel width fb x y on) x' y' =
      if x' = x ∧ y' = y then on else pixelAt width fb x' y' := by
  unfold pixelAt
  by_cases hidx : pixelIndex width x' y' = pixelIndex width x y
  · obtain ⟨rfl, hp⟩ := pixelIndex_inj hx' hx hidx
    rw [hidx, drawPixel_read_same on hwf hx hy, setBit_getLsbD _ _ (Nat.mod_lt _ (by omega))]
    have hyy : y' % 8 = y % 8 ↔ y' = y := by omega
    simp only [hyy, true_and]
  · rw [drawPixel_read_other on hidx, if_neg]
    rintro ⟨rfl, rfl⟩
    exact hidx rfl

/-- A point drawPixel is not asked for keeps its value, wherever the drawn point is. -/
theorem pixelAt_drawPixel_other {width x y x' y' : Nat} {fb : Memory} (on : Bool) (hwf : Memory.wf fb = true)
    (hx' : x' < width) (h : (x', y') ≠ (x, y)) :
    pixelAt width (drawPixel width fb x y on) x' y' = pixelAt width fb x' y' := by
  by_cases hc : width ≤ x ∨ Config.height ≤ y
  · rw [drawPixel_clipped on hc]
  · rw [pixelAt_drawPixel on hwf (by omega) (by omega) hx', if_neg]
    rintro ⟨rfl, rfl⟩
    exact h rfl

end Sys2Proof.Machine
end

