-- ==== Sys2Proof/Laws/Line.lean ====
section
/-! SUPPORT. drawLine's loop (44_framebuffer.md R223-R225): how the point moves, and when it meets the end point. -/

namespace Sys2Proof.Machine

/-- The locals after `k` passes of the loop that did not end it. -/
def lineAfter (l : Locals) : Nat → Locals
  | 0 => l
  | k + 1 => lineAdvance (lineAfter l k)

/-- One step of the loop in the arithmetic of 44_framebuffer.md R224. -/
theorem lineAdvance_eq (l : Locals) : lineAdvance l =
    { l with
      e2 := 2 * l.err
      err := l.err - (if 2 * l.err > -l.dy then l.dy else 0) + (if 2 * l.err < l.dx then l.dx else 0)
      x := l.x + (if 2 * l.err > -l.dy then l.sx else 0)
      y := l.y + (if 2 * l.err < l.dx then l.sy else 0) } := by
  unfold lineAdvance lineStepY lineStepX
  split <;> split <;> simp_all

/-- The passes of the loop as counts: after `k` of them, `i` steps in x and `j` steps in y were made. -/
structure LineCount (l0 l : Locals) (i j : Int) : Prop where
  dx : l.dx = l0.dx
  dy : l.dy = l0.dy
  sx : l.sx = l0.sx
  sy : l.sy = l0.sy
  x : l.x = l0.x + i * l0.sx
  y : l.y = l0.y + j * l0.sy
  err : l.err = l0.dx - l0.dy - i * l0.dy + j * l0.dx

/-- Where x is the longer direction, every pass steps in x, and y arrives exactly with x. -/
theorem lineAfter_x {l0 : Locals} (h0 : l0.err = l0.dx - l0.dy) (hy : 0 ≤ l0.dy) (hxy : l0.dy ≤ l0.dx) (hx : 0 < l0.dx)
    (k : Nat) (hk : (k : Int) ≤ l0.dx) :
    ∃ j, LineCount l0 (lineAfter l0 k) k j ∧ 0 ≤ j ∧ j ≤ l0.dy ∧ (k = l0.dx → j = l0.dy) := by
  have key : ∃ j, LineCount l0 (lineAfter l0 k) k j ∧ 0 ≤ j ∧ -l0.dy < 2 * (lineAfter l0 k).err ∧
      2 * (lineAfter l0 k).err < 3 * l0.dx - 2 * l0.dy := by
    induction k with
    | zero =>
      refine ⟨0, ⟨rfl, rfl, rfl, rfl, by simp [lineAfter], by simp [lineAfter], by simp [lineAfter, h0]⟩, le_refl _, ?_, ?_⟩ <;>
        simp only [lineAfter, h0] <;> omega
    | succ k ih =>
      obtain ⟨j, hc, hj, hlo, hhi⟩ := ih (by push_cast at hk; omega)
      have hxs : 2 * (lineAfter l0 k).err > -(lineAfter l0 k).dy := by rw [hc.dy]; omega
      have hdef : lineAfter l0 (k + 1) = lineAdvance (lineAfter l0 k) := rfl
      by_cases hys : 2 * (lineAfter l0 k).err < (lineAfter l0 k).dx
      · refine ⟨j + 1, ?_, by omega, ?_, ?_⟩
        · rw [hdef, lineAdvance_eq, if_pos hxs, if_pos hxs, if_pos hys, if_pos hys]
          refine ⟨hc.dx, hc.dy, hc.sx, hc.sy, ?_, ?_, ?_⟩
          · simp only [hc.x, hc.sx]; push_cast; ring
          · simp only [hc.y, hc.sy]; ring
          · simp only [hc.err, hc.dx, hc.dy]; push_cast; ring
        all_goals
          rw [hdef, lineAdvance_eq, if_pos hxs, if_pos hxs, if_pos hys, if_pos hys]
          simp only [hc.dx, hc.dy] at hys ⊢
          omega
      · refine ⟨j, ?_, hj, ?_, ?_⟩
        · rw [hdef, lineAdvance_eq, if_pos hxs, if_pos hxs, if_neg hys, if_neg hys]
          refine ⟨hc.dx, hc.dy, hc.sx, hc.sy, ?_, ?_, ?_⟩
          · simp only [hc.x, hc.sx]; push_cast; ring
          · simp only [hc.y]; ring
          · simp only [hc.err, hc.dy]; push_cast; ring
        · rw [hdef, lineAdvance_eq, if_pos hxs, if_pos hxs, if_neg hys, if_neg hys]
          simp only [hc.dx, hc.dy] at hys ⊢
          by_contra hcon
          have he : l0.dx = l0.dy := by omega
          have herr := hc.err
          rw [he] at herr
          have : (lineAfter l0 k).err = (j - k) * l0.dy := by rw [herr]; ring
          have h2 : 2 * ((j - k) * l0.dy) ≥ l0.dy := by rw [← this]; omega
          have h3 : 1 ≤ j - k := by
            by_contra h
            have : (j - k) * l0.dy ≤ 0 := Int.mul_nonpos_of_nonpos_of_nonneg (by omega) hy
            omega
          have h4 : l0.dy ≤ (j - k) * l0.dy := by nlinarith
          omega
        · rw [hdef, lineAdvance_eq, if_pos hxs, if_pos hxs, if_neg hys, if_neg hys]
          simp only [hc.dx, hc.dy] at hys ⊢
          omega
  obtain ⟨j, hc, hj, hlo, hhi⟩ := key
  have hkd : (k : Int) * l0.dy ≤ l0.dx * l0.dy := by nlinarith
  have hle : j ≤ l0.dy := by
    by_contra h
    have : (l0.dy + 1) * l0.dx ≤ j * l0.dx := by nlinarith
    have herr := hc.err
    nlinarith
  refine ⟨j, hc, hj, hle, fun he => ?_⟩
  by_contra hne
  have hlt : j ≤ l0.dy - 1 := by omega
  have : j * l0.dx ≤ (l0.dy - 1) * l0.dx := by nlinarith
  have herr := hc.err
  rw [he] at herr
  nlinarith

/-- The loop with the two directions exchanged. -/
def lineSwap (l : Locals) : Locals :=
  { l with x := l.y, y := l.x, dx := l.dy, dy := l.dx, sx := l.sy, sy := l.sx, err := -l.err, e2 := -l.e2 }

theorem lineSwap_advance (l : Locals) : lineAdvance (lineSwap l) = lineSwap (lineAdvance l) := by
  have h1 : (2 * -l.err > -l.dx) ↔ (2 * l.err < l.dx) := by omega
  have h2 : (2 * -l.err < l.dy) ↔ (2 * l.err > -l.dy) := by omega
  rw [lineAdvance_eq, lineAdvance_eq]
  simp only [lineSwap, h1, h2]
  split <;> split <;> simp <;> ring

theorem lineSwap_after (l : Locals) (k : Nat) : lineAfter (lineSwap l) k = lineSwap (lineAfter l k) := by
  induction k with
  | zero => rfl
  | succ k ih => simp only [lineAfter, ih, lineSwap_advance]

theorem LineCount.swap {l0 l : Locals} {i j : Int} (h : LineCount (lineSwap l0) (lineSwap l) i j) : LineCount l0 l j i := by
  refine ⟨h.dy, h.dx, h.sy, h.sx, h.y, h.x, ?_⟩
  have := h.err
  simp only [lineSwap] at this
  linarith

/-- Where y is the longer direction, every pass steps in y, and x arrives exactly with y. -/
theorem lineAfter_y {l0 : Locals} (h0 : l0.err = l0.dx - l0.dy) (hx : 0 ≤ l0.dx) (hxy : l0.dx ≤ l0.dy) (hy : 0 < l0.dy)
    (k : Nat) (hk : (k : Int) ≤ l0.dy) :
    ∃ i, LineCount l0 (lineAfter l0 k) i k ∧ 0 ≤ i ∧ i ≤ l0.dx ∧ (k = l0.dy → i = l0.dx) := by
  obtain ⟨j, hc, h1, h2, h3⟩ := lineAfter_x (l0 := lineSwap l0) (by simp [lineSwap, h0]) hx hxy hy k hk
  rw [lineSwap_after] at hc
  exact ⟨j, hc.swap, h1, h2, h3⟩

/-- The passes of drawLine: the point stays between the end points, and is the end point at pass max(dx, dy) and not before
(44_framebuffer.md R225). -/
theorem lineAfter_point {l0 : Locals} (h0 : l0.err = l0.dx - l0.dy) (hx : 0 ≤ l0.dx) (hy : 0 ≤ l0.dy) {k : Nat}
    (hk : (k : Int) ≤ max l0.dx l0.dy) :
    ∃ i j, LineCount l0 (lineAfter l0 k) i j ∧ 0 ≤ i ∧ i ≤ l0.dx ∧ 0 ≤ j ∧ j ≤ l0.dy ∧
      ((k : Int) = max l0.dx l0.dy ↔ i = l0.dx ∧ j = l0.dy) := by
  rcases lt_trichotomy l0.dx l0.dy with hlt | heq | hlt
  · rw [max_eq_right hlt.le] at hk ⊢
    obtain ⟨i, hc, h1, h2, h3⟩ := lineAfter_y h0 hx hlt.le (by omega) k hk
    exact ⟨i, k, hc, h1, h2, by omega, hk, fun h => ⟨h3 h, h⟩, fun h => h.2⟩
  · rw [heq, max_self] at hk ⊢
    by_cases hz : l0.dy = 0
    · have : k = 0 := by omega
      subst this
      exact ⟨0, 0, ⟨rfl, rfl, rfl, rfl, by simp [lineAfter], by simp [lineAfter], by simp [lineAfter, h0]⟩, le_refl _,
        by omega, le_refl _, by omega, by simp [hz]⟩
    · obtain ⟨j, hc, h1, h2, h3⟩ := lineAfter_x h0 hy heq.ge (by omega) k (by omega)
      exact ⟨k, j, hc, by omega, by omega, h1, h2, fun h => ⟨h, h3 (by omega)⟩, fun h => h.1⟩
  · rw [max_eq_left hlt.le] at hk ⊢
    obtain ⟨j, hc, h1, h2, h3⟩ := lineAfter_x h0 hy hlt.le (by omega) k hk
    exact ⟨k, j, hc, by omega, hk, h1, h2, fun h => ⟨h, h3 h⟩, fun h => h.1⟩

/-- The frame buffer after the first `k` passes of the loop. -/
def lineFb (width : Nat) (fb : Memory) (l0 : Locals) (on : Bool) : Nat → Memory
  | 0 => fb
  | k + 1 => drawPixel width (lineFb width fb l0 on k) (lineAfter l0 k).x.toNat (lineAfter l0 k).y.toNat on

theorem lineFb_wf {width : Nat} {fb : Memory} (l0 : Locals) (on : Bool) (k : Nat) (h : Memory.wf fb = true) :
    Memory.wf (lineFb width fb l0 on k) = true := by
  induction k with
  | zero => exact h
  | succ k ih => exact drawPixel_wf _ _ _ ih

/-- A pixel that no pass plots keeps its value. -/
theorem lineFb_other {width : Nat} {fb : Memory} {l0 : Locals} (on : Bool) {k x y : Nat} (h : Memory.wf fb = true)
    (hx : x < width) (hne : ∀ n, n < k → (x, y) ≠ ((lineAfter l0 n).x.toNat, (lineAfter l0 n).y.toNat)) :
    pixelAt width (lineFb width fb l0 on k) x y = pixelAt width fb x y := by
  induction k with
  | zero => rfl
  | succ k ih =>
    rw [lineFb, pixelAt_drawPixel_other on (lineFb_wf l0 on k h) hx (hne k (by omega))]
    exact ih fun n hn => hne n (by omega)

/-- A pixel that some pass plots has the drawn value. -/
theorem lineFb_plotted {width : Nat} {fb : Memory} {l0 : Locals} (on : Bool) {k n x y : Nat} (h : Memory.wf fb = true)
    (hx : x < width) (hy : y < Config.height) (hn : n < k)
    (heq : (x, y) = ((lineAfter l0 n).x.toNat, (lineAfter l0 n).y.toNat)) :
    pixelAt width (lineFb width fb l0 on k) x y = on := by
  induction k with
  | zero => omega
  | succ k ih =>
    rw [lineFb]
    by_cases hlast : (x, y) = ((lineAfter l0 k).x.toNat, (lineAfter l0 k).y.toNat)
    · simp only [Prod.mk.injEq] at hlast
      rw [← hlast.1, ← hlast.2, pixelAt_drawPixel on (lineFb_wf l0 on k h) hx hy hx, if_pos ⟨rfl, rfl⟩]
    · rw [pixelAt_drawPixel_other on (lineFb_wf l0 on k h) hx hlast]
      refine ih ?_
      by_contra hc
      have : n = k := by omega
      exact hlast (this ▸ heq)

/-! ### The points of a line (44_framebuffer.md R224) -/

/-- A pass, field by field: the distances and the directions stay. -/
theorem lineAdvance_fields (l : Locals) :
    (lineAdvance l).dx = l.dx ∧ (lineAdvance l).dy = l.dy ∧ (lineAdvance l).sx = l.sx ∧ (lineAdvance l).sy = l.sy ∧
    (lineAdvance l).x = (if 2 * l.err > -l.dy then l.x + l.sx else l.x) ∧
    (lineAdvance l).y = (if 2 * l.err < l.dx then l.y + l.sy else l.y) ∧
    (lineAdvance l).err =
      l.err - (if 2 * l.err > -l.dy then l.dy else 0) + (if 2 * l.err < l.dx then l.dx else 0) := by
  rw [lineAdvance_eq]
  refine ⟨rfl, rfl, rfl, rfl, ?_, ?_, rfl⟩
  · by_cases h : 2 * l.err > -l.dy <;> simp [h]
  · by_cases h : 2 * l.err < l.dx <;> simp [h]

theorem lineAfter_succ (l : Locals) (k : Nat) : lineAfter l (k + 1) = lineAfter (lineAdvance l) k := by
  induction k with
  | zero => rfl
  | succ k ih => rw [lineAfter, ih, lineAfter]

/-- Where pass `m` is the first that meets the end point, the plotted points are those of the passes 0 to `m`. -/
theorem lineFrom_eq {x1 y1 : Int} {l : Locals} {m fuel : Nat} (hf : m < fuel)
    (hne : ∀ k, k < m → ¬((lineAfter l k).x = x1 ∧ (lineAfter l k).y = y1))
    (hm : (lineAfter l m).x = x1 ∧ (lineAfter l m).y = y1) :
    lineFrom x1 y1 l.dx l.dy l.sx l.sy fuel l.x l.y l.err =
      (List.range (m + 1)).map fun k => ((lineAfter l k).x, (lineAfter l k).y) := by
  induction m generalizing l fuel with
  | zero =>
    obtain ⟨fuel, rfl⟩ : ∃ n, fuel = n + 1 := ⟨fuel - 1, by omega⟩
    rw [lineFrom, if_pos (by exact hm)]
    rfl
  | succ m ih =>
    obtain ⟨fuel, rfl⟩ : ∃ n, fuel = n + 1 := ⟨fuel - 1, by omega⟩
    have h := ih (l := lineAdvance l) (fuel := fuel) (by omega)
      (fun k hk => by rw [← lineAfter_succ]; exact hne (k + 1) (by omega)) (by rw [← lineAfter_succ]; exact hm)
    obtain ⟨h1, h2, h3, h4, hx, hy, he⟩ := lineAdvance_fields l
    rw [h1, h2, h3, h4, hx, hy, he] at h
    rw [lineFrom, if_neg (by exact hne 0 (by omega)), h, List.range_succ_eq_map (n := m + 1), List.map_cons, List.map_map]
    congr 1
    refine List.map_congr_left fun k _ => ?_
    simp [lineAfter_succ l k]

end Sys2Proof.Machine
end

