-- ==== Sys2Proof/Laws/PerInstr.lean ====
section
/-! SUPPORT. The statement made of every instruction, one lemma per constructor: how many bytes its encoding takes
(30_encoding.md R86, R102; log 15). -/

namespace Sys2Proof.Laws.EncodeLength

/-- A well-formed instruction takes between 1 and 258 bytes, at any register addresses and under either layout. -/
def Statement (i : Instr) : Prop :=
  ∀ (l : TwcrLayout) (r : RegAddr), i.wf l = true → 1 ≤ (encode r i).length ∧ (encode r i).length ≤ 258

/-- An encoding whose length does not depend on the operands. -/
theorem of_length {i : Instr} (n : Nat) (hn : n < 258) (h : ∀ r, (encode r i).length = n + 1) : Statement i := by
  intro l r _
  rw [h r]
  omega

/-- One byte. -/
theorem of_one {i : Instr} (h : ∀ r, (encode r i).length = 1) : Statement i := of_length 0 (by decide) h
/-- Two bytes. -/
theorem of_two {i : Instr} (h : ∀ r, (encode r i).length = 2) : Statement i := of_length 1 (by decide) h
/-- Three bytes: an ACCESS word (log 9), or a first byte and two arguments. -/
theorem of_three {i : Instr} (h : ∀ r, (encode r i).length = 3) : Statement i := of_length 2 (by decide) h

theorem rdTwbr : Statement .rdTwbr := of_three (fun _ => rfl)
theorem wrTwbr (v : Byte) : Statement (.wrTwbr v) := of_three (fun _ => rfl)
theorem rdTwsr : Statement .rdTwsr := of_three (fun _ => rfl)
theorem wrTwsr (v : Byte) : Statement (.wrTwsr v) := of_three (fun _ => rfl)
theorem rdTwdr : Statement .rdTwdr := of_three (fun _ => rfl)
theorem wrTwdr (v : Byte) : Statement (.wrTwdr v) := of_three (fun _ => rfl)
theorem rdTwcr : Statement .rdTwcr := of_three (fun _ => rfl)
theorem wrTwcrDisable (v : Byte) : Statement (.wrTwcrDisable v) := of_three (fun _ => rfl)
theorem wrTwcrHold (v : Byte) : Statement (.wrTwcrHold v) := of_three (fun _ => rfl)
theorem wrTwcrNointSta (v : Byte) : Statement (.wrTwcrNointSta v) := of_three (fun _ => rfl)
theorem wrTwcrNointSto (v : Byte) : Statement (.wrTwcrNointSto v) := of_three (fun _ => rfl)
theorem twiStasto (v : Byte) : Statement (.twiStasto v) := of_three (fun _ => rfl)
theorem twiStart (v : Byte) : Statement (.twiStart v) := of_three (fun _ => rfl)
theorem twiStop (v : Byte) : Statement (.twiStop v) := of_three (fun _ => rfl)
theorem twiSla (v : Byte) : Statement (.twiSla v) := of_three (fun _ => rfl)
theorem twiTx (v : Byte) : Statement (.twiTx v) := of_three (fun _ => rfl)
theorem twiRxAck (v : Byte) : Statement (.twiRxAck v) := of_three (fun _ => rfl)
theorem twiRxNack (v : Byte) : Statement (.twiRxNack v) := of_three (fun _ => rfl)
theorem twiByteRefused (v : Byte) : Statement (.twiByteRefused v) := of_three (fun _ => rfl)
theorem wrTwcrWhileBusy (v : Byte) : Statement (.wrTwcrWhileBusy v) := of_three (fun _ => rfl)
theorem busStart : Statement .busStart := of_one (fun _ => rfl)
theorem busStop : Statement .busStop := of_one (fun _ => rfl)
theorem busSend (data : Byte) (role : Role) : Statement (.busSend data role) := of_three (fun _ => rfl)
theorem busRecv (ack : Bool) : Statement (.busRecv ack) := of_two (fun _ => rfl)
theorem writeTxn (a : Byte) (bytes : List Byte) : Statement (.writeTxn a bytes) := by
  intro l r h
  simp only [Instr.wf, decide_eq_true_eq] at h
  simp only [encode, List.length_cons]
  omega
theorem readTxn (a : Byte) (n : Byte) : Statement (.readTxn a n) := of_three (fun _ => rfl)
theorem dispInit : Statement .dispInit := of_one (fun _ => rfl)
theorem dispCmd (b : Byte) : Statement (.dispCmd b) := of_two (fun _ => rfl)
theorem dispSetCol (first : Byte) (last : Byte) : Statement (.dispSetCol first last) := of_three (fun _ => rfl)
theorem dispSetPage (p : Byte) : Statement (.dispSetPage p) := of_two (fun _ => rfl)
theorem dispFlush : Statement .dispFlush := of_one (fun _ => rfl)
theorem fbPixel (x : Byte) (y : Byte) (on : Bool) : Statement (.fbPixel x y on) := of_length 3 (by decide) (fun _ => rfl)
theorem fbLine (x0 : Byte) (y0 : Byte) (x1 : Byte) (y1 : Byte) (on : Bool) : Statement (.fbLine x0 y0 x1 y1 on) := of_length 5 (by decide) (fun _ => rfl)
theorem displayOff : Statement .displayOff := of_one (fun _ => rfl)
theorem displayOn : Statement .displayOn := of_one (fun _ => rfl)
theorem setContrast (c : Byte) : Statement (.setContrast c) := of_two (fun _ => rfl)
theorem setColumnWindow (first : Byte) (last : Byte) : Statement (.setColumnWindow first last) := of_three (fun _ => rfl)
theorem setPageStart (p : BitVec 3) : Statement (.setPageStart p) := of_one (fun _ => rfl)
theorem setLowerCol (n : BitVec 4) : Statement (.setLowerCol n) := of_one (fun _ => rfl)
theorem setUpperCol (n : BitVec 4) : Statement (.setUpperCol n) := of_one (fun _ => rfl)
theorem setStartLine (l : BitVec 6) : Statement (.setStartLine l) := of_one (fun _ => rfl)
theorem setAddrMode (m : Byte) : Statement (.setAddrMode m) := of_two (fun _ => rfl)
theorem ctrlCmd : Statement .ctrlCmd := of_one (fun _ => rfl)
theorem ctrlData : Statement .ctrlData := of_one (fun _ => rfl)
theorem slaW (a : BitVec 7) : Statement (.slaW a) := of_one (fun _ => rfl)
theorem slaR (a : BitVec 7) : Statement (.slaR a) := of_one (fun _ => rfl)

end Sys2Proof.Laws.EncodeLength
end

