-- ==== Sys2Proof/Tests/Slice0.lean ====
section
/-! SUPPORT. Tests. Words and expected values are from spec/30_encoding.md, spec/opcode_table.json and
spec/95_test_vectors.md (cited as V-…). The witnesses show that the hypotheses of the obligations can be met. -/

namespace Sys2Proof.Tests

open Sys2Proof Sys2Proof.Machine

/-! ### Small states -/

/-- The reference parameters with a slave that never stalls. -/
def quiet : Config := { Config.reference with slaveMayStall := false }

/-- The state after reset with parameters `c`, and concrete values where reset leaves a draw. -/
def base (c : Config) : State :=
  { State.resetWith c with
    twi := { Twi.reset with twdr := 0x55#8 }
    seq := { Seq.reset with locals := { p := 0, i := 0, x := 0, y := 0, dx := 0, dy := 0, sx := 0, sy := 0, err := 0, e2 := 0 } }
    oracle := { Oracle.reset with
      stalls := [false], delays := [0], busErrs := [false], acks := [.ack], rxs := [0x5A#8], twdrs := [0x77#8] } }

/-- The bus held in mode `m`, with TWINT set, status `code` and `d` in TWDR. -/
def held (c : Config) (m : Mode) (code d : Byte) : State :=
  { base c with twi := { (base c).twi with mode := m, twint := true, twen := true, tws := twsOf code, twdr := d } }

/-- An operation in flight that is due, launched in mode `m`. -/
def flying (c : Config) (k : Op) (m : Mode) (d : Byte) : State :=
  { base c with
    twi := { (base c).twi with mode := m, twen := true, op := some k, twsto := decide (k = .stop), twdr := d } }

/-- The raw primitives' discipline is open, with lastStatus `last`. -/
def opened (last : Byte) (s : State) : State := { s with seq := { s.seq with isOpen := true, lastStatus := last } }

/-- The host issues `bytes` in format `f`. -/
def tells (f : Format) (bytes : List Byte) (s : State) : State := s.withStream [{ fmt := f, bytes := bytes, eager := false }]

/-- The slave answers ACK `n` times. -/
def acking (n : Nat) (s : State) : State := { s with oracle := { s.oracle with acks := List.replicate n .ack } }

/-- The slave answers NACK first. -/
def nacking (s : State) : State := { s with oracle := { s.oracle with acks := [.nack] } }

/-- The next state, where there is one. -/
def nextOf (o : Out) : Option State :=
  match o with
  | .next t => some t
  | .fault _ => none
  | .refused _ => none

/-- The refusal, where there is one. -/
def refusalOf (o : Out) : Option Refusal :=
  match o with
  | .next _ => none
  | .fault _ => none
  | .refused r => some r

/-- An access word of 30_encoding.md R87 (17 bits) as bytes (log 9). -/
def accessWord (w : Nat) : List Byte := [BitVec.ofNat 8 w, BitVec.ofNat 8 (w / 256), BitVec.ofNat 8 (w / 65536)]

/-! ### Well-formedness: an ill-formed term for each check -/

theorem test_wf_refuses_long_write : (Instr.writeTxn 0x3C#8 (List.replicate 256 0#8)).wf .source = false := by
  decide +kernel

theorem test_wf_refuses_page_8 : (Instr.dispSetPage 8#8).wf .source = false := by decide

/-- Each TWCR row with one of its fixed bits wrong, under SOURCE (30_encoding.md R91, the table's match and mask). -/
theorem test_wf_refuses_twcr_bits :
    (Instr.wrTwcrDisable 0x01#8).wf .source = false ∧ (Instr.wrTwcrHold 0x81#8).wf .source = false ∧
    (Instr.wrTwcrNointSta 0x01#8).wf .source = false ∧ (Instr.wrTwcrNointSto 0x31#8).wf .source = false ∧
    (Instr.twiStasto 0xA1#8).wf .source = false ∧ (Instr.twiStart 0xB1#8).wf .source = false ∧
    (Instr.twiStop 0xB1#8).wf .source = false ∧ (Instr.twiSla 0x01#8).wf .source = false ∧
    (Instr.twiTx 0xA1#8).wf .source = false ∧ (Instr.twiRxAck 0x81#8).wf .source = false ∧
    (Instr.twiRxNack 0xC1#8).wf .source = false ∧ (Instr.twiByteRefused 0x91#8).wf .source = false ∧
    (Instr.wrTwcrWhileBusy 0x80#8).wf .source = false := by decide

/-- Under AVR_SILICON the enable bit is bit 2: the SOURCE words are ill-formed there (V-T20). -/
theorem test_wf_layout : (Instr.twiStart 0xA1#8).wf .avrSilicon = false ∧ (Instr.twiStart 0xA4#8).wf .avrSilicon = true := by
  decide

/-! ### Decoding: a word for every constructor -/

/-- V-R1, V-R3, V-R4, V-R5, V-R6 and the rows' match values. -/
theorem test_decode_register_accesses :
    decodeTableWord 24 0x0B800 = some .rdTwbr ∧ decodeTableWord 24 0x1B848 = some (.wrTwbr 0x48#8) ∧
    decodeTableWord 24 0x0B900 = some .rdTwsr ∧ decodeTableWord 24 0x1B9FF = some (.wrTwsr 0xFF#8) ∧
    decodeTableWord 24 0x0BB00 = some .rdTwdr ∧ decodeTableWord 24 0x1BB78 = some (.wrTwdr 0x78#8) ∧
    decodeTableWord 24 0x0BC00 = some .rdTwcr := by decide

/-- The TWCR rows that do not depend on the engine's mode. -/
theorem test_decode_twcr_writes :
    decodeTableWord 24 0x1BC00 = some (.wrTwcrDisable 0x00#8) ∧ decodeTableWord 24 0x1BC01 = some (.wrTwcrHold 0x01#8) ∧
    decodeTableWord 24 0x1BC21 = some (.wrTwcrNointSta 0x21#8) ∧
    decodeTableWord 24 0x1BC11 = some (.wrTwcrNointSto 0x11#8) ∧ decodeTableWord 24 0x1BCB1 = some (.twiStasto 0xB1#8) ∧
    decodeTableWord 24 0x1BCA1 = some (.twiStart 0xA1#8) ∧ decodeTableWord 24 0x1BC91 = some (.twiStop 0x91#8) ∧
    decodeTableWord 24 0x1BC81 = some (.twiByteRefused 0x81#8) := by decide

/-- The TWCR rows that the engine's state selects (30_encoding.md R89, lines 1 and 8 to 12). -/
theorem test_decode_twcr_by_mode :
    decode .access { resetCtx with mode := .afterStart } (accessWord 0x1BC81) = .instr (.twiSla 0x81#8) [] ∧
    decode .access { resetCtx with mode := .mt } (accessWord 0x1BC81) = .instr (.twiTx 0x81#8) [] ∧
    decode .access { resetCtx with mode := .mr } (accessWord 0x1BCC1) = .instr (.twiRxAck 0xC1#8) [] ∧
    decode .access { resetCtx with mode := .mr } (accessWord 0x1BC81) = .instr (.twiRxNack 0x81#8) [] ∧
    decode .access { resetCtx with mode := .mrEnd } (accessWord 0x1BC81) = .instr (.twiByteRefused 0x81#8) [] ∧
    decode .access { resetCtx with busy := true } (accessWord 0x1BC81) = .instr (.wrTwcrWhileBusy 0x81#8) [] ∧
    decode .access { resetCtx with busy := true } (accessWord 0x1BC00) = .instr (.wrTwcrDisable 0x00#8) [] := by decide

/-- V-T19, V-T20: the same words under AVR_SILICON. -/
theorem test_decode_twcr_silicon :
    decode .access { resetCtx with cfg := { Config.reference with layout := .avrSilicon } } (accessWord 0x1BCA4) =
      .instr (.twiStart 0xA4#8) [] ∧
    decode .access { resetCtx with cfg := { Config.reference with layout := .avrSilicon } } (accessWord 0x1BCA1) =
      .instr (.wrTwcrDisable 0xA1#8) [] := by decide

/-- V-P1, V-P3, V-P4, V-P6, V-X1, V-X5, V-X7. -/
theorem test_decode_bus_requests :
    decode .seq resetCtx [0x01#8] = .instr .busStart [] ∧ decode .seq resetCtx [0x02#8] = .instr .busStop [] ∧
    decode .seq resetCtx [0x03#8, 0x78#8, 0x00#8] = .instr (.busSend 0x78#8 .addrW) [] ∧
    decode .seq resetCtx [0x03#8, 0x79#8, 0x01#8] = .instr (.busSend 0x79#8 .addrR) [] ∧
    decode .seq resetCtx [0x03#8, 0xAE#8, 0x02#8] = .instr (.busSend 0xAE#8 .data) [] ∧
    decode .seq resetCtx [0x04#8, 0x01#8] = .instr (.busRecv true) [] ∧
    decode .seq resetCtx [0x04#8, 0x00#8] = .instr (.busRecv false) [] ∧
    decode .seq resetCtx [0x05#8, 0x3C#8, 0x02#8, 0x00#8, 0xAE#8] = .instr (.writeTxn 0x3C#8 [0x00#8, 0xAE#8]) [] ∧
    decode .seq resetCtx [0x05#8, 0x3C#8, 0x00#8] = .instr (.writeTxn 0x3C#8 []) [] ∧
    decode .seq resetCtx [0x06#8, 0x3C#8, 0x02#8] = .instr (.readTxn 0x3C#8 2#8) [] := by decide

/-- V-D1, V-D3, V-D5, V-D7, V-FL1, E1, E3. -/
theorem test_decode_display_requests :
    decode .seq resetCtx [0x10#8] = .instr .dispInit [] ∧ decode .seq resetCtx [0x11#8, 0xAE#8] = .instr (.dispCmd 0xAE#8) [] ∧
    decode .seq resetCtx [0x12#8, 0x00#8, 0x7F#8] = .instr (.dispSetCol 0x00#8 0x7F#8) [] ∧
    decode .seq resetCtx [0x13#8, 0x03#8] = .instr (.dispSetPage 3#8) [] ∧
    decode .seq resetCtx [0x14#8] = .instr .dispFlush [] ∧
    decode .seq resetCtx [0x20#8, 0x05#8, 0x0A#8, 0x01#8] = .instr (.fbPixel 5#8 10#8 true) [] ∧
    decode .seq resetCtx [0x21#8, 0x00#8, 0x00#8, 0x05#8, 0x00#8, 0x01#8] = .instr (.fbLine 0#8 0#8 5#8 0#8 true) [] := by
  decide

/-- 30_encoding.md R96, R97: each command byte with its field and its arguments. -/
theorem test_decode_display_commands :
    decode .devcmd resetCtx [0xAE#8] = .instr .displayOff [] ∧ decode .devcmd resetCtx [0xAF#8] = .instr .displayOn [] ∧
    decode .devcmd resetCtx [0x81#8, 0x7F#8] = .instr (.setContrast 0x7F#8) [] ∧
    decode .devcmd resetCtx [0x21#8, 0x00#8, 0x7F#8] = .instr (.setColumnWindow 0x00#8 0x7F#8) [] ∧
    decode .devcmd resetCtx [0b10110101#8] = .instr (.setPageStart 5#3) [] ∧
    decode .devcmd resetCtx [0b00001010#8] = .instr (.setLowerCol 0xA#4) [] ∧
    decode .devcmd resetCtx [0b00011101#8] = .instr (.setUpperCol 0xD#4) [] ∧
    decode .devcmd resetCtx [0b01100001#8] = .instr (.setStartLine 0x21#6) [] ∧
    decode .devcmd resetCtx [0x20#8, 0x02#8] = .instr (.setAddrMode 0x02#8) [] ∧
    decode .devcmd resetCtx [0xA0#8] = .reject .unknownByte := by decide

/-- 30_encoding.md R93, R95: the control bytes, and E8's address bytes. -/
theorem test_decode_bus_bytes :
    decode .ctrl resetCtx [0x00#8] = .instr .ctrlCmd [] ∧ decode .ctrl resetCtx [0x40#8] = .instr .ctrlData [] ∧
    decode .sla resetCtx [0x78#8] = .instr (.slaW 0x3C#7) [] ∧ decode .sla resetCtx [0x79#8] = .instr (.slaR 0x3C#7) [] ∧
    decode .ctrl resetCtx [0x80#8] = .reject .unknownByte := by decide

/-! ### One step -/

/-- V-R4: WR TWSR 0xFF keeps TWS and bit 2; V-R5: a TWDR write while TWINT = 0 sets TWWC and is not stored. -/
theorem test_register_writes :
    (nextOf (exec (.wrTwsr 0xFF#8) (base quiet))).map (fun t => t.twi.twsr) = some 0xFB#8 ∧
    (nextOf (exec (.wrTwdr 0x78#8) (base quiet))).map (fun t => (t.twcr, t.twi.twdr)) = some (0x08#8, 0x55#8) ∧
    (nextOf (exec (.wrTwdr 0x78#8) (held quiet .mt 0x18#8 0x00#8))).map (fun t => (t.twi.twdr, t.twi.twwc)) =
      some (0x78#8, false) := by decide

/-- V-T1, V-T5, V-T6, V-T19: the control register after a write. -/
theorem test_twcr_after_write :
    (nextOf (exec (.twiStart 0xA1#8) (base quiet))).map (fun t => (t.twcr, t.twi.twsr, t.twi.op)) =
      some (0x21#8, 0xF8#8, some .start) ∧
    (nextOf (exec (.wrTwcrHold 0x01#8) (base quiet))).map (fun t => (t.twcr, t.twi.op)) = some (0x01#8, none) ∧
    (nextOf (exec (.twiStop 0x91#8) (base quiet))).map (fun t => (t.twcr, t.twi.op)) = some (0x11#8, some .stop) ∧
    (nextOf (exec (.twiStart 0xA4#8) (base { quiet with layout := .avrSilicon }))).map (fun t => t.twcr) = some 0x24#8 := by
  decide

/-- V-T20: under AVR_SILICON 0xA1 is a disable write, and TWCR reads 0x21. -/
theorem test_twcr_layout_mismatch :
    (nextOf (exec (.wrTwcrDisable 0xA1#8) (base { quiet with layout := .avrSilicon }))).map
      (fun t => (t.twcr, t.twi.op)) = some (0x21#8, none) := by decide

/-- V-T15, V-T16: a disable write while busy, with the bus held and not. -/
theorem test_disable_while_busy :
    (nextOf (exec (.wrTwcrDisable 0x00#8) (flying quiet .tx .mt 0xAE#8))).map
      (fun t => (t.twcr, t.twi.twsr, t.twi.op, t.trace)) = some (0x00#8, 0xF8#8, none, [.abort]) ∧
    (nextOf (exec (.wrTwcrDisable 0x00#8) (flying quiet .start .none 0xAE#8))).map (fun t => (t.twi.op, t.trace)) =
      some (none, []) := by decide

/-- V-T1, V-T13, V-T6, V-T18: completions of START and STOP. -/
theorem test_complete_start_stop :
    (nextOf (step (flying quiet .start .none 0x00#8))).map (fun t => (t.twi.twsr, t.twi.mode, t.trace)) =
      some (0x08#8, .afterStart, [.start]) ∧
    (nextOf (step (flying quiet .start .mt 0x00#8))).map (fun t => (t.twi.twsr, t.trace)) = some (0x10#8, [.repStart]) ∧
    (nextOf (step (flying quiet .stop .none 0x00#8))).map (fun t => (t.twcr, t.twi.twsr, t.trace)) =
      some (0x01#8, 0xF8#8, []) ∧
    (nextOf (step (flying quiet .stop .mt 0x00#8))).map (fun t => (t.twcr, t.twi.mode, t.trace)) =
      some (0x01#8, .none, [.stop]) := by decide

/-- V-T7, V-T8, V-T9: completions of a sent byte. -/
theorem test_complete_sent_byte :
    (nextOf (step (flying quiet .sla .afterStart 0x78#8))).map (fun t => (t.twcr, t.twi.twsr, t.twi.mode, t.trace)) =
      some (0x81#8, 0x18#8, .mt, [.tx 0x78#8 .ack]) ∧
    (nextOf (step (nacking (flying quiet .sla .afterStart 0x78#8)))).map (fun t => (t.twi.twsr, t.twi.mode)) =
      some (0x20#8, .mt) ∧
    (nextOf (step (nacking (flying quiet .sla .afterStart 0x79#8)))).map (fun t => (t.twi.twsr, t.twi.mode)) =
      some (0x48#8, .mrEnd) ∧
    (nextOf (step (nacking (flying quiet .tx .mt 0xAE#8)))).map (fun t => (t.twi.twsr, t.twi.mode)) =
      some (0x30#8, .mt) := by decide

/-- V-T10 (the slave drives 0x5A): a byte received and acknowledged. -/
theorem test_complete_received_byte :
    (nextOf (step { flying quiet .rx .mr 0x00#8 with
        twi := { (flying quiet .rx .mr 0x00#8).twi with twea := true } })).map
      (fun t => (t.twcr, t.twi.twsr, t.twi.twdr, t.twi.mode)) = some (0xC1#8, 0x50#8, 0x5A#8, .mr) := by decide

/-- V-T2, V-T3, V-T4, V-T14, V-P2, V-P4, V-P7, V-P11, V-X12, V-D6: the refusals. -/
theorem test_refusals :
    refusalOf (exec (.wrTwcrNointSta 0x21#8) (base quiet)) = some .twcrUnmodelled ∧
    refusalOf (exec (.twiStasto 0xB1#8) (base quiet)) = some .twcrUnmodelled ∧
    refusalOf (exec (.twiByteRefused 0x81#8) (base quiet)) = some .twcrUnmodelled ∧
    refusalOf (exec (.wrTwcrWhileBusy 0x81#8) (flying quiet .tx .mt 0x00#8)) = some .twcrUnmodelled ∧
    refusalOf (exec .busStart (opened 0x08#8 (base quiet))) = some .hostPairing ∧
    refusalOf (exec (.busRecv true) (opened 0x18#8 (held quiet .mt 0x18#8 0x78#8))) = some .hostPairing ∧
    refusalOf (exec (.busSend 0x78#8 .addrW) (base quiet)) = some .hostPairing ∧
    refusalOf (exec (.twiStart 0xA1#8) (opened 0x08#8 (base quiet))) = some .hostExclusive ∧
    refusalOf (exec (.writeTxn 0x3C#8 [0x00#8]) (opened 0x08#8 (base quiet))) = some .hostPairing ∧
    refusalOf (exec (.dispSetPage 8#8) (base quiet)) = some .illFormed := by decide

/-- V-F2, V-F3, V-F4, V-F5: pixels. -/
theorem test_pixels :
    drawPixel 128 [] 127 63 true = [(1023, 0x80#8)] ∧ drawPixel 128 [] 5 10 true = [(133, 0x04#8)] ∧
    drawPixel 128 [] 128 0 true = [] ∧ drawPixel 128 [] 0 64 true = [] ∧ drawPixel 64 [] 63 63 true = [(511, 0x80#8)] ∧
    drawPixel 128 [(0, 0x03#8)] 0 0 false = [(0, 0x02#8)] := by decide

/-- The first pass of V-L11 steps in x only, and of V-L12 in both. -/
theorem test_line_passes :
    (lineAdvance (lineLocals 0#8 0#8 255#8 1#8 (base quiet).seq.locals)).x = 1 ∧
    (lineAdvance (lineLocals 0#8 0#8 255#8 1#8 (base quiet).seq.locals)).y = 0 ∧
    (lineAdvance (lineLocals 255#8 255#8 0#8 0#8 (base quiet).seq.locals)).x = 254 ∧
    (lineAdvance (lineLocals 255#8 255#8 0#8 0#8 (base quiet).seq.locals)).y = 254 := by decide

/-- V-P5, V-P12, V-D2, V-D8, V-X7: responses as bytes. -/
theorem test_response_bytes :
    responseBytes (.busErr { kind := .nack, step := .data 0, status := some 0x30#8, released := none }) =
      [0x02#8, 0x03#8, 0x00#8, 0x30#8, 0x00#8] ∧
    responseBytes (.busErr { kind := .timeout, step := .start, status := none, released := none }) =
      [0x04#8, 0x00#8, 0x00#8, 0xFF#8, 0x00#8] ∧
    responseBytes (.displayErr { page := none, command := some 0x81#8
                                 cause := { kind := .nack, step := .data 1, status := some 0x30#8, released := some true } }) =
      [0xFF#8, 0x01#8, 0x81#8, 0x02#8, 0x03#8, 0x01#8, 0x30#8, 0x02#8] ∧
    responseBytes (.ok [0x12#8, 0x34#8]) = [0x00#8, 0x12#8, 0x34#8] := by decide

/-- 43_display_commands.md R205: the reference INIT_SEQUENCE conforms, and so does one with commands more after its start-line
setup; a setup left out, one that is an argument only, one out of order, commands more before the start-line setup, and an
ending 0xAF that is an argument do not. -/
theorem test_conforming_init :
    Config.conformingInit Config.reference.initSequence = true ∧
    Config.conformingInit [0xAE#8, 0x20#8, 0x02#8, 0x81#8, 0x7F#8, 0x40#8, 0x21#8, 0x00#8, 0x7F#8, 0xAF#8] = true ∧
    Config.conformingInit [0xAE#8, 0x20#8, 0x02#8, 0x40#8, 0xAF#8] = false ∧
    Config.conformingInit [0xAE#8, 0x81#8, 0x20#8, 0x02#8, 0x81#8, 0x7F#8, 0x40#8, 0xAF#8] = false ∧
    Config.conformingInit [0xAE#8, 0x81#8, 0x7F#8, 0x20#8, 0x02#8, 0x40#8, 0xAF#8] = false ∧
    Config.conformingInit [0xAE#8, 0xB0#8, 0x20#8, 0x02#8, 0x81#8, 0x7F#8, 0x40#8, 0xAF#8] = false ∧
    Config.conformingInit [0xAE#8, 0x20#8, 0x02#8, 0x81#8, 0x7F#8, 0x40#8, 0x81#8, 0xAF#8] = false := by decide

/-- A table word placed by `withFetchWord` is what the very next step runs. -/
theorem test_with_fetch_word :
    (nextOf (step ((base quiet).withFetchWord 24 0x1B848))).map (fun t => t.twi.twbr) = some 0x48#8 ∧
    (nextOf (step ((base quiet).withFetchWord 8 0x10))).map (fun t => t.seq.req) = some (some .dispInit) := by
  decide +kernel

/-! ### Witnesses: the hypotheses of each obligation are met, clause by clause

A conjunction lists the clauses in the obligation's order; where a hypothesis is a range, both ends are given. -/

/-- The ends of the parameters' ranges, with both layouts and a bounded wait. -/
theorem witness_ResetMeetsTheInvariant :
    Config.reference.wf = true ∧ { Config.reference with width := 1, pollLimit := some 1 }.wf = true ∧
    { Config.reference with width := 255, layout := .avrSilicon }.wf = true := by decide

/-- A request in progress, in the wait of a START that is in flight. -/
def waiting : State :=
  { flying { Config.reference with pollLimit := some 2 } .start .none 0x00#8 with
    twi := { (flying quiet .start .none 0x00#8).twi with stalled := true, twsta := true }
    seq := { (base quiet).seq with seqBusy := true, req := some .busStart, isOpen := true, polls := 1, pos := .prim .start .poll } }

/-- The invariant holds of a state in the middle of a request, with a stalled operation, and of one that is due to complete. -/
theorem witness_invariant : Inv waiting ∧ Inv (flying quiet .stop .mt 0x00#8) := by
  refine ⟨⟨by decide, ⟨by decide, by decide, by decide, by decide, by decide, ⟨by decide, by decide, by decide⟩,
      by decide, by decide, by decide⟩, ⟨by decide, by decide, ?_, by decide, by decide⟩, ⟨by decide, by decide⟩⟩,
    ⟨by decide, ⟨by decide, by decide, by decide, by decide, by decide, ⟨by decide, by decide, by decide⟩,
      by decide, by decide, by decide⟩, ⟨by decide, by decide, ?_, by decide, by decide⟩, ⟨by decide, by decide⟩⟩⟩
  · intro p l _ hl
    cases hl
    decide
  · intro p l h
    cases h

theorem witness_StepKeepsTheInvariant :
    (∃ t, step waiting = .next t) ∧ (∃ t, step (flying quiet .stop .mt 0x00#8) = .next t) :=
  ⟨⟨_, rfl⟩, ⟨_, rfl⟩⟩

/-- A TWCR row on its line, and the longest request. -/
theorem witness_DecodeOfEncodeIsTheInstruction :
    Config.RegAddr.distinct Config.reference.regAddr = true ∧ (Instr.twiSla 0x81#8).wf .source = true ∧
    (Instr.twiSla 0x81#8).twcrWrite = some (.sla, 0x81#8) ∧ twcrLine .source false .afterStart 0x81#8 = .sla ∧
    (Instr.writeTxn 0xFF#8 (List.replicate 255 0#8)).wf .source = true ∧ (Instr.dispSetPage 7#8).wf .source = true := by
  decide +kernel

/-- Bytes of each of the three clauses, with bytes left after them. -/
theorem witness_EncodeOfDecodedIsTheBytes :
    decode .seq resetCtx [0x05#8, 0x3C#8, 0x01#8, 0xAE#8, 0x02#8] = .instr (.writeTxn 0x3C#8 [0xAE#8]) [0x02#8] ∧
    decode .access resetCtx [0xFF#8, 0xB9#8, 0x01#8, 0x00#8] = .instr (.wrTwsr 0xFF#8) [0x00#8] ∧
    decode .access resetCtx [0xFF#8, 0xB9#8, 0x00#8] = .instr .rdTwsr [] := by decide

theorem witness_DecodedInstructionIsWellFormed :
    decode .seq resetCtx [0x13#8, 0x07#8] = .instr (.dispSetPage 7#8) [] := by decide

/-- Every line of the table, in its order of clauses. -/
theorem witness_TwcrWriteDecodesByTheTable :
    let d := fun (busy : Bool) (m : Mode) (v : Byte) =>
      decode .access { resetCtx with busy := busy, mode := m } [v, 0xBC#8, 0x01#8]
    Config.RegAddr.distinct Config.reference.regAddr = true ∧
    d true .mt 0x01#8 = .instr (.wrTwcrWhileBusy 0x01#8) [] ∧ d true .mt 0xFE#8 = .instr (.wrTwcrDisable 0xFE#8) [] ∧
    d false .mt 0x41#8 = .instr (.wrTwcrHold 0x41#8) [] ∧ d false .mt 0x31#8 = .instr (.wrTwcrNointSta 0x31#8) [] ∧
    d false .mt 0x11#8 = .instr (.wrTwcrNointSto 0x11#8) [] ∧ d false .mt 0xB1#8 = .instr (.twiStasto 0xB1#8) [] ∧
    d false .mt 0xA1#8 = .instr (.twiStart 0xA1#8) [] ∧ d false .mt 0x91#8 = .instr (.twiStop 0x91#8) [] ∧
    d false .afterStart 0xC1#8 = .instr (.twiSla 0xC1#8) [] ∧ d false .mt 0x81#8 = .instr (.twiTx 0x81#8) [] ∧
    d false .mr 0xC1#8 = .instr (.twiRxAck 0xC1#8) [] ∧ d false .mr 0x81#8 = .instr (.twiRxNack 0x81#8) [] ∧
    d false .none 0x81#8 = .instr (.twiByteRefused 0x81#8) [] ∧
    d false .mrEnd 0xC1#8 = .instr (.twiByteRefused 0xC1#8) [] := by decide

/-- Both ends of each reserved range, and the operation bytes next to them. -/
theorem witness_ReservedOperationByteIsRefused :
    nextAgent (tells .seq [0x07#8] (base quiet)) = .host ∧
    ([0x00#8, 0x07#8, 0x0F#8, 0x15#8, 0x1F#8, 0x22#8, 0xFF#8].all
      fun op => decide (refusalOf (step (tells .seq [op] (base quiet))) = some .reservedOp)) = true ∧
    ([0x01#8, 0x02#8, 0x10#8, 0x14#8].all
      fun op => (nextOf (step (tells .seq [op] (base quiet)))).isSome) = true := by decide

/-- The first byte out of each range. -/
theorem witness_IllFormedInputIsRefused :
    nextAgent (tells .wideAccess [] (base quiet)) = .host ∧
    ([[0x03#8, 0x78#8, 0x03#8], [0x04#8, 0x02#8], [0x20#8, 0x00#8, 0x00#8, 0x02#8],
      [0x21#8, 0x00#8, 0x00#8, 0x00#8, 0x00#8, 0x02#8], [0x13#8, 0x08#8]].all
      fun bytes => decide (refusalOf (step (tells .seq bytes (base quiet))) = some .illFormed)) = true ∧
    refusalOf (step (tells .wideAccess [] (base quiet))) = some .accessWidth := by decide

theorem witness_StepRunsTheDecodedInstruction :
    nextAgent (tells .seq [0x02#8, 0x01#8] (base quiet)) = .host ∧
    decode .seq (tells .seq [0x02#8, 0x01#8] (base quiet)).decodeCtx [0x02#8, 0x01#8] = .instr .busStop [0x01#8] := by decide

theorem witness_ForeignAddressIsNoAccess :
    nextAgent (tells .access [0x01#8, 0xBA#8, 0x01#8] (base quiet)) = .host ∧
    0xBA#8 ≠ Config.reference.regAddr.twbr ∧ 0xBA#8 ≠ Config.reference.regAddr.twsr ∧
    0xBA#8 ≠ Config.reference.regAddr.twdr ∧ 0xBA#8 ≠ Config.reference.regAddr.twcr := by decide

/-- The register set is the host's, with TWINT clear, with TWINT set, and while an operation is in flight (TwbrReadAndWrite,
TwsrReadAndWrite, TwdrRead, TwdrWrite, TwcrRead, RefusedTwcrWrites). -/
theorem witness_register_accesses :
    (base quiet).locked = false ∧ (base quiet).twi.op = none ∧ (base quiet).twi.twint = false ∧
    (held quiet .mt 0x18#8 0x00#8).locked = false ∧ (held quiet .mt 0x18#8 0x00#8).twi.twint = true ∧
    (flying quiet .rx .mr 0x00#8).locked = false ∧ (flying quiet .rx .mr 0x00#8).twi.op.isSome = true := by decide

/-- A disable write under each layout, in mode NONE and while the bus is held; a hold. -/
theorem witness_TwcrDisable_TwcrHold :
    (base quiet).locked = false ∧ fieldEn .source 0xFE#8 = false ∧ fieldEn .avrSilicon 0xFB#8 = false ∧
    (base quiet).twi.mode = .none ∧ (flying quiet .tx .mt 0x00#8).twi.mode ≠ .none ∧
    (held quiet .mt 0x18#8 0x00#8).twi.op = none ∧ fieldEn .source 0x41#8 = true ∧ (0x41#8).getLsbD 7 = false ∧
    (0x41#8).getLsbD 5 = false ∧ (0x41#8).getLsbD 4 = false := by decide

/-- A launch on each of the lines 6 to 11. -/
theorem witness_TwcrLaunch :
    (base quiet).locked = false ∧ (base quiet).twi.op = none ∧
    lineBits .source .start 0xE1#8 = true ∧ lineBits .source .stop 0x91#8 = true ∧
    lineBits .source .sla 0xC1#8 = true ∧ (held quiet .afterStart 0x08#8 0x78#8).twi.mode = .afterStart ∧
    lineBits .source .tx 0x81#8 = true ∧ (held quiet .mt 0x18#8 0x78#8).twi.mode = .mt ∧
    lineBits .source .rxAck 0xC1#8 = true ∧ lineBits .source .rxNack 0x81#8 = true ∧
    (held quiet .mr 0x40#8 0x78#8).twi.mode = .mr := by decide

theorem witness_HostAccessWhileOwnedIsRefused :
    waiting.seq.seqBusy = true ∧ (opened 0x08#8 (base quiet)).seq.isOpen = true ∧ formatOf .rdTwbr = .access := by decide

/-- A next state for a read, each plain write, and TWCR writes with and without an Abort. -/
theorem witness_HostAccessFrame :
    [Instr.rdTwbr, .rdTwsr, .rdTwdr, .rdTwcr, .wrTwbr 1#8, .wrTwsr 2#8, .wrTwdr 3#8, .wrTwcrHold 0x01#8,
      .wrTwcrDisable 0x00#8].all (fun i => (nextOf (exec i (held quiet .mt 0x18#8 0x00#8))).isSome) = true ∧
    (nextOf (exec (.wrTwcrDisable 0x00#8) (held quiet .mt 0x18#8 0x00#8))).map (fun t => t.trace) = some [.abort] ∧
    (nextOf (exec (.wrTwcrHold 0x01#8) (held quiet .mt 0x18#8 0x00#8))).map (fun t => t.trace) = some [] := by decide

/-- The engine's turn with each operation, without a bus error and with one. -/
def erring (k : Op) (m : Mode) : State :=
  { flying { quiet with busErrorPossible := true } k m 0x79#8 with
    oracle := { (base quiet).oracle with busErrs := [true] } }

theorem witness_completions :
    [(Op.start, Mode.none), (.start, .mt), (.sla, .afterStart), (.tx, .mt), (.rx, .mr)].all (fun km =>
      decide (nextAgent (flying quiet km.1 km.2 0x79#8) = .engine) && !(flying quiet km.1 km.2 0x79#8).drawBusErr.1 &&
      decide (nextAgent (erring km.1 km.2) = .engine) && (erring km.1 km.2).drawBusErr.1 &&
      (erring km.1 km.2).cfg.busErrorPossible && (erring km.1 km.2).oracle.busErr.1) = true ∧
    (flying quiet .sla .afterStart 0x78#8).twi.twdr.getLsbD 0 = false ∧
    (flying quiet .sla .afterStart 0x79#8).twi.twdr.getLsbD 0 = true ∧
    (flying quiet .tx .mt 0x79#8).drawBusErr.2.ack.1 = .ack ∧
    (nacking (flying quiet .sla .afterStart 0x79#8)).drawBusErr.2.ack.1 = .nack ∧
    (flying quiet .rx .mr 0x00#8).drawBusErr.2.rx.1 = 0x5A#8 ∧ (flying quiet .rx .mr 0x00#8).twi.twea = false ∧
    (flying quiet .rx .mr 0x00#8).cfg.busErrorPossible = false ∧
    nextAgent (flying quiet .stop .none 0x00#8) = .engine ∧ nextAgent (flying quiet .stop .mt 0x00#8) = .engine := by decide

/-- A stalled operation while the sequencer polls, and its end by the recovery write. -/
theorem witness_StalledOperationEndsOnlyByDisable :
    waiting.twi.op = some .start ∧ waiting.twi.stalled = true ∧
    (nextOf (step waiting)).map (fun t => t.twi.op) = some (some .start) ∧
    ((nextOf (step waiting)).bind fun t => nextOf (step t)).map (fun t => (t.twi.op, t.twi.twen)) = some (none, false) := by
  decide

/-- An operation in flight that is due at once, and one that is due later. -/
theorem witness_RunningOperationCompletes :
    (flying quiet .tx .mt 0x00#8).running = true ∧ (flying quiet .tx .mt 0x00#8).seq.seqBusy = false ∧
    (flying quiet .tx .mt 0x00#8).host.stream = [] ∧ (flying quiet .tx .mt 0x00#8).twi.delay = 0 := by decide

/-- Steps that change the trace (the engine's, and an Abort), the frame buffer, and `open` both ways
(ConfigurationNeverChanges, TraceOnlyGrowsByTheEngine, FrameBufferChangesOnlyByDrawing, OpenChangesOnlyByStartAndStop). -/
def plotting : State :=
  { base quiet with
    seq := { (base quiet).seq with seqBusy := true, req := some (.fbPixel 5#8 10#8 true), pos := .pixel 5#8 10#8 true } }

theorem witness_whole_machine_rules :
    (nextOf (step (flying quiet .tx .mt 0xAE#8))).map (fun t => t.trace) = some [.tx 0xAE#8 .ack] ∧
    (nextOf (step (tells .access [0x00#8, 0xBC#8, 0x01#8] (held quiet .mt 0x18#8 0x00#8)))).map (fun t => t.trace) =
      some [.abort] ∧
    (nextOf (step plotting)).map (fun t => t.fb) = some [(133, 0x04#8)] ∧ plotting.fb = [] ∧
    (nextOf (step (tells .seq [0x01#8] (base quiet)))).map (fun t => t.seq.isOpen) = some true ∧
    (nextOf (step (tells .seq [0x02#8] (opened 0x08#8 (base quiet))))).map (fun t => t.seq.isOpen) = some false := by decide

theorem witness_RequestWhileBusyIsRefused :
    waiting.seq.seqBusy = true ∧ formatOf .dispFlush ≠ .access ∧ Instr.dispFlush.wf .source = true := by decide

/-- A second BUS_START, a BUS_SEND without one, a receive in the wrong status, a transaction while open. -/
theorem witness_PairingBreakIsRefused :
    (base quiet).seq.seqBusy = false ∧ accepted .busStart (opened 0x08#8 (base quiet)) = false ∧
    accepted (.busSend 0x78#8 .addrW) (base quiet) = false ∧
    accepted (.busRecv true) (opened 0x48#8 (base quiet)) = false ∧
    accepted (.writeTxn 0x3C#8 []) (opened 0x08#8 (base quiet)) = false := by decide

/-- A request that goes on, both that have nothing to send, and the two that move `open`. -/
theorem witness_AcceptedRequestIsIssued :
    accepted .dispFlush (base quiet) = true ∧ accepted (.readTxn 0x3C#8 0#8) (base quiet) = true ∧
    accepted .dispInit (base { quiet with initSequence := [] }) = true ∧ accepted .busStart (base quiet) = true ∧
    accepted .busStop (opened 0x08#8 (base quiet)) = true := by decide

/-- BusStartRuns: on an idle bus and on a held one. -/
theorem witness_BusStartRuns :
    (base quiet).free ∧ (base quiet).slaveAcks 0 ∧ (base quiet).twi.mode = .none ∧
    (held quiet .mt 0x28#8 0x00#8).free ∧ (held quiet .mt 0x28#8 0x00#8).slaveAcks 0 ∧
    (held quiet .mt 0x28#8 0x00#8).twi.op = none ∧ (held quiet .mt 0x28#8 0x00#8).twi.mode ≠ .none :=
  ⟨⟨rfl, rfl⟩, ⟨⟨rfl, rfl, rfl⟩, rfl, _, rfl⟩, rfl, ⟨rfl, rfl⟩, ⟨⟨rfl, rfl, rfl⟩, rfl, _, rfl⟩, rfl, by decide⟩

/-- BusStopRuns: open with the bus held, and not open with an idle bus. -/
theorem witness_BusStopRuns :
    (opened 0x28#8 (held quiet .mt 0x28#8 0x00#8)).waitsEnd ∧ (opened 0x28#8 (held quiet .mt 0x28#8 0x00#8)).twi.op = none ∧
    (opened 0x28#8 (held quiet .mt 0x28#8 0x00#8)).seq.seqBusy = false ∧ (base quiet).waitsEnd :=
  ⟨⟨rfl, rfl, rfl⟩, rfl, rfl, rfl, rfl, rfl⟩

/-- BusSendRuns: every mode with TWINT = 1, and both answers. -/
theorem witness_BusSendRuns :
    let s := fun m code => opened code (held quiet m code 0x00#8)
    [(Mode.afterStart, 0x08#8), (.mt, 0x18#8), (.mr, 0x40#8), (.none, 0x00#8), (.mrEnd, 0x58#8)].all (fun mc =>
      let q := s mc.1 mc.2
      !q.seq.seqBusy && q.seq.isOpen && q.twi.op.isNone && q.twi.twint && !q.hostEager && !q.cfg.busErrorPossible &&
        q.cfg.pollLimit.isNone && !q.cfg.slaveMayStall && decide (q.twi.mode = mc.1)) = true ∧
    (s .mt 0x18#8).oracle.acks = [.ack] ∧ (nacking (s .mt 0x18#8)).oracle.acks = [.nack] ∧
    (s .mr 0x40#8).oracle.rxs = [0x5A#8] := by decide

/-- V-T12's refusal, met by the sequencer: sendByte's launch in mode NONE (40_twi_unit.md R138), and in mode MR a receive is
launched (30_encoding.md R89, line 11). -/
theorem test_send_launch_by_mode :
    let at_ := fun (m : Mode) (code : Byte) =>
      let s := opened code (held quiet m code 0x78#8)
      { s with seq := { s.seq with
          seqBusy := true, req := some (.busSend 0x78#8 .addrW), pos := .prim (.send 0x78#8 .addrW) .launch } }
    refusalOf (step (at_ .none 0x00#8)) = some .twcrUnmodelled ∧
    refusalOf (step (at_ .mrEnd 0x48#8)) = some .twcrUnmodelled ∧
    (nextOf (step (at_ .mr 0x40#8))).map (fun t => (t.twi.op, t.twi.twea)) = some (some .rx, false) := by decide

theorem witness_BusSendCollides :
    let s := opened 0x08#8 (base quiet)
    s.seq.seqBusy = false ∧ s.seq.isOpen = true ∧ s.twi.op = none ∧ s.twi.twint = false ∧ s.hostEager = false := by decide

/-- BusRecvRuns: after 0x40 and after 0x50. -/
theorem witness_BusRecvRuns :
    let s := opened 0x40#8 (held quiet .mr 0x40#8 0x79#8)
    s.seq.isOpen = true ∧ s.seq.lastStatus = 0x40#8 ∧ (opened 0x50#8 s).seq.lastStatus = 0x50#8 ∧ s.twi.op = none ∧
    s.twi.mode = .mr ∧ s.waitsEnd ∧ s.cfg.busErrorPossible = false ∧ s.oracle.rxs = [0x5A#8] :=
  ⟨rfl, rfl, rfl, rfl, rfl, ⟨rfl, rfl, rfl⟩, rfl, rfl⟩

/-- `s` with POLL_LIMIT = SOME l, a slave that may stall, completions due at once, and the stall draws `stalls`. -/
def limited (l : Nat) (stalls : List Bool) (s : State) : State :=
  { s with
    cfg := { s.cfg with pollLimit := some l, slaveMayStall := true }
    oracle := { s.oracle with stalls := stalls, delays := List.replicate stalls.length 0 } }

/-- StalledPrimitiveTimesOut at the smallest limit: an idle and a held bus, a byte to send and a byte to receive. -/
theorem witness_StalledPrimitiveTimesOut :
    [base quiet, held quiet .mt 0x28#8 0x00#8, opened 0x18#8 (held quiet .mt 0x18#8 0x00#8),
      opened 0x40#8 (held quiet .mr 0x40#8 0x00#8)].all (fun q =>
        let s := limited 1 [true] q
        !s.seq.seqBusy && s.twi.op.isNone && !s.hostEager && s.cfg.slaveMayStall && decide (s.cfg.pollLimit = some 1) &&
          decide (s.oracle.stalls = [true])) = true ∧
    (base quiet).seq.isOpen = false ∧ (held quiet .mt 0x28#8 0x00#8).seq.isOpen = false ∧
    (opened 0x18#8 (held quiet .mt 0x18#8 0x00#8)).seq.isOpen = true ∧ (held quiet .mt 0x18#8 0x00#8).twi.twint = true ∧
    (held quiet .mt 0x18#8 0x00#8).twi.mode = .mt ∧ (opened 0x40#8 (held quiet .mr 0x40#8 0x00#8)).seq.isOpen = true ∧
    (opened 0x40#8 (held quiet .mr 0x40#8 0x00#8)).seq.lastStatus = 0x40#8 ∧ (held quiet .mr 0x40#8 0x00#8).twi.mode = .mr := by
  decide

/-- 41_bus_primitives.md R161, R162: the recovery write of a wait on a held bus leaves an Abort and responds with the Timeout of
the step. -/
theorem test_recover_aborts :
    (nextOf (step { flying quiet .tx .mt 0xAE#8 with
        twi := { (flying quiet .tx .mt 0xAE#8).twi with stalled := true }
        seq := { (base quiet).seq with
          seqBusy := true, req := some (.busSend 0xAE#8 .data), isOpen := true, polls := 1
          pos := .prim (.send 0xAE#8 (.data 0)) .recover } })).map (fun t => (t.trace, t.seq.resp, t.twi.op)) =
      some ([.abort], some (.busErr { kind := .timeout, step := .data 0, status := none, released := none }), none) := by
  decide

/-- 42_bus_transactions.md R183, 10_state.md R43: READ_TXN of no bytes is in progress after its issue, and is answered by the
sequencer's next step with no bus activity. -/
theorem test_read_of_no_bytes :
    (nextOf (exec (.readTxn 0x3C#8 0#8) (base quiet))).map (fun t => (t.seq.seqBusy, t.seq.resp)) = some (true, none) ∧
    (nextOf (andThen (exec (.readTxn 0x3C#8 0#8) (base quiet)) step)).map (fun t => (t.seq.seqBusy, t.seq.resp, t.trace)) =
      some (false, some (.ok []), []) := by decide

/-- A slave that acknowledges n bytes, from an idle bus: WriteTransactionRuns (no bytes: n = 1), ReadTransactionRuns,
DisplayRequestsRun and DisplayCommandRowsRun (n = 3 for each command, 0 for an empty list), FlushSendsTheFrameBuffer and
FlushCounts (n = 8 * (14 + WIDTH), also at WIDTH = 1). -/
theorem witness_slave_acks (n : Nat) :
    (acking n (base quiet)).free ∧ (acking n (base quiet)).busIdle ∧ (acking n (base quiet)).slaveAcks n ∧
    (acking n (base quiet)).cfg.wf = true ∧ (acking n (base { quiet with width := 1 })).slaveAcks n ∧
    (acking n (base { quiet with width := 1 })).cfg.wf = true :=
  ⟨⟨rfl, rfl⟩, ⟨rfl, rfl⟩, ⟨⟨rfl, rfl, rfl⟩, rfl, [], by simp [acking]⟩, rfl, ⟨⟨rfl, rfl, rfl⟩, rfl, [], by simp [acking]⟩, rfl⟩

/-- The slave acknowledges `n` bytes and then does not. -/
def nackingAfter (n : Nat) (s : State) : State :=
  { s with oracle := { s.oracle with acks := List.replicate n .ack ++ [.nack] } }

/-- Completion `k` is a bus error, in a transaction whose bytes are acknowledged. -/
def erringAfter (k : Nat) (s : State) : State :=
  { s with
    cfg := { s.cfg with busErrorPossible := true }
    oracle := { s.oracle with busErrs := List.replicate k false ++ [true] } }

/-- A NACK at byte k, with or without a bus error possible (FailedTransactionReleasesTheBus, DisplayRequestNacks,
WriteTransactionAlwaysReleases). For a write of two bytes k runs from 0 to 2; for a command from 0 to 2; in a flush the
last byte is 14 + 128 of page 7. -/
theorem witness_nack (n : Nat) :
    (nackingAfter n (base quiet)).free ∧ (nackingAfter n (base quiet)).busIdle ∧ (nackingAfter n (base quiet)).waitsEnd ∧
    (nackingAfter n (base quiet)).cfg.busErrorPossible = false ∧ (nackingAfter n (base quiet)).cfg.wf = true ∧
    (nackingAfter n (base quiet)).oracle.acks = List.replicate n Ack.ack ++ .nack :: [] ∧
    (base { quiet with busErrorPossible := true }).waitsEnd :=
  ⟨⟨rfl, rfl⟩, ⟨rfl, rfl⟩, ⟨rfl, rfl, rfl⟩, rfl, rfl, rfl, rfl, rfl, rfl⟩

/-- FailedTransactionReleasesTheBus: both ends of k for a write of two bytes (the START and the last byte), and for a read of
one byte. -/
theorem witness_bus_error (k : Nat) :
    (erringAfter k (acking 3 (base quiet))).free ∧ (erringAfter k (acking 3 (base quiet))).busIdle ∧
    (erringAfter k (acking 3 (base quiet))).waitsEnd ∧ (erringAfter k (acking 3 (base quiet))).cfg.busErrorPossible = true ∧
    (erringAfter k (acking 3 (base quiet))).oracle.busErrs = List.replicate k false ++ true :: [] ∧
    0 ≤ [0x00#8, 0xAE#8].length + 1 ∧ 3 ≤ [0x00#8, 0xAE#8].length + 1 ∧
    (acking 3 (base quiet)).oracle.acks = List.replicate (0 - 1) Ack.ack ++ [.ack, .ack, .ack] ∧
    (acking 3 (base quiet)).oracle.acks = List.replicate (3 - 1) Ack.ack ++ [.ack] ∧
    1 ≤ (1#8).toNat ∧ 2 ≤ (1#8).toNat + 1 ∧ [0x5A#8].length = (1#8).toNat ∧
    (acking 3 (base quiet)).oracle.acks = .ack :: [.ack, .ack] ∧ (acking 3 (base quiet)).oracle.rxs = [0x5A#8] ++ [] :=
  ⟨⟨rfl, rfl⟩, ⟨rfl, rfl⟩, ⟨rfl, rfl, rfl⟩, rfl, rfl, by decide, by decide, rfl, rfl, by decide, by decide, rfl, rfl, rfl⟩

/-- WriteTransactionTimesOut at the smallest limit, for a write of one byte: the START stalls (k = 0), the STOP stalls (k = 3),
and after a NACK of the last byte the release STOP stalls (j = 1). -/
theorem witness_WriteTransactionTimesOut :
    let s := fun (k : Nat) (acks : List Ack) =>
      let q := limited 1 (List.replicate k false ++ [true]) (base quiet)
      { q with oracle := { q.oracle with acks := acks } }
    [0, 3].all (fun k =>
      !(s k [.ack, .ack]).seq.seqBusy && !(s k [.ack, .ack]).seq.isOpen && (s k [.ack, .ack]).twi.op.isNone &&
        decide ((s k [.ack, .ack]).twi.mode = .none) && !(s k [.ack, .ack]).hostEager && !(s k [.ack, .ack]).cfg.busErrorPossible &&
        (s k [.ack, .ack]).cfg.slaveMayStall && decide ((s k [.ack, .ack]).cfg.pollLimit = some 1) &&
        decide ((s k [.ack, .ack]).oracle.delays = List.replicate k 0 ++ [0]) &&
        decide ((s k [.ack, .ack]).oracle.stalls = List.replicate k false ++ true :: []) && decide (k ≤ [0xAE#8].length + 2)) = true ∧
    (s 0 [.ack, .ack]).oracle.acks = List.replicate (0 - 1) Ack.ack ++ [.ack, .ack] ∧
    (s 3 [.ack, .ack]).oracle.acks = List.replicate (3 - 1) Ack.ack ++ [] ∧
    (s 3 [.ack, .nack]).oracle.acks = List.replicate 1 Ack.ack ++ .nack :: [] ∧ 1 ≤ [0xAE#8].length := by decide

/-- DisplayRequestNacks: the last byte of a flush (page 7, its data transaction, the last of the WIDTH + 2 bytes), and the first
command's address; a command of an INIT_SEQUENCE. -/
theorem witness_DisplayRequestNacks :
    7 < 8 ∧ 4 < 5 ∧ 129 < (if 4 < 4 then 3 else 2 + Config.reference.width) ∧ 0 < (if 0 < 4 then 3 else 2 + Config.reference.width) ∧
    2 < (if 3 < 4 then 3 else 2 + Config.reference.width) ∧ (pageCommands 128 7)[4]? = none ∧ (pageCommands 128 7)[0]? = some 0xB7#8 ∧
    Config.reference.initSequence[6]? = some 0xAF#8 := by decide

/-- The bytes of a read at the smallest n, and n = 0. -/
theorem witness_ReadTransactionRuns :
    [0x5A#8].length = (1#8).toNat ∧ 1 ≤ (1#8).toNat ∧ (base quiet).oracle.rxs = [0x5A#8] ++ [] ∧ (base quiet).free ∧
    (base quiet).running = false ∧ (base quiet).hostEager = false :=
  ⟨rfl, by decide, rfl, ⟨rfl, rfl⟩, rfl, rfl⟩

/-- The display rows' conditions: the last page, the conforming init sequence and an empty one. -/
theorem witness_DisplayRequestsRun :
    Config.reference.initSequence ≠ [] ∧ (7#8).toNat < 8 ∧ (base { quiet with initSequence := [] }).cfg.initSequence = [] := by
  decide

/-- PixelRequestRuns and LineRequestRuns: an idle block, one with a stalled operation in flight, the last pixel in range, and a
point outside each way. -/
theorem witness_drawing :
    (base quiet).seq.seqBusy = false ∧ (base quiet).running = false ∧ (base quiet).hostEager = false ∧
    ({ base quiet with twi := { (base quiet).twi with op := some .start, stalled := true } } : State).running = false ∧
    FbInv (base quiet).cfg (base quiet).fb ∧ (127#8).toNat < (base quiet).cfg.width ∧ (63#8).toNat < 64 ∧
    (base quiet).cfg.width ≤ (128#8).toNat ∧ 64 ≤ (64#8).toNat :=
  ⟨rfl, rfl, rfl, rfl, ⟨rfl, rfl⟩, by decide, by decide, by decide, by decide⟩

/-- V-L2, V-L5, V-L7, V-L10: the plotted points. -/
theorem test_line_points :
    linePoints 0 0 1 3 = [(0, 0), (0, 1), (1, 2), (1, 3)] ∧ linePoints 2 2 2 2 = [(2, 2)] ∧
    linePoints 2 1 0 0 = [(2, 1), (1, 1), (0, 0)] ∧
    linePoints 10 5 3 9 = [(10, 5), (9, 6), (8, 6), (7, 7), (6, 7), (5, 8), (4, 8), (3, 9)] := by decide

theorem witness_PixelWritesIdempotentAndCommute :
    Memory.wf [(0, 0x03#8), (133, 0x04#8)] = true ∧ (0, 1) ≠ (0, 2) := by decide

/-- ResponseBytesDetermineTheError: an index at the end of its range, and a status. -/
theorem witness_ResponseBytesDetermineTheError :
    let e : BusError := { kind := .nack, step := .data 255, status := some 0x30#8, released := none }
    (∀ i, e.step = .data i ∨ e.step = .rx i → i < 256) ∧ e.status ≠ some 0xFF#8 := by
  refine ⟨?_, by decide⟩
  rintro i (h | h)
  · cases h
    decide
  · cases h

end Sys2Proof.Tests
end

section
/-! SUPPORT. What every step keeps: the TWI unit's invariant, the sequencer's and the frame buffer's, each for the operations
that touch it. -/

namespace Sys2Proof.Config

/-! ### What the constraints on the parameters give (00_scope.md R10, R13) -/

theorem width_pos {c : Config} (h : c.wf = true) : 0 < c.width := by
  simp only [wf, Bool.and_eq_true, decide_eq_true_eq] at h
  obtain ⟨⟨⟨⟨hw, -⟩, -⟩, -⟩, -⟩ := h
  exact hw

theorem pollLimit_pos {c : Config} {l : Nat} (h : c.wf = true) (hl : c.pollLimit = some l) : 0 < l := by
  simp only [wf, hl, Bool.and_eq_true, decide_eq_true_eq] at h
  obtain ⟨⟨-, hl⟩, -⟩ := h
  exact hl

end Sys2Proof.Config

namespace Sys2Proof.Machine

/-! ### What a completion does (40_twi_unit.md R141-R147) -/

/-- `t` is `s` after a completion that sets TWINT: a status of 30_encoding.md R98, and one event; a receive stores its byte. -/
def Finished (s t : State) : Prop :=
  ∃ (code : Byte) (mode : Mode) (ev : Event) (d : Byte) (o : Oracle), legalStatus (twsOf code) = true ∧
    t = completeWith code mode ev { s with twi := { s.twi with twdr := d }, oracle := o }

theorem legalStatus_codeSlaW (a : Ack) : legalStatus (twsOf (codeSlaW a)) = true := by cases a <;> decide
theorem legalStatus_codeSlaR (a : Ack) : legalStatus (twsOf (codeSlaR a)) = true := by cases a <;> decide
theorem legalStatus_codeTx (a : Ack) : legalStatus (twsOf (codeTx a)) = true := by cases a <;> decide
theorem legalStatus_codeRx (a : Ack) : legalStatus (twsOf (codeRx a)) = true := by cases a <;> decide

theorem completeBusErr_finished (s : State) : Finished s (completeBusErr s) :=
  ⟨codeBusError, .none, .busErr, s.twi.twdr, s.oracle, by decide, rfl⟩

theorem completeStart_finished (s : State) : Finished s (completeStart s) := by
  unfold completeStart
  split
  · exact ⟨codeStart, .afterStart, .start, s.twi.twdr, s.oracle, by decide, rfl⟩
  · exact ⟨codeRepStart, .afterStart, .repStart, s.twi.twdr, s.oracle, by decide, rfl⟩

theorem completeSla_finished (s : State) : Finished s (completeSla s) := by
  unfold completeSla
  dsimp only
  split
  · exact ⟨_, _, _, s.twi.twdr, _, legalStatus_codeSlaR _, rfl⟩
  · exact ⟨_, _, _, s.twi.twdr, _, legalStatus_codeSlaW _, rfl⟩

theorem completeTx_finished (s : State) : Finished s (completeTx s) :=
  ⟨_, _, _, s.twi.twdr, _, legalStatus_codeTx _, rfl⟩

theorem completeRx_finished (s : State) : Finished s (completeRx s) :=
  ⟨_, _, _, _, _, legalStatus_codeRx _, rfl⟩

/-- A completion with or without a bus error finishes, where its normal end does. -/
theorem orBusErr_finished {normal : State → State} (h : ∀ s, Finished s (normal s)) (s : State) :
    Finished s (orBusErr s normal) := by
  have of_oracle : ∀ {o t}, Finished { s with oracle := o } t → Finished s t := id
  unfold orBusErr
  dsimp only
  split
  · exact of_oracle (completeBusErr_finished _)
  · exact of_oracle (h _)

/-- The engine's step: nothing without an operation; the end of a STOP; or a completion that sets TWINT. -/
theorem complete_cases (s : State) :
    (s.twi.op = none ∧ complete s = s) ∨ (s.twi.op = some .stop ∧ complete s = completeStop s) ∨
    (s.twi.op.isSome = true ∧ s.twi.op ≠ some .stop ∧ Finished s (complete s)) := by
  unfold complete
  split <;> rename_i hop
  · exact .inl ⟨hop, rfl⟩
  · exact .inr (.inr ⟨by simp [hop], by simp [hop], orBusErr_finished completeStart_finished s⟩)
  · exact .inr (.inr ⟨by simp [hop], by simp [hop], orBusErr_finished completeSla_finished s⟩)
  · exact .inr (.inr ⟨by simp [hop], by simp [hop], orBusErr_finished completeTx_finished s⟩)
  · exact .inr (.inr ⟨by simp [hop], by simp [hop], orBusErr_finished completeRx_finished s⟩)
  · exact .inr (.inl ⟨hop, rfl⟩)

/-! ### The TWI unit's invariant -/

theorem legalStatus_codeNone : legalStatus (twsOf codeNone) = true := by decide

theorem opModeOk_none (m : Mode) : opModeOk none m := by simp [opModeOk]

/-- No clause reads TWBR, TWDR, TWPS, TWWC or the model's count of steps. -/
theorem TwiInv.with_data {c : Config} {t : Twi} (h : TwiInv c t) (br dr : Byte) (ps : BitVec 2) (wc : Bool) (n : Nat) :
    TwiInv c { t with twbr := br, twdr := dr, twps := ps, twwc := wc, delay := n } :=
  ⟨h.noStatus, h.busyNoInt, h.busyEnabled, h.heldEnabled, h.stopFlag, h.opMode, h.stall, h.noIe, h.status⟩

theorem TwiInv.writeTwdr {c : Config} {t : Twi} (h : TwiInv c t) (v : Byte) : TwiInv c (t.writeTwdr v) := by
  unfold Twi.writeTwdr
  split
  · exact h.with_data t.twbr v t.twps false t.delay
  · exact h.with_data t.twbr t.twdr t.twps true t.delay

theorem TwiInv.writeTwsr {c : Config} {t : Twi} (h : TwiInv c t) (v : Byte) : TwiInv c (t.writeTwsr v) :=
  h.with_data t.twbr t.twdr (v.truncate 2) t.twwc t.delay

theorem TwiInv.tick {s : State} (h : TwiInv s.cfg s.twi) : TwiInv s.cfg s.tick.twi := by
  unfold State.tick
  split
  · exact h.with_data s.twi.twbr s.twi.twdr s.twi.twps s.twi.twwc (s.twi.delay - 1)
  · exact h

/-- The interrupt enable stays off under SOURCE, whatever is written (10_state.md R31). -/
theorem TwiInv.fieldUpdate_twie {c : Config} {t : Twi} (h : TwiInv c t) (v : Byte) (hl : c.layout = .source) :
    (t.fieldUpdate c.layout v).twie = false := by
  simp [Twi.fieldUpdate, hl, h.noIe hl]

theorem TwiInv.disable {s : State} {v : Byte} (h : TwiInv s.cfg s.twi) (hen : fieldEn s.cfg.layout v = false) :
    TwiInv s.cfg (s.disable v).twi where
  noStatus _ := rfl
  busyNoInt hb := by cases hb
  busyEnabled hb := by cases hb
  heldEnabled hm := absurd rfl hm
  stopFlag he := by cases hen.symm.trans he
  opMode := opModeOk_none _
  stall hs := by cases hs
  noIe := h.fieldUpdate_twie v
  status := legalStatus_codeNone

theorem TwiInv.hold {s : State} {v : Byte} (h : TwiInv s.cfg s.twi) (hop : s.twi.op = none)
    (hen : fieldEn s.cfg.layout v = true) (hint : fieldInt v = false) (hsto : fieldSto v = false) :
    TwiInv s.cfg (s.hold v).twi := by
  have hop' : (s.hold v).twi.op = none := hop
  exact
    { noStatus := by simpa [State.hold, Twi.fieldUpdate, hint] using h.noStatus
      busyNoInt := by simp [hop']
      busyEnabled := fun _ => hen
      heldEnabled := fun _ => hen
      stopFlag := by simp [State.hold, Twi.fieldUpdate, hop, hsto]
      opMode := h.opMode
      stall := h.stall
      noIe := h.fieldUpdate_twie v
      status := h.status }

/-- An operation stalls only where SLAVE_MAY_STALL is true (40_twi_unit.md R130). -/
theorem State.drawStall_may {s : State} (h : s.drawStall.1 = true) : s.cfg.slaveMayStall = true := by
  by_contra hn
  rw [State.drawStall_of_not_may (Bool.eq_false_iff.2 hn)] at h
  cases h

theorem TwiInv.launch {s : State} {k : Op} {v : Byte} (h : TwiInv s.cfg s.twi) (hen : fieldEn s.cfg.layout v = true)
    (hint : fieldInt v = true) (hsto : fieldSto v = true ↔ k = .stop) (hm : opModeOk (some k) s.twi.mode) :
    TwiInv s.cfg (s.launch k v).twi where
  noStatus _ := rfl
  busyNoInt _ := by simp [State.launch, Twi.fieldUpdate, hint]
  busyEnabled _ := hen
  heldEnabled _ := hen
  stopFlag _ := by simpa [State.launch, Twi.fieldUpdate] using hsto
  opMode := hm
  stall := State.drawStall_may
  noIe := h.fieldUpdate_twie v
  status := legalStatus_codeNone

/-- A TWCR write that is not refused keeps the TWI unit's invariant (40_twi_unit.md R126-R137). -/
theorem TwiInv.writeTwcr {s t : State} {v : Byte} (h : TwiInv s.cfg s.twi) (hw : s.writeTwcr v = .next t) :
    TwiInv s.cfg t.twi := by
  obtain ⟨hen, rfl⟩ | ⟨hop, hen, hint, -, hsto, rfl⟩ | ⟨k, -, hen, hint, hsto, hm, rfl⟩ := State.writeTwcr_cases hw
  · exact h.disable hen
  · exact h.hold hop hen hint hsto
  · exact h.launch hen hint hsto hm

/-- No operation but STOP is in flight with TWSTO set (10_state.md R50). -/
theorem TwiInv.twsto_of_busy {c : Config} {t : Twi} (h : TwiInv c t) (hb : t.op.isSome = true) (hs : t.op ≠ some .stop) :
    t.twsto = false :=
  Bool.eq_false_iff.2 fun hsto => hs ((h.stopFlag (h.busyEnabled hb)).1 hsto)

theorem TwiInv.finished {s t : State} (h : TwiInv s.cfg s.twi) (hb : s.twi.op.isSome = true)
    (hs : s.twi.op ≠ some .stop) (hf : Finished s t) : TwiInv s.cfg t.twi := by
  obtain ⟨code, mode, ev, d, o, hcode, rfl⟩ := hf
  exact
    { noStatus := fun hi => by cases hi
      busyNoInt := fun hb => by cases hb
      busyEnabled := fun _ => h.busyEnabled hb
      heldEnabled := fun _ => h.busyEnabled hb
      stopFlag := fun _ => by simp [completeWith, h.twsto_of_busy hb hs]
      opMode := opModeOk_none mode
      stall := h.stall
      noIe := h.noIe
      status := hcode }

theorem TwiInv.completeStop {s : State} (h : TwiInv s.cfg s.twi) : TwiInv s.cfg (completeStop s).twi where
  noStatus _ := rfl
  busyNoInt hb := by cases hb
  busyEnabled hb := by cases hb
  heldEnabled hm := absurd rfl hm
  stopFlag _ := by simp [Machine.completeStop]
  opMode := opModeOk_none _
  stall := h.stall
  noIe := h.noIe
  status := legalStatus_codeNone

/-- The engine's step keeps the TWI unit's invariant. -/
theorem TwiInv.complete {s : State} (h : TwiInv s.cfg s.twi) : TwiInv s.cfg (complete s).twi := by
  obtain ⟨-, hs⟩ | ⟨-, hs⟩ | ⟨hb, hn, hf⟩ := complete_cases s
  · rwa [hs]
  · rw [hs]
    exact h.completeStop
  · exact h.finished hb hn hf

/-- A micro-step's access to the bus keeps the TWI unit's invariant. -/
theorem TwiInv.busAccess {s t : State} (h : TwiInv s.cfg s.twi) (ha : BusAccess s t) : TwiInv s.cfg t.twi := by
  obtain ⟨ht, -⟩ | ⟨b, ht, -⟩ | ⟨v, u, hw, ht, -⟩ := ha <;> rw [ht]
  · exact h
  · exact h.writeTwdr b
  · exact h.writeTwcr hw

/-- A host register access keeps the TWI unit's invariant. -/
theorem TwiInv.accessEffect {s t : State} (h : TwiInv s.cfg s.twi) (ha : AccessEffect s t) : TwiInv s.cfg t.twi := by
  obtain ⟨ht, -⟩ | ⟨v, ht, -⟩ | ⟨v, ht, -⟩ | ⟨v, ht, -⟩ | ⟨v, hw⟩ := ha
  · rwa [ht]
  · rw [ht]
    exact h.with_data v s.twi.twdr s.twi.twps s.twi.twwc s.twi.delay
  · rw [ht]
    exact h.writeTwsr v
  · rw [ht]
    exact h.writeTwdr v
  · exact h.writeTwcr hw

/-! ### The frame buffer's invariant -/

/-- A micro-step's drawing keeps the frame buffer's form (10_state.md R40). -/
theorem FbInv.drawAccess {s t : State} (h : FbInv s.cfg s.fb) (ha : DrawAccess s t) : FbInv s.cfg t.fb := by
  obtain ht | ⟨x, y, on, ht, -⟩ := ha <;> rw [ht]
  · exact h
  · exact ⟨drawPixel_wf x y on h.canonical, drawPixel_below x y on h.inside⟩

/-! ### The sequencer's invariant: its local computations -/

/-- What of the sequencer's invariant does not depend on the next micro-step, while a request runs. A local computation
starts from here and chooses the next micro-step. -/
structure Seq.InProgress (q : Seq) : Prop where
  busy : q.seqBusy = true
  req : q.req.isSome = true
  framePage : Job.frame ∈ q.jobs → q.locals.p < Config.pages

theorem SeqInv.inProgress {c : Config} {q : Seq} (h : SeqInv c q) (hp : q.pos ≠ .idle) : q.InProgress :=
  have hb := h.posBusy.2 hp
  ⟨hb, h.reqBusy.trans hb, h.framePage⟩

/-- A request that has just been issued has no transaction left to make. -/
theorem State.issue_inProgress (i : Instr) (s : State) : (s.issue i).seq.InProgress :=
  ⟨rfl, rfl, fun h => by cases h⟩

/-- The invariant with a chosen next micro-step: what is left to check is a wait's count and flush's read. -/
theorem Seq.InProgress.seqInv {c : Config} {q : Seq} (h : q.InProgress) (hp : q.pos ≠ .idle)
    (hw : ∀ p l, q.pos = .prim p .poll → c.pollLimit = some l → q.polls < l)
    (hg : q.pos = .gather → q.locals.p < Config.pages ∧ q.locals.i < c.width) : SeqInv c q :=
  ⟨h.req.trans h.busy.symm, ⟨fun _ => hp, fun _ => h.busy⟩, hw, h.framePage, hg⟩

/-- A response leaves the sequencer idle, with its invariant, from any state. -/
theorem State.respond_seqInv {c : Config} {r : Response} {s : State} : SeqInv c (s.respond r).seq where
  reqBusy := rfl
  posBusy := by simp [State.respond]
  pollsBelow _ _ hp := by cases hp
  framePage h := by cases h
  gather hp := by cases hp

section
variable {c : Config} {s : State}

/-- A micro-step that is neither a read of a wait nor of flush. -/
theorem State.goto_seqInv {q : Pos} (h : s.seq.InProgress) (hi : q ≠ .idle := by simp)
    (hw : ∀ p, q ≠ .prim p .poll := by simp) (hg : q ≠ .gather := by simp) : SeqInv c (s.goto q).seq :=
  Seq.InProgress.seqInv ⟨h.busy, h.req, h.framePage⟩ hi (fun p _ hp => absurd hp (hw p)) (fun hp => absurd hp hg)

theorem State.call_seqInv {p : Prim} (h : s.seq.InProgress) : SeqInv c (s.call p).seq :=
  State.goto_seqInv h

theorem State.startTxn_seqInv {t : Txn} (h : s.seq.InProgress) : SeqInv c (s.startTxn t).seq :=
  State.call_seqInv ⟨h.busy, h.req, h.framePage⟩

theorem State.beginWait_seqInv {p : Prim} (hc : c.wf = true) (h : s.seq.InProgress) : SeqInv c (s.beginWait p).seq :=
  Seq.InProgress.seqInv ⟨h.busy, h.req, h.framePage⟩ (fun hp => by cases hp)
    (fun _ _ _ hl => Config.pollLimit_pos hc hl) (fun hp => by cases hp)

theorem State.sendFrom_seqInv {bytes : List Byte} {i : Nat} (h : s.seq.InProgress) :
    SeqInv c (s.sendFrom bytes i).seq := by
  unfold State.sendFrom
  dsimp only
  split <;> exact State.call_seqInv ⟨h.busy, h.req, h.framePage⟩

theorem State.recvFrom_seqInv {n i : Nat} (h : s.seq.InProgress) : SeqInv c (s.recvFrom n i).seq := by
  unfold State.recvFrom
  dsimp only
  split <;> exact State.call_seqInv ⟨h.busy, h.req, h.framePage⟩

/-- The next display transaction: flush's data is of one of the pages (44_framebuffer.md R226). -/
theorem State.startJob_seqInv {j : Job} {rest : List Job} (hc : c.wf = true) (h : s.seq.InProgress)
    (hp : Job.frame ∈ j :: rest → s.seq.locals.p < Config.pages) : SeqInv c (s.startJob j rest).seq := by
  have hrest : Job.frame ∈ rest → s.seq.locals.p < Config.pages := fun hm => hp (List.mem_cons_of_mem _ hm)
  cases j with
  | cmd b => exact State.startTxn_seqInv ⟨h.busy, h.req, hrest⟩
  | frame =>
    exact Seq.InProgress.seqInv ⟨h.busy, h.req, hrest⟩ (fun hq => by cases hq) (fun _ _ hq => by cases hq)
      (fun _ => ⟨hp List.mem_cons_self, Config.width_pos hc⟩)

theorem State.startPage_seqInv {p : Nat} (hc : c.wf = true) (h : s.seq.InProgress) (hp : p < Config.pages) :
    SeqInv c (s.startPage p).seq :=
  State.startJob_seqInv hc ⟨h.busy, h.req, fun _ => hp⟩ (fun _ => hp)

theorem State.nextJob_seqInv (hc : c.wf = true) (h : s.seq.InProgress) : SeqInv c s.nextJob.seq := by
  unfold State.nextJob
  split
  · rename_i j rest hj
    exact State.startJob_seqInv hc h (hj ▸ h.framePage)
  · split
    · rename_i hp
      exact State.startPage_seqInv hc h hp.2
    · exact State.respond_seqInv

theorem State.txnDone_seqInv {r : Except BusError (List Byte)} (hc : c.wf = true) (h : s.seq.InProgress) :
    SeqInv c (s.txnDone r).seq := by
  unfold State.txnDone
  split
  · exact State.respond_seqInv
  · exact State.respond_seqInv
  · exact State.nextJob_seqInv hc ⟨h.busy, h.req, h.framePage⟩
  · exact State.respond_seqInv

theorem State.txnNext_seqInv {t : TxnFrame} {p : Prim} {v : List Byte} (hc : c.wf = true) (h : s.seq.InProgress) :
    SeqInv c (s.txnNext t p v).seq := by
  unfold State.txnNext
  split
  · exact State.call_seqInv h
  · exact State.sendFrom_seqInv h
  · exact State.sendFrom_seqInv h
  · exact State.call_seqInv h
  · exact State.txnDone_seqInv hc h
  · exact State.call_seqInv h
  · exact State.recvFrom_seqInv h
  · exact State.recvFrom_seqInv ⟨h.busy, h.req, h.framePage⟩
  · exact State.txnDone_seqInv hc h

theorem State.release_seqInv {t : TxnFrame} {e : BusError} (hc : c.wf = true) (h : s.seq.InProgress) :
    SeqInv c (s.release t e).seq := by
  unfold State.release
  split
  · exact State.txnDone_seqInv hc h
  · exact State.call_seqInv ⟨h.busy, h.req, h.framePage⟩

theorem State.primDone_seqInv {p : Prim} {r : Except BusError (List Byte)} (hc : c.wf = true) (h : s.seq.InProgress) :
    SeqInv c (s.primDone p r).seq := by
  unfold State.primDone
  split
  · split <;> exact State.respond_seqInv
  · split
    · exact State.txnDone_seqInv hc h
    · split
      · exact State.txnNext_seqInv hc h
      · exact State.release_seqInv hc h

theorem State.afterWait_seqInv {p : Prim} (hc : c.wf = true) (h : s.seq.InProgress) : SeqInv c (s.afterWait p).seq := by
  cases p with
  | stop => exact State.primDone_seqInv hc h
  | start | send | recv => exact State.goto_seqInv h

theorem State.statusResult_seqInv {p : Prim} {status : Byte} (hc : c.wf = true) (h : s.seq.InProgress) :
    SeqInv c (s.statusResult p status).seq := by
  cases p with
  | stop => exact State.primDone_seqInv hc h
  | start | send =>
    simp only [State.statusResult]
    split <;> exact State.primDone_seqInv hc h
  | recv ack i =>
    unfold State.statusResult
    dsimp only
    generalize codeRx (if ack then .ack else .nack) = expected
    split
    · exact State.goto_seqInv h
    · exact State.primDone_seqInv hc h

end

/-! ### The sequencer's invariant: its micro-steps -/

theorem State.writeTwcr_inProgress {s u : State} {v : Byte} (h : s.seq.InProgress) (hw : s.writeTwcr v = .next u) :
    u.seq.InProgress := by
  obtain ⟨-, hq, -, -⟩ := State.writeTwcr_frame hw
  rwa [hq]

/-- A wait on one more read: below the limit, or on to the recovery (41_bus_primitives.md R161). -/
theorem primPoll_seqInv {s : State} {p : Prim} (hc : s.cfg.wf = true) (h : SeqInv s.cfg s.seq)
    (hp : s.seq.pos = .prim p .poll) : SeqInv s.cfg (primPoll p s).seq := by
  have hr : s.seq.InProgress := h.inProgress (by simp [hp])
  unfold primPoll
  split
  · exact State.afterWait_seqInv hc hr
  · dsimp only
    split
    · exact State.goto_seqInv ⟨hr.busy, hr.req, hr.framePage⟩
    · rename_i hlim
      refine Seq.InProgress.seqInv ⟨hr.busy, hr.req, hr.framePage⟩ (by simp [hp]) (fun _ l _ hl => ?_) (by simp [hp])
      simpa [limitReached, hl] using hlim

/-- The first access of a primitive leads to its wait, or to sendByte's check (41_bus_primitives.md R163-R166). -/
theorem primWrite_seqInv {s t : State} {p : Prim} (hc : s.cfg.wf = true) (hr : s.seq.InProgress)
    (h : primWrite p s = .next t) : SeqInv s.cfg t.seq := by
  cases p with
  | send =>
    cases h
    exact State.goto_seqInv hr
  | start | stop | recv =>
    obtain ⟨u, hu, rfl⟩ := andThen_map_eq_next.1 h
    exact State.beginWait_seqInv hc (State.writeTwcr_inProgress hr hu)

/-- Every micro-step of a primitive keeps the sequencer's invariant. -/
theorem primStep_seqInv {s t : State} {p : Prim} {ph : Phase} (hc : s.cfg.wf = true) (hq : SeqInv s.cfg s.seq)
    (hp : s.seq.pos = .prim p ph) (h : primStep p ph s = .next t) : SeqInv s.cfg t.seq := by
  have hr : s.seq.InProgress := hq.inProgress (by simp [hp])
  cases ph with
  | write => exact primWrite_seqInv hc hr h
  | check =>
    cases h
    unfold primCheck
    split
    · exact State.primDone_seqInv hc hr
    · exact State.goto_seqInv hr
  | launch =>
    obtain ⟨u, hu, rfl⟩ := andThen_map_eq_next.1 h
    exact State.beginWait_seqInv hc (State.writeTwcr_inProgress hr hu)
  | poll =>
    cases h
    exact primPoll_seqInv hc hq hp
  | recover =>
    obtain ⟨u, hu, rfl⟩ := andThen_map_eq_next.1 h
    exact State.primDone_seqInv hc (State.writeTwcr_inProgress hr hu)
  | status =>
    cases h
    exact State.statusResult_seqInv hc ⟨hr.busy, hr.req, hr.framePage⟩
  | data =>
    cases h
    exact State.primDone_seqInv hc (by rwa [State.readTwdr_seq])

/-- One more byte of flush's page: the next read is still inside the page (44_framebuffer.md R226). -/
theorem gatherStep_seqInv {s t : State} (hq : SeqInv s.cfg s.seq) (hp : s.seq.pos = .gather)
    (h : gatherStep s = .next t) : SeqInv s.cfg t.seq := by
  have hr : s.seq.InProgress := hq.inProgress (by simp [hp])
  unfold gatherStep at h
  split at h
  · cases h
  · dsimp only at h
    split at h <;> cases h
    · rename_i hi
      exact Seq.InProgress.seqInv ⟨hr.busy, hr.req, hr.framePage⟩ (by simp [hp]) (by simp [hp])
        (fun _ => ⟨(hq.gather hp).1, hi⟩)
    · exact State.startTxn_seqInv ⟨hr.busy, hr.req, hr.framePage⟩

@[simp] theorem lineAdvance_p (l : Locals) : (lineAdvance l).p = l.p := by
  unfold lineAdvance lineStepY lineStepX
  split <;> split <;> rfl

theorem linePass_seqInv {s : State} {x1 y1 : Byte} {on : Bool} (hq : SeqInv s.cfg s.seq)
    (hp : s.seq.pos = .line x1 y1 on) : SeqInv s.cfg (linePass x1 y1 on s).seq := by
  have hr : s.seq.InProgress := hq.inProgress (by simp [hp])
  unfold linePass
  dsimp only
  split
  · exact State.respond_seqInv
  · exact Seq.InProgress.seqInv ⟨hr.busy, hr.req, by simpa using hr.framePage⟩ (by simp [hp]) (by simp [hp]) (by simp [hp])

/-- Every micro-step keeps the sequencer's invariant. -/
theorem seqStep_seqInv {s t : State} (hc : s.cfg.wf = true) (hq : SeqInv s.cfg s.seq) (h : seqStep s = .next t) :
    SeqInv s.cfg t.seq := by
  unfold seqStep at h
  split at h <;> rename_i hp
  · cases h
    exact hq
  · exact primStep_seqInv hc hq hp h
  · exact gatherStep_seqInv hq hp h
  · cases h
    exact State.respond_seqInv
  · cases h
    exact linePass_seqInv hq hp
  · cases h
    exact State.respond_seqInv

/-! ### The sequencer's invariant: the issue of a request -/

theorem State.startCommands_seqInv {c : Config} {s : State} {cmds : List Byte} (hc : c.wf = true) (h : s.seq.InProgress) :
    SeqInv c (s.startCommands cmds).seq := by
  cases cmds with
  | nil => exact State.goto_seqInv h
  | cons b rest => exact State.startJob_seqInv hc h (by simp)

theorem State.startRead_seqInv {c : Config} {s : State} {a : Byte} {n : Nat} (h : s.seq.InProgress) :
    SeqInv c (s.startRead a n).seq := by
  unfold State.startRead
  split
  · exact State.goto_seqInv h
  · exact State.startTxn_seqInv h

theorem State.startLine_seqInv {c : Config} {s : State} {x0 y0 x1 y1 : Byte} {on : Bool} (h : s.seq.InProgress) :
    SeqInv c (s.startLine x0 y0 x1 y1 on).seq :=
  Seq.InProgress.seqInv ⟨h.busy, h.req, h.framePage⟩ (fun hp => by cases hp) (fun _ _ hp => by cases hp)
    (fun hp => by cases hp)

theorem displayRequest_seqInv {c : Config} {i : Instr} {cmds : List Byte} {s t : State} (hc : c.wf = true)
    (h : displayRequest i cmds s = .next t) : SeqInv c t.seq := by
  obtain ⟨-, -, rfl⟩ := displayRequest_eq_next.1 h
  exact State.startCommands_seqInv hc (s.issue_inProgress i)

theorem rawSend_seqInv {c : Config} {i : Instr} {b : Byte} {role : SendRole} {s t : State}
    (h : rawSend i b role s = .next t) : SeqInv c t.seq := by
  obtain ⟨-, -, rfl⟩ := pairedRequest_eq_next.1 h
  exact State.call_seqInv (s.issue_inProgress i)

/-- The issue of a request sets up the sequencer's invariant. -/
theorem exec_request_seqInv {c : Config} {i : Instr} {s t : State} (hc : c.wf = true) (hi : formatOf i ≠ .access)
    (h : exec i s = .next t) : SeqInv c t.seq := by
  have hs : (s.issue i).seq.InProgress := s.issue_inProgress i
  cases i <;> simp only [formatOf, ne_eq, not_true_eq_false] at hi <;> simp only [exec] at h
  case busStart =>
    obtain ⟨-, -, rfl⟩ := pairedRequest_eq_next.1 h
    exact State.call_seqInv ⟨hs.busy, hs.req, hs.framePage⟩
  case busStop =>
    obtain ⟨-, rfl⟩ := request_eq_next.1 h
    exact State.call_seqInv ⟨hs.busy, hs.req, hs.framePage⟩
  case busSend | ctrlCmd | ctrlData | slaW | slaR => exact rawSend_seqInv h
  case busRecv =>
    obtain ⟨-, -, rfl⟩ := pairedRequest_eq_next.1 h
    exact State.call_seqInv hs
  case writeTxn =>
    obtain ⟨-, -, rfl⟩ := pairedRequest_eq_next.1 h
    exact State.startTxn_seqInv hs
  case readTxn =>
    obtain ⟨-, -, rfl⟩ := pairedRequest_eq_next.1 h
    exact State.startRead_seqInv hs
  case dispFlush =>
    obtain ⟨-, -, rfl⟩ := pairedRequest_eq_next.1 h
    exact State.startPage_seqInv hc hs (by decide)
  case fbPixel =>
    obtain ⟨-, rfl⟩ := request_eq_next.1 h
    exact State.goto_seqInv hs
  case fbLine =>
    obtain ⟨-, rfl⟩ := request_eq_next.1 h
    exact State.startLine_seqInv hs
  case dispSetPage =>
    unfold execDispSetPage at h
    split at h
    · cases h
    · exact displayRequest_seqInv hc h
  all_goals exact displayRequest_seqInv hc h

end Sys2Proof.Machine
end

section
/-! SUPPORT. What a step does outside the state of the agent that makes it, and the statements about every step. -/

namespace Sys2Proof.Machine

/-! ### What a step of the host does -/

@[simp] theorem State.tick_decodeCtx (s : State) : s.tick.decodeCtx = s.decodeCtx := by
  simp [State.decodeCtx, Twi.busy]

/-- The state with the instruction `i` taken off the head of the stream. -/
theorem fetch_of_decode {s : State} {b : Burst} {rest : List Burst} {i : Instr} {left : List Byte}
    (hs : s.host.stream = b :: rest) (hd : decode b.fmt s.decodeCtx b.bytes = .instr i left) :
    fetch s = .instr i (s.withStream (streamAfter b left rest)) := by
  simp [fetch, hs, hd]

/-- What an instruction of the host does: a register access, or the issue of a request. -/
theorem exec_frame {i : Instr} {s t : State} (h : exec i s = .next t) : AccessFrame s t ∨ IssueFrame i s t := by
  by_cases hi : formatOf i = .access
  · exact .inl (exec_access hi h)
  · exact .inr (exec_request hi h)

/-- A step, with what it does outside the state of its agent: a completion; a micro-step; or a step of the host, which issues
nothing for this block, or runs the instruction it takes off its stream. -/
theorem step_effect {s t : State} (h : step s = .next t) :
    (nextAgent s = .engine ∧ t = complete s) ∨
    (nextAgent s = .sequencer ∧ seqStep s.tick = .next t ∧ SeqFrame s.tick t) ∨
    (nextAgent s = .host ∧ ((∃ q, t = s.tick.withStream q) ∨
      ∃ i q, fetch s.tick = .instr i (s.tick.withStream q) ∧ exec i (s.tick.withStream q) = .next t)) := by
  obtain ⟨ha, ht⟩ | ⟨ha, hq⟩ | ⟨ha, ⟨-, ht⟩ | ⟨i, u, hf, he⟩ | hf⟩ := step_cases h
  · exact .inl ⟨ha, ht⟩
  · exact .inr (.inl ⟨ha, hq, seqStep_frame hq⟩)
  · exact .inr (.inr ⟨ha, .inl ⟨s.tick.host.stream, ht⟩⟩)
  · obtain ⟨b, rest, left, -, -, rfl⟩ := fetch_instr hf
    exact .inr (.inr ⟨ha, .inr ⟨i, _, hf, he⟩⟩)
  · exact .inr (.inr ⟨ha, .inl (fetch_elsewhere hf)⟩)

/-! ### The trace (10_state.md R47) -/

/-- A TWCR write adds nothing to the trace but the Abort of a disable (40_twi_unit.md R128). -/
theorem State.writeTwcr_trace {s t : State} {v : Byte} (h : s.writeTwcr v = .next t) :
    t.trace = s.trace ∨ t.trace = s.trace ++ [.abort] := by
  obtain ⟨-, rfl⟩ | ⟨-, -, -, -, -, rfl⟩ | ⟨k, -, -, -, -, -, rfl⟩ := State.writeTwcr_cases h
  · unfold State.disable
    dsimp only
    split
    · exact .inl rfl
    · exact .inr rfl
  · exact .inl (State.hold_trace v s)
  · exact .inl (State.launch_trace k v s)

theorem BusAccess.trace {s t : State} (h : BusAccess s t) : t.trace = s.trace ∨ t.trace = s.trace ++ [.abort] := by
  obtain ⟨-, ht⟩ | ⟨b, -, ht⟩ | ⟨v, u, hw, -, ht⟩ := h
  · exact .inl ht
  · exact .inl ht
  · rw [ht]
    exact State.writeTwcr_trace hw

theorem AccessEffect.trace {s t : State} (h : AccessEffect s t) : t.trace = s.trace ∨ t.trace = s.trace ++ [.abort] := by
  obtain ⟨-, ht⟩ | ⟨v, -, ht⟩ | ⟨v, -, ht⟩ | ⟨v, -, ht⟩ | ⟨v, hw⟩ := h
  · exact .inl ht
  · exact .inl ht
  · exact .inl ht
  · exact .inl ht
  · exact State.writeTwcr_trace hw

/-- A completion adds at most one event. -/
theorem complete_trace (s : State) : (complete s).trace = s.trace ∨ ∃ ev, (complete s).trace = s.trace ++ [ev] := by
  obtain ⟨-, hs⟩ | ⟨-, hs⟩ | ⟨-, -, code, mode, ev, d, o, -, hs⟩ := complete_cases s <;> rw [hs]
  · exact .inl rfl
  · unfold completeStop
    dsimp only
    split
    · exact .inl rfl
    · exact .inr ⟨_, rfl⟩
  · exact .inr ⟨ev, rfl⟩

/-! ### The invariant of the machine -/

theorem Inv.tick {s : State} (h : Inv s) : Inv s.tick :=
  ⟨by simpa using h.cfg, by simpa using h.twi.tick, by simpa using h.seq, by simpa using h.fb⟩

/-- The invariant does not read the host's stream. -/
theorem Inv.withStream {s : State} (h : Inv s) (q : List Burst) : Inv (s.withStream q) :=
  ⟨h.cfg, h.twi, h.seq, h.fb⟩

theorem Inv.complete {s : State} (h : Inv s) : Inv (complete s) := by
  obtain ⟨hcfg, hseq, hfb, -⟩ := complete_frame s
  exact ⟨hcfg ▸ h.cfg, hcfg ▸ h.twi.complete, hcfg ▸ hseq ▸ h.seq, hcfg ▸ hfb ▸ h.fb⟩

theorem Inv.seqStep {s t : State} (h : Inv s) (hs : seqStep s = .next t) : Inv t := by
  have hf := seqStep_frame hs
  have hq := seqStep_seqInv h.cfg h.seq hs
  exact ⟨hf.cfg ▸ h.cfg, hf.cfg ▸ h.twi.busAccess hf.bus, hf.cfg ▸ hq, hf.cfg ▸ h.fb.drawAccess hf.draw⟩

/-- An instruction of the host keeps the invariant: an access by its effect on the TWI unit, a request by its issue. -/
theorem Inv.exec {i : Instr} {s t : State} (h : Inv s) (he : exec i s = .next t) : Inv t := by
  by_cases hi : formatOf i = .access
  · have hf := exec_access hi he
    exact ⟨hf.cfg ▸ h.cfg, hf.cfg ▸ h.twi.accessEffect hf.effect, hf.cfg ▸ hf.seq ▸ h.seq, hf.cfg ▸ hf.fb ▸ h.fb⟩
  · have hf := exec_request hi he
    exact ⟨hf.cfg ▸ h.cfg, hf.cfg ▸ hf.twi ▸ h.twi, exec_request_seqInv (hf.cfg ▸ h.cfg) hi he, hf.cfg ▸ hf.fb ▸ h.fb⟩

/-! ### When a request is issued -/

theorem request_next {i : Instr} {s : State} {run : State → State} (hb : s.seq.seqBusy = false) :
    ∃ t, request i s run = .next t := ⟨_, request_eq_next.2 ⟨hb, rfl⟩⟩

theorem pairedRequest_next {i : Instr} {ok : Bool} {s : State} {run : State → State} (hb : s.seq.seqBusy = false)
    (hok : ok = true) : ∃ t, pairedRequest i ok s run = .next t := ⟨_, pairedRequest_eq_next.2 ⟨hb, hok, rfl⟩⟩

/-- An accepted, well-formed request answers with a next state: what `accepted` asks of `open` is what its row asks. -/
theorem exec_of_accepted {i : Instr} {s : State} (hi : formatOf i ≠ .access) (hwf : i.wf s.cfg.layout = true)
    (ha : accepted i s = true) : ∃ t, exec i s = .next t := by
  have hb := accepted_notBusy ha
  obtain ⟨-, hok⟩ := Bool.and_eq_true_iff.1 ha
  clear ha
  cases i <;> simp only [formatOf, ne_eq, not_true_eq_false] at hi <;> simp only [exec] <;> dsimp only at hok
  case busStop | fbPixel | fbLine => exact request_next hb
  case dispSetPage p =>
    have hp : ¬ Config.pages ≤ p.toNat := by simpa [Instr.wf] using hwf
    rw [execDispSetPage, if_neg hp]
    exact pairedRequest_next hb hok
  all_goals exact pairedRequest_next hb hok

end Sys2Proof.Machine

open Sys2Proof Sys2Proof.Machine

/-- Settles O3: the engine, the sequencer and the host each keep every clause. -/
theorem stepKeepsTheInvariant : Obligations.StepKeepsTheInvariant := by
  intro s t h hstep
  obtain ⟨-, rfl⟩ | ⟨-, hq, -⟩ | ⟨-, ⟨q, rfl⟩ | ⟨i, q, -, he⟩⟩ := step_effect hstep
  · exact h.complete
  · exact h.tick.seqStep hq
  · exact h.tick.withStream q
  · exact (h.tick.withStream q).exec he

/-- Settles O34: each agent's frame leaves the parameters alone. -/
theorem configurationNeverChanges : Obligations.ConfigurationNeverChanges := by
  intro s t hstep
  obtain ⟨-, rfl⟩ | ⟨-, -, hf⟩ | ⟨-, ⟨q, rfl⟩ | ⟨i, q, -, he⟩⟩ := step_effect hstep
  · obtain ⟨hcfg, -, -, -⟩ := complete_frame s
    exact hcfg
  · simpa using hf.cfg
  · simp
  · obtain hf | hf := exec_frame he <;> simpa using hf.cfg

/-- Settles O35: outside the engine's step only the Abort of a disable is added. -/
theorem traceOnlyGrowsByTheEngine : Obligations.TraceOnlyGrowsByTheEngine := by
  intro s t hstep
  have of_abort : t.trace = s.trace ∨ t.trace = s.trace ++ [.abort] →
      t.trace = s.trace ∨ ∃ ev, t.trace = s.trace ++ [ev] ∧ (ev = .abort ∨ nextAgent s = .engine) :=
    Or.imp_right fun h => ⟨.abort, h, .inl rfl⟩
  obtain ⟨ha, rfl⟩ | ⟨-, -, hf⟩ | ⟨-, ⟨q, rfl⟩ | ⟨i, q, -, he⟩⟩ := step_effect hstep
  · exact (complete_trace s).imp_right fun ⟨ev, hev⟩ => ⟨ev, hev, .inr ha⟩
  · exact of_abort (by simpa using hf.bus.trace)
  · exact .inl (by simp)
  · obtain hf | hf := exec_frame he
    · exact of_abort (by simpa using hf.effect.trace)
    · exact .inl (by simpa using hf.trace)

/-- Settles O37: of all that a step can do, only the issue of BUS_START and of BUS_STOP writes `open`. -/
theorem openChangesOnlyByStartAndStop : Obligations.OpenChangesOnlyByStartAndStop := by
  intro s t hstep hne
  obtain ⟨-, rfl⟩ | ⟨-, -, hf⟩ | ⟨ha, ⟨q, rfl⟩ | ⟨i, q, hfetch, he⟩⟩ := step_effect hstep
  · obtain ⟨-, hseq, -, -⟩ := complete_frame s
    exact absurd (congrArg Seq.isOpen hseq) hne
  · exact absurd (by simpa using hf.isOpen) hne
  · exact absurd (by simp) hne
  · refine ⟨ha, ?_⟩
    obtain hf | hf := exec_frame he
    · exact absurd (by simpa using congrArg Seq.isOpen hf.seq) hne
    · have hopen := hf.isOpen
      split at hopen
      · rename_i hi
        exact .inl ⟨hopen, _, hi ▸ hfetch⟩
      · split at hopen
        · rename_i hi
          exact .inr ⟨hopen, _, hi ▸ hfetch⟩
        · exact absurd (by simpa using hopen) hne

/-- Settles O40: an accepted request answers with a next state, and every issue has the frame. -/
theorem acceptedRequestIsIssued : Obligations.AcceptedRequestIsIssued := by
  intro s i hi hwf ha
  obtain ⟨t, ht⟩ := exec_of_accepted hi hwf ha
  have hf := exec_request hi ht
  exact ⟨t, ht, hf.cfg, hf.twi, fun a => by rw [hf.fb], hf.trace, hf.seqBusy, hf.req, hf.pos, hf.lastStatus, hf.isOpen,
    hf.resp, hf.oracle, hf.host⟩

/-- Settles O12: the passing of a step leaves what the decoder reads. -/
theorem stepRunsTheDecodedInstruction : Obligations.StepRunsTheDecodedInstruction := by
  intro s b rest i left ha hs hd
  have hf : fetch s.tick = .instr i (s.tick.withStream (streamAfter b left rest)) :=
    fetch_of_decode (by simpa using hs) (by simpa using hd)
  simp [step, ha, hostStep, hf]

end

section
/-! SUPPORT. The memory rules: flush reads inside the frame buffer, only drawing writes it, and what a host register access
refuses, changes and leaves unchanged. -/

namespace Sys2Proof.Machine

/-! ### Faults (20_memory.md R61) -/

/-- A byte of a page is a byte of the frame buffer (44_framebuffer.md R226). -/
theorem SeqInv.gather_inside {c : Config} {q : Seq} (h : SeqInv c q) (hp : q.pos = .gather) :
    q.locals.p * c.width + q.locals.i < c.bufSize := by
  obtain ⟨hpage, hcol⟩ := h.gather hp
  calc q.locals.p * c.width + q.locals.i
      < q.locals.p * c.width + c.width := Nat.add_lt_add_left hcol _
    _ = (q.locals.p + 1) * c.width := (Nat.succ_mul ..).symm
    _ ≤ Config.pages * c.width := Nat.mul_le_mul_right _ hpage

/-- Under its invariant the sequencer makes its micro-step without a fault. -/
theorem Inv.seqStep_no_fault {s : State} (h : Inv s) (r : Fault) : Machine.seqStep s ≠ .fault r := by
  intro hs
  obtain ⟨hp, hout⟩ := seqStep_fault hs
  exact absurd (h.seq.gather_inside hp) (Nat.not_lt.2 hout)

/-- The host's step never faults. -/
theorem hostStep_no_fault (s : State) (r : Fault) : hostStep s ≠ .fault r := by
  unfold hostStep
  split
  case h_2 i u _ => exact exec_no_fault i u r
  all_goals nofun

/-- A step that faults is a micro-step of the sequencer. -/
theorem step_fault {s : State} {r : Fault} (h : step s = .fault r) : seqStep s.tick = .fault r := by
  unfold step at h
  split at h
  · cases h
  · exact h
  · exact absurd h (hostStep_no_fault _ r)

/-! ### Host register accesses (20_memory.md R72, R78, 40_twi_unit.md R121-R130) -/

theorem State.locked_iff {s : State} : s.locked = true ↔ s.seq.seqBusy = true ∨ s.seq.isOpen = true :=
  Bool.or_eq_true_iff

/-- Every ACCESS instruction goes through the host's guard (20_memory.md R78). -/
theorem exec_access_guarded {i : Instr} (s : State) (hi : formatOf i = .access) : ∃ o, exec i s = hostAccess s o := by
  cases i <;> simp only [formatOf, reduceCtorEq] at hi <;> exact ⟨_, rfl⟩

/-- A host access that goes on to `u` while the register set is the host's. -/
theorem hostAccess_next_eq_next {s t u : State} : hostAccess s (.next u) = .next t ↔ s.locked = false ∧ t = u := by
  rw [hostAccess_eq_next, Host.Outcome.next.injEq, eq_comm (a := t)]

/-- A host read changes nothing of the TWI unit or the trace (20_memory.md R72). -/
theorem exec_read_frame {i : Instr} {s t : State} (hi : i = .rdTwbr ∨ i = .rdTwsr ∨ i = .rdTwdr ∨ i = .rdTwcr)
    (h : exec i s = .next t) : t.twi = s.twi ∧ t.trace = s.trace := by
  obtain rfl | rfl | rfl | rfl := hi <;> obtain ⟨-, rfl⟩ := hostAccess_next_eq_next.1 h <;> simp

/-- A TWDR write, stored or not, changes TWDR and TWWC only (40_twi_unit.md R124). -/
theorem Twi.writeTwdr_frame (v : Byte) (t : Twi) :
    t.writeTwdr v = { t with twdr := (t.writeTwdr v).twdr, twwc := (t.writeTwdr v).twwc } := by
  unfold Twi.writeTwdr
  split <;> rfl

/-- A TWCR row that answers with a next state is the write of its byte, whatever its line. -/
theorem exec_twcrWrite_next {i : Instr} {line : TwcrLine} {v : Byte} {s t : State} (hi : i.twcrWrite = some (line, v))
    (h : exec i s = .next t) : s.writeTwcr v = .next t := by
  cases i <;> cases hi
  case wrTwcrNointSta | wrTwcrNointSto | twiStasto | twiByteRefused | wrTwcrWhileBusy =>
    obtain ⟨-, h⟩ := hostAccess_eq_next.1 h
    cases h
  all_goals
    obtain ⟨-, hw⟩ := hostTwcr_eq_next h
    exact hw

/-- A TWCR write leaves the other registers and TWWC alone (40_twi_unit.md R126-R130). -/
theorem State.writeTwcr_data {s t : State} {v : Byte} (h : s.writeTwcr v = .next t) :
    t.twi.twbr = s.twi.twbr ∧ t.twi.twdr = s.twi.twdr ∧ t.twi.twps = s.twi.twps ∧ t.twi.twwc = s.twi.twwc := by
  obtain ⟨-, rfl⟩ | ⟨-, -, -, -, -, rfl⟩ | ⟨k, -, -, -, -, -, rfl⟩ := State.writeTwcr_cases h <;>
    exact ⟨rfl, rfl, rfl, rfl⟩

end Sys2Proof.Machine

open Sys2Proof Sys2Proof.Machine

/-- Settles O4: only flush's read can fault, and the invariant keeps it inside its page. -/
theorem invariantStepNeverFaults : Obligations.InvariantStepNeverFaults :=
  fun _ r h hstep => h.tick.seqStep_no_fault r (step_fault hstep)

/-- Settles O25: the frame that all accesses share, and one clause per kind of access. -/
theorem hostAccessFrame : Obligations.HostAccessFrame := by
  intro s t i hi h
  have hf := exec_access hi h
  refine ⟨hf.cfg, hf.seq, fun a => by rw [hf.fb], hf.stream, fun hr => exec_read_frame hr h, ?_, ?_, ?_, fun hw => ?_⟩
  · rintro v rfl
    obtain ⟨-, rfl⟩ := hostAccess_next_eq_next.1 h
    exact ⟨rfl, rfl⟩
  · rintro v rfl
    obtain ⟨-, rfl⟩ := hostAccess_next_eq_next.1 h
    exact ⟨rfl, rfl⟩
  · rintro v rfl
    obtain ⟨-, rfl⟩ := hostAccess_next_eq_next.1 h
    exact ⟨s.twi.writeTwdr_frame v, rfl⟩
  · obtain ⟨⟨line, v⟩, hl⟩ := Option.isSome_iff_exists.1 hw
    have hwrite := exec_twcrWrite_next hl h
    obtain ⟨hbr, hdr, hps, hwc⟩ := State.writeTwcr_data hwrite
    exact ⟨hbr, hdr, hps, hwc, State.writeTwcr_trace hwrite⟩

/-- Settles O36: the engine and the host leave the frame buffer alone, and a micro-step that draws is of a pixel or a line. -/
theorem frameBufferChangesOnlyByDrawing : Obligations.FrameBufferChangesOnlyByDrawing := by
  intro s t hstep hne
  obtain ⟨-, rfl⟩ | ⟨ha, -, hf⟩ | ⟨-, ⟨q, rfl⟩ | ⟨i, q, -, he⟩⟩ := step_effect hstep
  · obtain ⟨-, -, hfb, -⟩ := complete_frame s
    exact absurd hfb hne
  · obtain hfb | ⟨-, -, -, -, hp⟩ := hf.draw
    · exact absurd (by simpa using hfb) hne
    · exact ⟨ha, by simpa using hp⟩
  · exact absurd (by simp) hne
  · obtain hf | hf := exec_frame he <;> exact absurd (by simpa using hf.fb) hne

/-- Settles O24: the guard of every ACCESS instruction answers before its meaning does. -/
theorem hostAccessWhileOwnedIsRefused : Obligations.HostAccessWhileOwnedIsRefused := by
  intro s i hs hi
  obtain ⟨o, he⟩ := exec_access_guarded s hi
  exact he.trans (hostAccess_locked (State.locked_iff.2 hs))

end

section
/-! SUPPORT. The decoder against the encoder (30_encoding.md): one lemma per function of the decoder, each an equivalence, so
that both directions of the round trip use the same lemmas. -/

namespace Sys2Proof

open Machine

/-! ### Argument bytes (30_encoding.md R102) -/

@[simp] theorem decodeBool_eq_some {b : Byte} {k : Bool} : decodeBool b = some k ↔ b = encodeBool k := by
  revert b
  cases k <;> decide

@[simp] theorem decodeRole_eq_some {b : Byte} {role : Role} : decodeRole b = some role ↔ b = encodeRole role := by
  revert b
  cases role <;> decide

/-- An argument that is outside its set leaves no instruction. -/
theorem orIllFormed_eq_instr {α : Type} {o : Option α} {f : α → Instr} {i : Instr} {left rest : List Byte} :
    orIllFormed (o.map f) left = .instr i rest ↔ ∃ a, o = some a ∧ i = f a ∧ left = rest := by
  cases o <;> simp [orIllFormed, eq_comm]

/-! ### Arguments of the requests and of the display commands (30_encoding.md R97, R101) -/

section
variable {args rest : List Byte} {i : Instr}

theorem decodeSend_eq_instr :
    decodeSend args = .instr i rest ↔ ∃ b role, i = .busSend b role ∧ args = b :: encodeRole role :: rest := by
  fun_cases decodeSend args <;> grind [orIllFormed_eq_instr, decodeRole_eq_some]

theorem decodeRecv_eq_instr :
    decodeRecv args = .instr i rest ↔ ∃ ack, i = .busRecv ack ∧ args = encodeBool ack :: rest := by
  fun_cases decodeRecv args <;> grind [orIllFormed_eq_instr, decodeBool_eq_some]

theorem decodeReadTxn_eq_instr :
    decodeReadTxn args = .instr i rest ↔ ∃ a n, i = .readTxn a n ∧ args = a :: n :: rest := by
  fun_cases decodeReadTxn args <;> grind

theorem decodeDispCmd_eq_instr :
    decodeDispCmd args = .instr i rest ↔ ∃ b, i = .dispCmd b ∧ args = b :: rest := by
  fun_cases decodeDispCmd args <;> grind

theorem decodeSetCol_eq_instr :
    decodeSetCol args = .instr i rest ↔ ∃ a b, i = .dispSetCol a b ∧ args = a :: b :: rest := by
  fun_cases decodeSetCol args <;> grind

theorem decodeSetPage_eq_instr :
    decodeSetPage args = .instr i rest ↔ ∃ p, i = .dispSetPage p ∧ p.toNat < Config.pages ∧ args = p :: rest := by
  fun_cases decodeSetPage args <;> grind

theorem decodePixel_eq_instr :
    decodePixel args = .instr i rest ↔ ∃ x y on, i = .fbPixel x y on ∧ args = x :: y :: encodeBool on :: rest := by
  fun_cases decodePixel args <;> grind [orIllFormed_eq_instr, decodeBool_eq_some]

theorem decodeLine_eq_instr :
    decodeLine args = .instr i rest ↔
      ∃ x0 y0 x1 y1 on, i = .fbLine x0 y0 x1 y1 on ∧ args = x0 :: y0 :: x1 :: y1 :: encodeBool on :: rest := by
  fun_cases decodeLine args <;> grind [orIllFormed_eq_instr, decodeBool_eq_some]

theorem decodeOneArg_eq_instr {f : Byte → Instr} :
    decodeOneArg f args = .instr i rest ↔ ∃ c, i = f c ∧ args = c :: rest := by
  fun_cases decodeOneArg f args <;> grind

theorem decodeWindow_eq_instr :
    decodeWindow args = .instr i rest ↔ ∃ a b, i = .setColumnWindow a b ∧ args = a :: b :: rest := by
  fun_cases decodeWindow args <;> grind

/-- The length byte counts the bytes after it, so it is at most 255 (30_encoding.md R102). -/
theorem decodeWriteTxn_eq_instr :
    decodeWriteTxn args = .instr i rest ↔
      ∃ a bytes, i = .writeTxn a bytes ∧ bytes.length ≤ 255 ∧
        args = a :: BitVec.ofNat 8 bytes.length :: (bytes ++ rest) := by
  constructor
  · intro h
    unfold decodeWriteTxn at h
    split at h
    · rename_i a n more
      split at h
      · rename_i hn
        obtain ⟨rfl, rfl⟩ := Decoded.instr.inj h
        have hlen : (more.take n.toNat).length = n.toNat := List.length_take_of_le hn
        exact ⟨a, _, rfl, by omega, by rw [hlen, BitVec.ofNat_toNat, List.take_append_drop]; simp⟩
      · cases h
    · cases h
  · rintro ⟨a, bytes, rfl, hlen, rfl⟩
    have hn : (BitVec.ofNat 8 bytes.length).toNat = bytes.length := Nat.mod_eq_of_lt (by omega)
    simp [decodeWriteTxn, hn]

end

/-! ### The formats but ACCESS (30_encoding.md R86) -/

theorem decodeSeq_eq_instr {l : TwcrLayout} {r : RegAddr} {bytes rest : List Byte} {i : Instr} :
    decodeSeq bytes = .instr i rest ↔ formatOf i = .seq ∧ i.wf l = true ∧ bytes = encode r i ++ rest := by
  constructor
  · fun_cases decodeSeq bytes <;> intro h
    case case4 => obtain ⟨b, role, rfl, rfl⟩ := decodeSend_eq_instr.1 h; exact ⟨rfl, rfl, rfl⟩
    case case5 => obtain ⟨ack, rfl, rfl⟩ := decodeRecv_eq_instr.1 h; exact ⟨rfl, rfl, rfl⟩
    case case6 =>
      obtain ⟨a, data, rfl, hlen, rfl⟩ := decodeWriteTxn_eq_instr.1 h
      exact ⟨rfl, decide_eq_true hlen, rfl⟩
    case case7 => obtain ⟨a, n, rfl, rfl⟩ := decodeReadTxn_eq_instr.1 h; exact ⟨rfl, rfl, rfl⟩
    case case9 => obtain ⟨b, rfl, rfl⟩ := decodeDispCmd_eq_instr.1 h; exact ⟨rfl, rfl, rfl⟩
    case case10 => obtain ⟨a, b, rfl, rfl⟩ := decodeSetCol_eq_instr.1 h; exact ⟨rfl, rfl, rfl⟩
    case case11 =>
      obtain ⟨p, rfl, hp, rfl⟩ := decodeSetPage_eq_instr.1 h
      exact ⟨rfl, decide_eq_true hp, rfl⟩
    case case13 => obtain ⟨x, y, on, rfl, rfl⟩ := decodePixel_eq_instr.1 h; exact ⟨rfl, rfl, rfl⟩
    case case14 => obtain ⟨x0, y0, x1, y1, on, rfl, rfl⟩ := decodeLine_eq_instr.1 h; exact ⟨rfl, rfl, rfl⟩
    -- No bytes, a reserved operation byte, and the requests without arguments.
    all_goals cases h <;> exact ⟨rfl, rfl, rfl⟩
  · rintro ⟨hi, hwf, rfl⟩
    cases i <;> simp only [formatOf, reduceCtorEq] at hi
    case busSend b role => exact decodeSend_eq_instr.2 ⟨b, role, rfl, rfl⟩
    case busRecv ack => exact decodeRecv_eq_instr.2 ⟨ack, rfl, rfl⟩
    case writeTxn a data => exact decodeWriteTxn_eq_instr.2 ⟨a, data, rfl, of_decide_eq_true hwf, rfl⟩
    case dispSetPage p => exact decodeSetPage_eq_instr.2 ⟨p, rfl, of_decide_eq_true hwf, rfl⟩
    case fbPixel x y on => exact decodePixel_eq_instr.2 ⟨x, y, on, rfl, rfl⟩
    case fbLine x0 y0 x1 y1 on => exact decodeLine_eq_instr.2 ⟨x0, y0, x1, y1, on, rfl, rfl⟩
    all_goals rfl

/-! A first byte that matches a mask of the opcode table is the table's bits and its operand (30_encoding.md R96). -/

theorem setPageStart_of_mask {b : Byte} : b &&& 0xF8#8 = 0xB0#8 → b = 0b10110#5 ++ b.truncate 3 := by
  revert b
  decide

theorem setLowerCol_of_mask {b : Byte} : b &&& 0xF0#8 = 0x00#8 → b = 0x0#4 ++ b.truncate 4 := by
  revert b
  decide

theorem setUpperCol_of_mask {b : Byte} : b &&& 0xF0#8 = 0x10#8 → b = 0x1#4 ++ b.truncate 4 := by
  revert b
  decide

theorem setStartLine_of_mask {b : Byte} : b &&& 0xC0#8 = 0x40#8 → b = 0b01#2 ++ b.truncate 6 := by
  revert b
  decide

/-- A command of one byte is decoded whatever follows it. -/
theorem decodeDevcmd_of_alone {b : Byte} {i : Instr} {rest : List Byte} (h : decodeDevcmd [b] = .instr i []) :
    decodeDevcmd (b :: rest) = .instr i rest := by
  dsimp only [decodeDevcmd, decodeOneArg, decodeWindow] at h ⊢
  grind

theorem decodeDevcmd_eq_instr {l : TwcrLayout} {r : RegAddr} {bytes rest : List Byte} {i : Instr} :
    decodeDevcmd bytes = .instr i rest ↔ formatOf i = .devcmd ∧ i.wf l = true ∧ bytes = encode r i ++ rest := by
  constructor
  · fun_cases decodeDevcmd bytes <;> intro h
    case case4 | case6 => obtain ⟨c, rfl, rfl⟩ := decodeOneArg_eq_instr.1 h; exact ⟨rfl, rfl, rfl⟩
    case case5 => obtain ⟨a, b, rfl, rfl⟩ := decodeWindow_eq_instr.1 h; exact ⟨rfl, rfl, rfl⟩
    case case7 hb => cases h; exact ⟨rfl, rfl, congrArg (· :: rest) (setPageStart_of_mask hb)⟩
    case case8 hb => cases h; exact ⟨rfl, rfl, congrArg (· :: rest) (setLowerCol_of_mask hb)⟩
    case case9 hb => cases h; exact ⟨rfl, rfl, congrArg (· :: rest) (setUpperCol_of_mask hb)⟩
    case case10 hb => cases h; exact ⟨rfl, rfl, congrArg (· :: rest) (setStartLine_of_mask hb)⟩
    -- No bytes, an unknown byte, and the commands without an operand.
    all_goals cases h <;> exact ⟨rfl, rfl, rfl⟩
  · rintro ⟨hi, -, rfl⟩
    cases i <;> simp only [formatOf, reduceCtorEq] at hi
    case setPageStart p => exact decodeDevcmd_of_alone (by revert p; decide)
    case setLowerCol n => exact decodeDevcmd_of_alone (by revert n; decide)
    case setUpperCol n => exact decodeDevcmd_of_alone (by revert n; decide)
    case setStartLine n => exact decodeDevcmd_of_alone (by revert n; decide)
    all_goals rfl

theorem decodeCtrl_eq_instr {l : TwcrLayout} {r : RegAddr} {bytes rest : List Byte} {i : Instr} :
    decodeCtrl bytes = .instr i rest ↔ formatOf i = .ctrl ∧ i.wf l = true ∧ bytes = encode r i ++ rest := by
  constructor
  · fun_cases decodeCtrl bytes <;> intro h <;> cases h <;> exact ⟨rfl, rfl, rfl⟩
  · rintro ⟨hi, -, rfl⟩
    cases i <;> simp only [formatOf, reduceCtorEq] at hi <;> rfl

/-- An address byte is its address and its direction bit (30_encoding.md R93). -/
theorem addressByte_bits (b : Byte) : b = b.extractLsb' 1 7 ++ BitVec.ofBool (b.getLsbD 0) := by
  revert b
  decide

theorem decodeSla_alone {b : Byte} {i : Instr} {rest : List Byte} (h : decodeSla [b] = .instr i []) :
    decodeSla (b :: rest) = .instr i rest := by
  simpa [decodeSla] using h

theorem decodeSla_eq_instr {l : TwcrLayout} {r : RegAddr} {bytes rest : List Byte} {i : Instr} :
    decodeSla bytes = .instr i rest ↔ formatOf i = .sla ∧ i.wf l = true ∧ bytes = encode r i ++ rest := by
  constructor
  · intro h
    cases bytes with
    | nil => cases h
    | cons b args =>
      obtain ⟨rfl, rfl⟩ := Decoded.instr.inj h
      have hb := addressByte_bits b
      cases hd : b.getLsbD 0 <;> rw [hd] at hb <;> exact ⟨rfl, rfl, congrArg (· :: args) hb⟩
  · rintro ⟨hi, -, rfl⟩
    cases i <;> simp only [formatOf, reduceCtorEq] at hi
    case slaW a => exact decodeSla_alone (by revert a; decide)
    case slaR a => exact decodeSla_alone (by revert a; decide)

theorem formatOf_ne_wideAccess (i : Instr) : formatOf i ≠ .wideAccess := by
  cases i <;> nofun

/-- Every format but ACCESS is decoded exactly where it is encoded. -/
theorem decode_eq_instr {f : Format} {ctx : DecodeCtx} {bytes rest : List Byte} {i : Instr} (hf : f ≠ .access) :
    decode f ctx bytes = .instr i rest ↔
      formatOf i = f ∧ i.wf ctx.cfg.layout = true ∧ bytes = encode ctx.cfg.regAddr i ++ rest := by
  cases f with
  | access => exact absurd rfl hf
  | wideAccess => exact ⟨nofun, fun h => absurd h.1 (formatOf_ne_wideAccess i)⟩
  | seq => exact decodeSeq_eq_instr
  | devcmd => exact decodeDevcmd_eq_instr
  | ctrl => exact decodeCtrl_eq_instr
  | sla => exact decodeSla_eq_instr

/-! ### TWCR rows (30_encoding.md R89, R91) -/

@[simp] theorem twcrWrite_lineInstr (line : TwcrLine) (v : Byte) : (lineInstr line v).twcrWrite = some (line, v) := by
  cases line <;> rfl

@[simp] theorem formatOf_lineInstr (line : TwcrLine) (v : Byte) : formatOf (lineInstr line v) = .access := by
  cases line <;> rfl

@[simp] theorem wf_lineInstr (l : TwcrLayout) (line : TwcrLine) (v : Byte) :
    (lineInstr line v).wf l = lineBits l line v := by
  cases line <;> rfl

@[simp] theorem encode_lineInstr (r : RegAddr) (line : TwcrLine) (v : Byte) :
    encode r (lineInstr line v) = accessBytes true r.twcr v := by
  cases line <;> rfl

/-- A TWCR row is the instruction of its line. -/
theorem eq_lineInstr_of_twcrWrite {i : Instr} {line : TwcrLine} {v : Byte} (h : i.twcrWrite = some (line, v)) :
    i = lineInstr line v := by
  cases i <;> cases h <;> rfl

/-- The line of a byte written to TWCR. -/
def DecodeCtx.line (ctx : DecodeCtx) (v : Byte) : TwcrLine := twcrLine ctx.cfg.layout ctx.busy ctx.mode v

/-- The engine state that decodes a TWCR row is on the row's line. -/
def DecodeCtx.OnLine (ctx : DecodeCtx) (i : Instr) : Prop :=
  ∀ line v, i.twcrWrite = some (line, v) → ctx.line v = line

theorem DecodeCtx.onLine_lineInstr (ctx : DecodeCtx) (v : Byte) : ctx.OnLine (lineInstr (ctx.line v) v) := by
  intro line v' h
  simp only [twcrWrite_lineInstr, Option.some.injEq, Prod.mk.injEq] at h
  obtain ⟨rfl, rfl⟩ := h
  rfl

/-- Only an ACCESS word is a TWCR write. -/
theorem DecodeCtx.onLine_of_not_access (ctx : DecodeCtx) {i : Instr} (hi : formatOf i ≠ .access) : ctx.OnLine i := by
  intro line v h
  rw [eq_lineInstr_of_twcrWrite h] at hi
  exact absurd (formatOf_lineInstr line v) hi

/-! ### Format ACCESS (30_encoding.md R87) -/

/-- What the register window makes of an access is written as that access, a read with the data it ignores put to 0. -/
theorem accessInstr_eq_some {ctx : DecodeCtx} {w : Bool} {addr data : Byte} {i : Instr}
    (h : accessInstr ctx w addr data = some i) :
    formatOf i = .access ∧ i.wf ctx.cfg.layout = true ∧ ctx.OnLine i ∧
      encode ctx.cfg.regAddr i = accessBytes w addr (if w then data else 0#8) := by
  revert h
  fun_cases accessInstr ctx w addr data <;> intro h <;> cases h
  case case4 haddr =>
    subst haddr
    cases w
    · exact ⟨rfl, rfl, nofun, rfl⟩
    · have hbits := twcrLine_bits (line := ctx.line data) rfl
      exact ⟨formatOf_lineInstr _ data, (wf_lineInstr ..).trans hbits, ctx.onLine_lineInstr data, encode_lineInstr ..⟩
  all_goals
    subst addr
    cases w <;> exact ⟨rfl, rfl, nofun, rfl⟩

/-- Four different addresses: each register is found at its own. -/
theorem accessInstr_register {ctx : DecodeCtx} (hd : Config.RegAddr.distinct ctx.cfg.regAddr = true) :
    (∀ w data, accessInstr ctx w ctx.cfg.regAddr.twbr data = some (if w then .wrTwbr data else .rdTwbr)) ∧
    (∀ w data, accessInstr ctx w ctx.cfg.regAddr.twsr data = some (if w then .wrTwsr data else .rdTwsr)) ∧
    (∀ w data, accessInstr ctx w ctx.cfg.regAddr.twdr data = some (if w then .wrTwdr data else .rdTwdr)) ∧
    (∀ w data, accessInstr ctx w ctx.cfg.regAddr.twcr data =
      some (if w then lineInstr (ctx.line data) data else .rdTwcr)) := by
  simp only [Config.RegAddr.distinct, Bool.and_eq_true, bne_iff_ne, ne_eq] at hd
  obtain ⟨⟨⟨⟨⟨h1, h2⟩, h3⟩, h4⟩, h5⟩, h6⟩ := hd
  simp [accessInstr, DecodeCtx.line, Ne.symm h1, Ne.symm h2, Ne.symm h3, Ne.symm h4, Ne.symm h5, Ne.symm h6]

/-- An ACCESS instruction is written as an access that the register window reads as that instruction. -/
theorem exists_accessInstr {ctx : DecodeCtx} {i : Instr} (hd : Config.RegAddr.distinct ctx.cfg.regAddr = true)
    (hi : formatOf i = .access) (hline : ctx.OnLine i) :
    ∃ w addr data, encode ctx.cfg.regAddr i = accessBytes w addr data ∧ accessInstr ctx w addr data = some i := by
  obtain ⟨hbr, hsr, hdr, hcr⟩ := accessInstr_register hd
  cases ht : i.twcrWrite with
  | some row =>
    obtain ⟨line, v⟩ := row
    obtain rfl := eq_lineInstr_of_twcrWrite ht
    obtain rfl := hline line v ht
    exact ⟨true, _, v, encode_lineInstr .., hcr true v⟩
  | none =>
    cases i <;> simp only [formatOf, reduceCtorEq] at hi <;> simp only [Instr.twcrWrite, reduceCtorEq] at ht
    case rdTwbr => exact ⟨false, _, 0#8, rfl, hbr false 0#8⟩
    case wrTwbr v => exact ⟨true, _, v, rfl, hbr true v⟩
    case rdTwsr => exact ⟨false, _, 0#8, rfl, hsr false 0#8⟩
    case wrTwsr v => exact ⟨true, _, v, rfl, hsr true v⟩
    case rdTwdr => exact ⟨false, _, 0#8, rfl, hdr false 0#8⟩
    case wrTwdr v => exact ⟨true, _, v, rfl, hdr true v⟩
    case rdTwcr => exact ⟨false, _, 0#8, rfl, hcr false 0#8⟩

/-- The decoder reads an access off its three bytes (log 9). -/
theorem decodeAccess_eq_instr {ctx : DecodeCtx} {bytes rest : List Byte} {i : Instr} :
    decode .access ctx bytes = .instr i rest ↔
      ∃ w addr data, bytes = accessBytes w addr data ++ rest ∧ accessInstr ctx w addr data = some i := by
  change decodeAccess ctx bytes = .instr i rest ↔ _
  constructor
  · fun_cases decodeAccess ctx bytes <;> intro h
    case case1 data addr top _ htop _ hi =>
      cases h
      refine ⟨_, addr, data, ?_, hi⟩
      obtain rfl | rfl := htop <;> rfl
    all_goals cases h
  · rintro ⟨w, addr, data, rfl, hi⟩
    cases w <;> simp [decodeAccess, accessBytes, hi]

/-- What every format decodes is on the engine state's line (30_encoding.md R89). -/
theorem decode_onLine {f : Format} {ctx : DecodeCtx} {bytes rest : List Byte} {i : Instr}
    (h : decode f ctx bytes = .instr i rest) : ctx.OnLine i := by
  by_cases hf : f = .access
  · subst hf
    obtain ⟨w, addr, data, -, hi⟩ := decodeAccess_eq_instr.1 h
    obtain ⟨-, -, hline, -⟩ := accessInstr_eq_some hi
    exact hline
  · obtain ⟨rfl, -, -⟩ := (decode_eq_instr hf).1 h
    exact ctx.onLine_of_not_access hf

/-- A write of TWCR decodes to the row of the byte's line (30_encoding.md R89). -/
theorem decode_twcrWrite {ctx : DecodeCtx} (hd : Config.RegAddr.distinct ctx.cfg.regAddr = true) (v : Byte)
    (rest : List Byte) :
    decode .access ctx (v :: ctx.cfg.regAddr.twcr :: 1#8 :: rest) = .instr (lineInstr (ctx.line v) v) rest := by
  obtain ⟨-, -, -, hcr⟩ := accessInstr_register hd
  exact decodeAccess_eq_instr.2 ⟨true, _, v, rfl, hcr true v⟩

theorem encode_length_pos (r : RegAddr) (i : Instr) : 0 < (encode r i).length := by
  cases i <;> exact Nat.succ_pos _

/-- The operation bytes that R103 reserves are no request's. -/
theorem decodeSeq_reserved {op : Byte} (args : List Byte)
    (h : op = 0x00#8 ∨ (0x07#8 ≤ op ∧ op ≤ 0x0F#8) ∨ (0x15#8 ≤ op ∧ op ≤ 0x1F#8) ∨ 0x22#8 ≤ op) :
    decodeSeq (op :: args) = .reject .reservedOp := by
  generalize hb : op :: args = bytes
  fun_cases decodeSeq bytes <;> cases hb
  case case15.refl => rfl
  all_goals exact absurd h (by decide)

end Sys2Proof

namespace Sys2Proof.Machine

/-! ### What a step refuses (60_exceptions.md R258) -/

theorem andThen_map_eq_refused {o : Out} {f : State → State} {r : Refusal} :
    andThen o (fun u => .next (f u)) = .refused r ↔ o = .refused r := by
  cases o <;> simp [andThen]

theorem hostAccess_refused {s : State} {o : Out} {r : Refusal} (h : hostAccess s o = .refused r) :
    r = .hostExclusive ∨ o = .refused r := by
  unfold hostAccess at h
  split at h
  · cases h
    exact .inl rfl
  · exact .inr h

/-- A TWCR row is refused offLine only on another line (log 13). -/
theorem hostTwcr_refused {s : State} {line : TwcrLine} {v : Byte} {r : Refusal} (h : hostTwcr line v s = .refused r) :
    r = .hostExclusive ∨ r = .twcrUnmodelled ∨ (r = .offLine ∧ s.line v ≠ line) := by
  obtain rfl | h := hostAccess_refused h
  · exact .inl rfl
  · split at h
    · exact .inr (.inl (State.writeTwcr_refused h))
    · rename_i hline
      cases h
      exact .inr (.inr ⟨rfl, fun hl => hline (.inl hl)⟩)

theorem request_refused {i : Instr} {s : State} {run : State → State} {r : Refusal}
    (h : request i s run = .refused r) : r = .seqBusy := by
  unfold request at h
  split at h <;> cases h
  rfl

theorem pairedRequest_refused {i : Instr} {ok : Bool} {s : State} {run : State → State} {r : Refusal}
    (h : pairedRequest i ok s run = .refused r) : r = .seqBusy ∨ r = .hostPairing := by
  unfold pairedRequest at h
  split at h
  · cases h
    exact .inl rfl
  · split at h <;> cases h
    exact .inr rfl

/-- The reasons of an ACCESS instruction on its own line. -/
theorem exec_access_refused {i : Instr} {s : State} {r : Refusal} (hi : formatOf i = .access)
    (hline : s.decodeCtx.OnLine i) (h : exec i s = .refused r) : r = .hostExclusive ∨ r = .twcrUnmodelled := by
  have row {line : TwcrLine} {v : Byte} (ht : i.twcrWrite = some (line, v)) (h : hostTwcr line v s = .refused r) :
      r = .hostExclusive ∨ r = .twcrUnmodelled := by
    obtain hr | hr | ⟨-, hne⟩ := hostTwcr_refused h
    · exact .inl hr
    · exact .inr hr
    · exact absurd (hline line v ht) hne
  cases i <;> simp only [formatOf, reduceCtorEq] at hi <;> simp only [exec] at h
  case wrTwcrDisable | wrTwcrHold | twiStart | twiStop | twiSla | twiTx | twiRxAck | twiRxNack => exact row rfl h
  all_goals
    obtain hr | h := hostAccess_refused h
    · exact .inl hr
    · cases h <;> exact .inr rfl

/-- The reasons of a request. -/
theorem exec_request_refused {i : Instr} {s : State} {r : Refusal} (hi : formatOf i ≠ .access)
    (h : exec i s = .refused r) : r = .seqBusy ∨ r = .hostPairing ∨ r = .illFormed := by
  cases i <;> simp only [formatOf, ne_eq, not_true_eq_false] at hi <;> simp only [exec] at h
  case busStop | fbPixel | fbLine => exact .inl (request_refused h)
  case dispSetPage p =>
    unfold execDispSetPage at h
    split at h
    · cases h
      exact .inr (.inr rfl)
    · exact (pairedRequest_refused h).imp_right .inl
  all_goals exact (pairedRequest_refused h).imp_right .inl

/-- A micro-step is refused only where its TWCR write is (30_encoding.md R89). -/
theorem seqStep_refused {s : State} {r : Refusal} (h : seqStep s = .refused r) : r = .twcrUnmodelled := by
  unfold seqStep at h
  split at h
  case h_2 p ph _ =>
    cases ph <;> simp only [primStep] at h
    case write =>
      cases p <;> simp only [primWrite] at h
      case send => cases h
      all_goals exact State.writeTwcr_refused (andThen_map_eq_refused.1 h)
    case launch | recover => exact State.writeTwcr_refused (andThen_map_eq_refused.1 h)
    all_goals cases h
  case h_3 =>
    unfold gatherStep at h
    split at h
    · cases h
    · dsimp only at h
      split at h <;> cases h
  all_goals cases h

theorem fetch_refused {s : State} {r : Refusal} (h : fetch s = .refused r) : ∃ why, r = rejectRefusal why := by
  unfold fetch at h
  split at h
  · cases h
  · split at h <;> cases h
    exact ⟨_, rfl⟩

/-- The host's step is refused by the fetch, or by its instruction, which is on the line of the state it runs in. -/
theorem hostStep_refused {s : State} {r : Refusal} (h : hostStep s = .refused r) :
    (∃ why, r = rejectRefusal why) ∨ ∃ i t, t.decodeCtx.OnLine i ∧ exec i t = .refused r := by
  unfold hostStep at h
  split at h
  case h_2 i t hf =>
    obtain ⟨b, rest, left, -, hd, rfl⟩ := fetch_instr hf
    exact .inr ⟨i, s.withStream (streamAfter b left rest), decode_onLine hd, h⟩
  case h_4 hf =>
    cases h
    exact .inl (fetch_refused hf)
  all_goals cases h

/-- The refusals of a step: all but those of an arm without a meaning and of a row on another line (log 13). -/
def Refusal.ofStep : Refusal → Bool
  | .notModelled _ => false
  | .offLine => false
  | _ => true

theorem step_refused {s : State} {r : Refusal} (h : step s = .refused r) : r.ofStep = true := by
  unfold step at h
  split at h
  · cases h
  · rw [seqStep_refused h]
    rfl
  · obtain ⟨why, rfl⟩ | ⟨i, t, hline, he⟩ := hostStep_refused h
    · cases why <;> rfl
    · by_cases hi : formatOf i = .access
      · obtain rfl | rfl := exec_access_refused hi hline he <;> rfl
      · obtain rfl | rfl | rfl := exec_request_refused hi he <;> rfl

end Sys2Proof.Machine

open Sys2Proof Sys2Proof.Machine

/-- Settles O5: an ACCESS word is found at its register's address, and every other format decodes what it encodes. -/
theorem decodeOfEncodeIsTheInstruction : Obligations.DecodeOfEncodeIsTheInstruction := by
  intro ctx i rest hd hwf hline
  by_cases hi : formatOf i = .access
  · obtain ⟨w, addr, data, henc, hacc⟩ := exists_accessInstr hd hi hline
    rw [hi, henc]
    exact decodeAccess_eq_instr.2 ⟨w, addr, data, rfl, hacc⟩
  · exact (decode_eq_instr hi).2 ⟨rfl, hwf, rfl⟩

/-- Settles O6: an access is the three bytes it was read off, but for the data of a read. -/
theorem encodeOfDecodedIsTheBytes : Obligations.EncodeOfDecodedIsTheBytes := by
  refine ⟨fun f ctx bytes rest i hf h => ?_, fun ctx data addr rest left i => ⟨fun h => ?_, fun h => ?_⟩⟩
  · obtain ⟨-, -, rfl⟩ := (decode_eq_instr hf).1 h
    rfl
  all_goals
    obtain ⟨w, addr', data', hbytes, hi⟩ := decodeAccess_eq_instr.1 h
    obtain ⟨-, -, -, henc⟩ := accessInstr_eq_some hi
    -- The third byte is W: it agrees with one of the two.
    cases w <;> simp_all [accessBytes]

/-- Settles O7: each format by what its decoder reads. -/
theorem decodedInstructionIsWellFormed : Obligations.DecodedInstructionIsWellFormed := by
  intro f ctx bytes rest i h
  by_cases hf : f = .access
  · subst hf
    obtain ⟨w, addr, data, rfl, hi⟩ := decodeAccess_eq_instr.1 h
    obtain ⟨hfmt, hwf, -, -⟩ := accessInstr_eq_some hi
    exact ⟨hwf, hfmt, by simp [accessBytes]; omega⟩
  · obtain ⟨hfmt, hwf, rfl⟩ := (decode_eq_instr hf).1 h
    have hpos := encode_length_pos ctx.cfg.regAddr i
    exact ⟨hwf, hfmt, by rw [List.length_append]; omega⟩

/-- Settles O8: a TWCR write decodes to the row of its line, and each line's bits and mode are those of the table. -/
theorem twcrWriteDecodesByTheTable : Obligations.TwcrWriteDecodesByTheTable := by
  intro ctx v rest hd en d
  have row (line : TwcrLine) (h : ctx.line v = line) : d = .instr (lineInstr line v) rest :=
    h ▸ decode_twcrWrite hd v rest
  refine ⟨fun hb (hen : fieldEn ctx.cfg.layout v = true) => row .whileBusy ?_,
    fun (hen : fieldEn ctx.cfg.layout v = false) => row .disable ?_,
    fun hb (hen : fieldEn ctx.cfg.layout v = true) =>
      ⟨fun (hint : fieldInt v = false) (hsta : fieldSta v = false) (hsto : fieldSto v = false) => row .hold ?_,
        fun (hint : fieldInt v = false) (hsta : fieldSta v = true) => row .noIntSta ?_,
        fun (hint : fieldInt v = false) (hsta : fieldSta v = false) (hsto : fieldSto v = true) => row .noIntSto ?_,
        fun (hint : fieldInt v = true) (hsta : fieldSta v = true) (hsto : fieldSto v = true) => row .staSto ?_,
        fun (hint : fieldInt v = true) (hsta : fieldSta v = true) (hsto : fieldSto v = false) => row .start ?_,
        fun (hint : fieldInt v = true) (hsta : fieldSta v = false) (hsto : fieldSto v = true) => row .stop ?_,
        fun (hint : fieldInt v = true) (hsta : fieldSta v = false) (hsto : fieldSto v = false) =>
          ⟨fun hm => row .sla ?_, fun hm => row .tx ?_, fun hm (hea : fieldEa v = true) => row .rxAck ?_,
            fun hm (hea : fieldEa v = false) => row .rxNack ?_,
            Or.rec (fun hm => row .byteRefused ?_) (fun hm => row .byteRefused ?_)⟩⟩,
    _, row _ rfl⟩
  all_goals simp [DecodeCtx.line, twcrLine, *]

/-- Settles O14: the decoder answers with the row of the line in the state that the row then runs in. -/
theorem stepNeverRefusesOffLine : Obligations.StepNeverRefusesOffLine := by
  intro s m
  constructor <;> intro h <;> exact absurd (step_refused h) nofun

/-- Settles O9: the decoder knows no reserved byte, and the host's step gives its reason. -/
theorem reservedOperationByteIsRefused : Obligations.ReservedOperationByteIsRefused := by
  intro s op args e rest hop ha hs
  have hf : fetch s.tick = .refused .reservedOp := by
    simp only [fetch, State.tick_host, hs, decode, decodeSeq_reserved args hop, rejectRefusal]
  simp only [step, ha, hostStep, hf]
end

section
/-! SUPPORT. The host's accesses to the four registers (40_twi_unit.md R121-R130, R133, R138, R139): what a read gives, and which
line of the TWCR table a write is on, with its effect. -/

namespace Sys2Proof.Machine

/-! ### Register reads -/

/-- A read of the host that owns the registers gives the value (20_memory.md R72). -/
theorem hostRead_free {s : State} (hf : s.locked = false) (r : Byte × State) :
    hostRead s r = .next (r.2.give (.value r.1)) :=
  hostAccess_free hf

/-- The fields of TWSR as read (40_twi_unit.md R122). -/
theorem twsr_bits (t : Twi) :
    t.twsr.extractLsb' 3 5 = t.tws ∧ t.twsr.getLsbD 2 = false ∧ t.twsr.extractLsb' 0 2 = t.twps := by
  have h : ∀ (a : BitVec 5) (b : BitVec 2), (a ++ 0#1 ++ b : BitVec 8).extractLsb' 3 5 = a ∧
      (a ++ 0#1 ++ b : BitVec 8).getLsbD 2 = false ∧ (a ++ 0#1 ++ b : BitVec 8).extractLsb' 0 2 = b := by decide
  exact h t.tws t.twps

/-- The low bits of TWCR as read, which the layouts place differently (40_twi_unit.md R125). -/
theorem twcr_low_bits (l : TwcrLayout) (t : Twi) :
    (t.twcr l).getLsbD 1 = false ∧
    (l = .source → (t.twcr l).getLsbD 2 = false ∧ (t.twcr l).getLsbD 0 = t.twen) ∧
    (l = .avrSilicon → (t.twcr l).getLsbD 2 = t.twen ∧ (t.twcr l).getLsbD 0 = t.twie) := by
  obtain ⟨-, -, -, -, i, e, a, o, w, n, j, -, -, -, -⟩ := t
  cases l <;> simp only [Twi.twcr, bit] <;> revert i e a o w n j <;> decide

/-- While busy a TWDR read is a draw, else the register (40_twi_unit.md R123). -/
theorem State.readTwdr_of_busy {s : State} (hb : s.twi.op.isSome = true) :
    s.readTwdr = (s.oracle.twdr.1, { s with oracle := s.oracle.twdr.2 }) := if_pos hb

theorem State.readTwdr_of_idle {s : State} (ho : s.twi.op = none) : s.readTwdr = (s.twi.twdr, s) :=
  if_neg (by simp [Twi.busy, ho])

/-! ### Register writes -/

theorem Twi.writeTwsr_eq (v : Byte) (t : Twi) : t.writeTwsr v = { t with twps := v.extractLsb' 0 2 } := by
  rw [Twi.writeTwsr, BitVec.truncate_eq_setWidth, BitVec.setWidth_eq_extractLsb' (by decide)]

theorem State.writeTwdr_of_twint {s : State} (hi : s.twi.twint = true) (v : Byte) :
    s.writeTwdr v = { s with twi := { s.twi with twdr := v, twwc := false } } := by
  rw [State.writeTwdr, Twi.writeTwdr, if_pos hi]

theorem State.writeTwdr_of_not_twint {s : State} (hi : s.twi.twint = false) (v : Byte) :
    s.writeTwdr v = { s with twi := { s.twi with twwc := true } } := by
  rw [State.writeTwdr, Twi.writeTwdr, if_neg (by simp [hi])]

/-! ### TWCR writes -/

/-- A TWCR row on its own line has the line's effect (40_twi_unit.md R127). -/
theorem hostTwcr_of_effect {s t : State} {line : TwcrLine} {v : Byte} (hf : s.locked = false) (hl : s.line v = line)
    (he : s.lineEffect line v = some t) : hostTwcr line v s = .next t := by
  rw [hostTwcr_on_line hf hl, State.writeTwcr, hl, he]

/-- A byte with EN = 0 is on the line of a disable, in any engine state (30_encoding.md R89). -/
theorem State.line_of_disable {s : State} {v : Byte} (hen : fieldEn s.cfg.layout v = false) : s.line v = .disable := by
  simp [State.line, twcrLine, hen]

/-- Where SLAVE_MAY_STALL is false nothing stalls, else the oracle says (40_twi_unit.md R130). -/
theorem State.drawStall_fst (s : State) : s.drawStall.1 = (s.cfg.slaveMayStall && s.oracle.stall.1) := by
  unfold State.drawStall
  cases s.cfg.slaveMayStall <;> rfl

/-- TWIE under the field update: it is stored only where the layout has it (40_twi_unit.md R126). -/
theorem Twi.fieldUpdate_twie (l : TwcrLayout) (v : Byte) (t : Twi) :
    (l = .source → (t.fieldUpdate l v).twie = t.twie) ∧ (l = .avrSilicon → (t.fieldUpdate l v).twie = v.getLsbD 0) :=
  ⟨by rintro rfl; rfl, by rintro rfl; rfl⟩

/-- TWINT is cleared by writing it one (40_twi_unit.md R126). -/
theorem Twi.fieldUpdate_twint (l : TwcrLayout) (v : Byte) (t : Twi) :
    (t.fieldUpdate l v).twint = (t.twint && !v.getLsbD 7) := by
  unfold Twi.fieldUpdate fieldInt
  cases v.getLsbD 7 <;> simp

/-- A TWCR row on its own line whose effect is the launch of an operation (40_twi_unit.md R130). -/
theorem launched_of_line {s : State} {line : TwcrLine} {k : Op} {v : Byte} (hf : s.locked = false)
    (hen : fieldEn s.cfg.layout v = true) (hint : fieldInt v = true)
    (he : s.lineEffect line v = some (s.launch k v)) (hl : s.line v = line) : Launched k v s (hostTwcr line v s) := by
  obtain ⟨hsource, havr⟩ := s.twi.fieldUpdate_twie s.cfg.layout v
  exact ⟨s.launch k v, hostTwcr_of_effect hf hl he, rfl, rfl, if_pos hint, rfl, rfl, rfl, hen, hsource, havr,
    s.drawStall_fst, rfl, rfl, rfl, rfl, rfl, rfl, rfl, fun _ => rfl, rfl, rfl⟩

/-! ### Accesses to other addresses (40_twi_unit.md R139) -/

/-- An address that is no register's is no access to this block. -/
theorem accessInstr_foreign {ctx : DecodeCtx} {addr : Byte} (hbr : addr ≠ ctx.cfg.regAddr.twbr)
    (hsr : addr ≠ ctx.cfg.regAddr.twsr) (hdr : addr ≠ ctx.cfg.regAddr.twdr) (hcr : addr ≠ ctx.cfg.regAddr.twcr)
    (w : Bool) (data : Byte) : accessInstr ctx w addr data = none := by
  simp [accessInstr, hbr, hsr, hdr, hcr]

/-- The state with an access to another block's address taken off the head of the stream. -/
theorem fetch_of_decode_elsewhere {s : State} {b : Burst} {rest : List Burst} {left : List Byte}
    (hs : s.host.stream = b :: rest) (hd : decode b.fmt s.decodeCtx b.bytes = .elsewhere left) :
    fetch s = .elsewhere (s.withStream (streamAfter b left rest)) := by
  simp [fetch, hs, hd]

end Sys2Proof.Machine

open Sys2Proof Sys2Proof.Machine

/-- Settles O20: a byte with EN = 0 is on the disable line in every state, and the disable is the field update and the rest. -/
theorem twcrDisable : Obligations.TwcrDisable := by
  intro s v hf hen
  obtain ⟨hsource, havr⟩ := s.twi.fieldUpdate_twie s.cfg.layout v
  exact ⟨s.disable v, hostTwcr_of_effect hf (State.line_of_disable hen) rfl, rfl, rfl, rfl, rfl, hen, rfl, rfl, rfl,
    hsource, havr, s.twi.fieldUpdate_twint s.cfg.layout v, rfl, rfl, rfl, rfl, fun hm => if_neg hm, fun hm => if_pos hm,
    rfl, rfl, fun _ => rfl, rfl, rfl⟩

/-- Settles O22: the bits and the mode put the byte on its line, and each of the six lines launches its operation. -/
theorem twcrLaunch : Obligations.TwcrLaunch := by
  intro s v hf ho hen (hint : fieldInt v = true)
  have row {line : TwcrLine} {k : Op} (he : s.lineEffect line v = some (s.launch k v)) (hl : s.line v = line) :=
    launched_of_line hf hen hint he hl
  refine ⟨fun (hsta : fieldSta v = true) (hsto : fieldSto v = false) => row (line := .start) rfl ?_,
    fun (hsta : fieldSta v = false) (hsto : fieldSto v = true) => row (line := .stop) rfl ?_,
    fun (hsta : fieldSta v = false) (hsto : fieldSto v = false) =>
      ⟨fun hm => row (line := .sla) rfl ?_, fun hm => row (line := .tx) rfl ?_,
        fun hm (hea : fieldEa v = true) => row (line := .rxAck) rfl ?_,
        fun hm (hea : fieldEa v = false) => row (line := .rxNack) rfl ?_⟩⟩
  all_goals simp [State.line, twcrLine, Twi.busy, *]

/-- Settles O13: the decoder finds no register at the address, and the host's step only takes the bytes off the stream. -/
theorem foreignAddressIsNoAccess : Obligations.ForeignAddressIsNoAccess := by
  intro s data addr top left e rest ha hs htop hbr hsr hdr hcr
  have hd : decode .access s.tick.decodeCtx (data :: addr :: top :: left) = .elsewhere left := by
    rw [State.tick_decodeCtx]
    simp only [decode, decodeAccess, if_pos htop, accessInstr_foreign (ctx := s.decodeCtx) hbr hsr hdr hcr]
  have hf := fetch_of_decode_elsewhere (s := s.tick) (by simpa using hs) hd
  have hstep : step s = hostStep s.tick := by simp only [step, ha]
  rw [hstep, hostStep, hf]
  exact ⟨_, rfl, by simp⟩

/-- Settles O15: past the host's guard each access is its meaning. -/
theorem twbrReadAndWrite : Obligations.TwbrReadAndWrite :=
  fun _ _ hf => ⟨hostRead_free hf _, hostAccess_free hf⟩

/-- Settles O16: the read is TWSR with its fields in place, and the write is of TWPS alone. -/
theorem twsrReadAndWrite : Obligations.TwsrReadAndWrite := by
  intro s v hf
  refine ⟨⟨s.twi.twsr, hostRead_free hf _, twsr_bits s.twi⟩, ?_⟩
  rw [← Twi.writeTwsr_eq]
  exact hostAccess_free hf

/-- Settles O17: the read is `State.readTwdr`, idle or busy. -/
theorem twdrRead : Obligations.TwdrRead := by
  intro s hf
  have h : exec .rdTwdr s = .next (s.readTwdr.2.give (.value s.readTwdr.1)) := hostRead_free hf _
  exact ⟨fun ho => by rw [h, State.readTwdr_of_idle ho], fun hb => by rw [h, State.readTwdr_of_busy hb]⟩

/-- Settles O18: the write is `State.writeTwdr`, by TWINT. -/
theorem twdrWrite : Obligations.TwdrWrite := by
  intro s v hf
  have h : exec (.wrTwdr v) s = .next (s.writeTwdr v) := hostAccess_free hf
  exact ⟨fun hi => by rw [h, State.writeTwdr_of_twint hi], fun hi => by rw [h, State.writeTwdr_of_not_twint hi]⟩

/-- Settles O19: five bits stand at the same place in both layouts, and the low three by the layout. -/
theorem twcrRead : Obligations.TwcrRead := by
  intro s hf
  obtain ⟨h7, h6, h5, h4, h3⟩ := twcr_bits s.cfg.layout s.twi
  exact ⟨s.twcr, hostRead_free hf _, h7, h6, h5, h4, h3, twcr_low_bits s.cfg.layout s.twi⟩

/-- Settles O21: the byte is on the hold line, and the bits it fixes make the field update the one stated. -/
theorem twcrHold : Obligations.TwcrHold := by
  intro s v hf ho hen (hint : fieldInt v = false) (hsta : fieldSta v = false) (hsto : fieldSto v = false)
  have hl : s.line v = .hold := by simp [State.line, twcrLine, Twi.busy, *]
  have h : exec (.wrTwcrHold v) s = .next (s.hold v) := hostTwcr_of_effect hf hl rfl
  rw [h]
  simp only [State.hold, Twi.fieldUpdate, hen, hint, hsta, hsto]
  rfl

/-- Settles O23: past the host's guard the five rows are the refusal. -/
theorem refusedTwcrWrites : Obligations.RefusedTwcrWrites :=
  fun _ _ hf => ⟨hostAccess_free hf, hostAccess_free hf, hostAccess_free hf, hostAccess_free hf, hostAccess_free hf⟩

end

section
/-! SUPPORT. The operation in flight (40_twi_unit.md R140-R147): its completion, with a bus error or without, and what happens
to it before. -/

namespace Sys2Proof.Machine

/-! ### The engine's step -/

/-- The completion of an operation where no bus error is drawn (40_twi_unit.md R141-R147). -/
def Op.completion : Op → State → State
  | .start => completeStart
  | .stop => completeStop
  | .sla => completeSla
  | .tx => completeTx
  | .rx => completeRx

theorem step_engine {s : State} (ha : nextAgent s = .engine) : step s = .next (complete s) := by
  simp only [step, ha]

/-- The engine's turn comes only with an operation in flight. -/
theorem exists_op_of_engine {s : State} (ha : nextAgent s = .engine) : ∃ k, s.twi.op = some k := by
  obtain ⟨hr, -⟩ := nextAgent_engine ha
  obtain ⟨hb, -⟩ := Bool.and_eq_true_iff.1 hr
  exact Option.isSome_iff_exists.1 hb

/-- Every operation but STOP can end in a bus error (40_twi_unit.md R146). -/
theorem complete_eq_orBusErr {s : State} {k : Op} (hop : s.twi.op = some k) (hk : k ≠ .stop) :
    complete s = orBusErr s k.completion := by
  unfold complete
  rw [hop]
  cases k
  case stop => exact absurd rfl hk
  all_goals rfl

/-- The engine's step where the draw is a bus error (40_twi_unit.md R146). -/
theorem step_busErr {s : State} {k : Op} (ha : nextAgent s = .engine) (hop : s.twi.op = some k) (hk : k ≠ .stop)
    (he : s.drawBusErr.1 = true) : step s = .next (completeBusErr { s with oracle := s.drawBusErr.2 }) := by
  rw [step_engine ha, complete_eq_orBusErr hop hk, orBusErr, if_pos he]

/-- The engine's step where it is not: the operation's own completion, with the draw taken. -/
theorem step_completion {s : State} {k : Op} (ha : nextAgent s = .engine) (hop : s.twi.op = some k) (hk : k ≠ .stop)
    (he : s.drawBusErr.1 = false) : step s = .next (k.completion { s with oracle := s.drawBusErr.2 }) := by
  rw [step_engine ha, complete_eq_orBusErr hop hk, orBusErr, if_neg (by simp [he])]

/-- A bus error drawn is in the trace. -/
theorem step_busErr_trace {s : State} {k : Op} (ha : nextAgent s = .engine) (hop : s.twi.op = some k) (hk : k ≠ .stop)
    (he : s.drawBusErr.1 = true) : ∃ t, step s = .next t ∧ t.trace = s.trace ++ [.busErr] :=
  ⟨_, step_busErr ha hop hk he, rfl⟩

/-- No bus error without the parameter and the oracle's choice (40_twi_unit.md R146; log 22). -/
theorem State.drawBusErr_fst (s : State) : s.drawBusErr.1 = (s.cfg.busErrorPossible && s.oracle.busErr.1) := by
  unfold State.drawBusErr
  cases s.cfg.busErrorPossible <;> rfl

theorem State.drawBusErr_of_possible {s : State} (h : s.cfg.busErrorPossible = true) : s.drawBusErr = s.oracle.busErr :=
  if_pos h

/-! ### Each operation's own completion -/

theorem completeSla_write {s : State} {a : Ack} {q o : Oracle} (hack : q.ack = (a, o))
    (hd : s.twi.twdr.getLsbD 0 = false) :
    completeSla { s with oracle := q } = s.completed o (codeSlaW a) .mt (.tx s.twi.twdr a) := by
  simp only [completeSla, hack, hd, Bool.false_eq_true, if_false, State.completed]

theorem completeSla_read {s : State} {a : Ack} {q o : Oracle} (hack : q.ack = (a, o))
    (hd : s.twi.twdr.getLsbD 0 = true) :
    completeSla { s with oracle := q } = s.completed o (codeSlaR a) (if a = .ack then .mr else .mrEnd) (.tx s.twi.twdr a) := by
  simp only [completeSla, hack, hd, if_true, State.completed]

theorem completeTx_answered {s : State} {a : Ack} {q o : Oracle} (hack : q.ack = (a, o)) :
    completeTx { s with oracle := q } = s.completed o (codeTx a) .mt (.tx s.twi.twdr a) := by
  simp only [completeTx, hack, State.completed]

theorem completeRx_received {s : State} {r : Byte} {q o : Oracle} (hrx : q.rx = (r, o)) :
    completeRx { s with oracle := q } = State.completed o (codeRx s.twi.answer) (if s.twi.answer = .ack then .mr else .mrEnd)
      (.rx r s.twi.answer) { s with twi := { s.twi with twdr := r } } := by
  simp only [completeRx, hrx, State.completed]

/-- The status codes of an answered byte, by the answer (30_encoding.md R98). -/
theorem codeSlaW_eq (a : Ack) : codeSlaW a = if a = .ack then 0x18#8 else 0x20#8 := by cases a <;> rfl
theorem codeSlaR_eq (a : Ack) : codeSlaR a = if a = .ack then 0x40#8 else 0x48#8 := by cases a <;> rfl
theorem codeTx_eq (a : Ack) : codeTx a = if a = .ack then 0x28#8 else 0x30#8 := by cases a <;> rfl

/-- The completion of an operation but STOP adds one event, and it is no bus error. -/
theorem Op.completion_event {k : Op} (hk : k ≠ .stop) (s : State) :
    ∃ ev, ev ≠ .busErr ∧ (k.completion s).trace = s.trace ++ [ev] := by
  cases k
  case start =>
    rw [Op.completion, completeStart]
    split
    · exact ⟨.start, nofun, rfl⟩
    · exact ⟨.repStart, nofun, rfl⟩
  case stop => exact absurd rfl hk
  case sla =>
    refine ⟨.tx s.twi.twdr s.oracle.ack.1, nofun, ?_⟩
    cases hd : s.twi.twdr.getLsbD 0
    · exact congrArg State.trace (completeSla_write rfl hd)
    · exact congrArg State.trace (completeSla_read rfl hd)
  case tx => exact ⟨.tx s.twi.twdr s.oracle.ack.1, nofun, rfl⟩
  case rx => exact ⟨.rx s.oracle.rx.1 s.twi.answer, nofun, rfl⟩

/-! ### An operation in flight, but for its completion -/

/-- From `s` to `t` the operation in flight stays as it was, or a disable ends it (40_twi_unit.md R128). -/
def StaysOrDisabled (s t : State) : Prop :=
  (t.twi.op = s.twi.op ∧ t.twi.stalled = s.twi.stalled ∧ t.twi.mode = s.twi.mode ∧ t.trace = s.trace) ∨
  (t.twi.op = none ∧ t.twi.twen = false ∧ t.twi.mode = .none)

theorem StaysOrDisabled.of_twi {s t : State} (hi : t.twi = s.twi) (ht : t.trace = s.trace) : StaysOrDisabled s t :=
  .inl ⟨by rw [hi], by rw [hi], by rw [hi], ht⟩

theorem StaysOrDisabled.of_writeTwdr {s t : State} {v : Byte} (hi : t.twi = s.twi.writeTwdr v) (ht : t.trace = s.trace) :
    StaysOrDisabled s t := by
  rw [Twi.writeTwdr_frame] at hi
  exact .inl ⟨by rw [hi], by rw [hi], by rw [hi], ht⟩

/-- While busy, every TWCR write that is not refused is a disable (30_encoding.md R89). -/
theorem StaysOrDisabled.of_writeTwcr {s t : State} {v : Byte} (hb : s.twi.op.isSome = true)
    (h : s.writeTwcr v = .next t) : StaysOrDisabled s t := by
  obtain ⟨hen, rfl⟩ | ⟨ho, -⟩ | ⟨k, ho, -⟩ := State.writeTwcr_cases h
  · exact .inr ⟨rfl, hen, rfl⟩
  all_goals
    rw [ho] at hb
    cases hb

theorem StaysOrDisabled.of_busAccess {s t : State} (hb : s.twi.op.isSome = true) (h : BusAccess s t) :
    StaysOrDisabled s t := by
  obtain ⟨hi, ht⟩ | ⟨v, hi, ht⟩ | ⟨v, u, hw, hi, ht⟩ := h
  · exact .of_twi hi ht
  · exact .of_writeTwdr hi ht
  · have hu := StaysOrDisabled.of_writeTwcr hb hw
    unfold StaysOrDisabled at hu ⊢
    rwa [hi, ht]

theorem StaysOrDisabled.of_accessEffect {s t : State} (hb : s.twi.op.isSome = true) (h : AccessEffect s t) :
    StaysOrDisabled s t := by
  obtain ⟨hi, ht⟩ | ⟨v, hi, ht⟩ | ⟨v, hi, ht⟩ | ⟨v, hi, ht⟩ | ⟨v, hw⟩ := h
  · exact .of_twi hi ht
  · exact .inl ⟨by rw [hi], by rw [hi], by rw [hi], ht⟩
  · exact .inl ⟨by rw [hi]; rfl, by rw [hi]; rfl, by rw [hi]; rfl, ht⟩
  · exact .of_writeTwdr hi ht
  · exact .of_writeTwcr hb hw

/-- An instruction of the host ends the operation in flight only by a disable. -/
theorem StaysOrDisabled.of_exec {i : Instr} {s t : State} (hb : s.twi.op.isSome = true) (h : exec i s = .next t) :
    StaysOrDisabled s t := by
  obtain hf | hf := exec_frame h
  · exact .of_accessEffect hb hf.effect
  · exact .of_twi hf.twi hf.trace

/-- The passing of a step is none of it. -/
theorem StaysOrDisabled.of_tick {s t : State} (h : StaysOrDisabled s.tick t) : StaysOrDisabled s t := by
  simpa [StaysOrDisabled] using h

/-- Outside the engine's turn, the operation in flight stays or a disable ends it. -/
theorem step_staysOrDisabled {s t : State} (hb : s.twi.op.isSome = true) (ha : nextAgent s ≠ .engine)
    (h : step s = .next t) : StaysOrDisabled s t := by
  obtain ⟨he, -⟩ | ⟨-, -, hf⟩ | ⟨-, ⟨q, rfl⟩ | ⟨i, q, -, he⟩⟩ := step_effect h
  · exact absurd he ha
  · exact .of_tick (.of_busAccess (by simpa using hb) hf.bus)
  · exact .of_tick (.of_twi rfl rfl)
  · exact .of_tick (StaysOrDisabled.of_exec (s := s.tick.withStream q) (by simpa using hb) he)

/-! ### The wait for a completion (log 5) -/

/-- A host with nothing to issue lets a step pass. -/
theorem step_idle {s : State} (ha : nextAgent s = .host) (hs : s.host.stream = []) : step s = .next s.tick := by
  simp [step, ha, hostStep, fetch, hs]

/-- Where the other agents do nothing, an operation that runs completes after its delay. -/
theorem run_to_completion {s : State} {d : Nat} (hr : s.running = true) (hq : s.seq.seqBusy = false)
    (hs : s.host.stream = []) (hd : s.twi.delay = d) :
    run (d + 1) s = .next (complete { s with twi := { s.twi with delay := 0 } }) := by
  have he : s.hostEager = false := by simp [State.hostEager, hs]
  induction d generalizing s with
  | zero =>
    have ha : nextAgent s = .engine := by simp [nextAgent, he, hr, hd]
    rw [run_succ_of_step (step_engine ha), run_zero, ← hd]
  | succ d ih =>
    have ha : nextAgent s = .host := by simp [nextAgent, he, hd, hq]
    have ht : s.tick = { s with twi := { s.twi with delay := d } } := by simp [State.tick, hr, hd]
    rw [run_succ_of_step (step_idle ha hs), ht]
    exact ih (s := { s with twi := { s.twi with delay := d } }) hr hq hs rfl he

end Sys2Proof.Machine

open Sys2Proof Sys2Proof.Machine

/-- Settles O30: a bus error is the draw's, and no operation's own completion adds the event. -/
theorem busErrorCompletion : Obligations.BusErrorCompletion := by
  intro s ha hstop
  obtain ⟨k, hop⟩ := exists_op_of_engine ha
  have hk : k ≠ .stop := by
    rintro rfl
    exact hstop hop
  refine ⟨fun hp he => ?_, fun hno t ht => ?_⟩
  · have hd := State.drawBusErr_of_possible hp
    rw [step_busErr ha hop hk (by rw [hd, he]), hd]
    rfl
  · have he : s.drawBusErr.1 = false := by rw [State.drawBusErr_fst, Bool.and_eq_false_iff]; exact hno
    cases (step_completion ha hop hk he).symm.trans ht
    exact Op.completion_event hk _

/-- Settles O32: a stalled operation is not the engine's to complete, and the other agents end one only by a disable. -/
theorem stalledOperationEndsOnlyByDisable : Obligations.StalledOperationEndsOnlyByDisable := by
  intro s t k hop hst hstep
  have ha : nextAgent s ≠ .engine := by
    intro ha
    obtain ⟨hr, -⟩ := nextAgent_engine ha
    simp [State.running, hst] at hr
  obtain ⟨ho, hs, hm, ht⟩ | hdisabled := step_staysOrDisabled (by rw [hop]; rfl) ha hstep
  · exact .inl ⟨ho.trans hop, hs.trans hst, hm, ht⟩
  · exact .inr hdisabled

/-- Settles O33, by induction on the delay. -/
theorem runningOperationCompletes : Obligations.RunningOperationCompletes := by
  intro s hr hq hs
  obtain ⟨hcfg, hseq, hfb, -⟩ := complete_frame { s with twi := { s.twi with delay := 0 } }
  exact ⟨_, run_to_completion hr hq hs rfl, complete_op _, hseq, hfb, hcfg⟩

/-- Settles O26: the mode tells a START from a repeated one. -/
theorem startCompletion : Obligations.StartCompletion := by
  intro s ha hop
  refine ⟨step_busErr_trace ha hop nofun, fun he hm => ?_, fun he hm => ?_⟩ <;>
    rw [step_completion ha hop nofun he, Op.completion, completeStart]
  · rw [if_pos hm]
    rfl
  · rw [if_neg hm]
    rfl

/-- Settles O27: the direction bit and the answer give the status and the mode. -/
theorem slaCompletion : Obligations.SlaCompletion := by
  intro s a o ha hop
  refine ⟨step_busErr_trace ha hop nofun, fun he hack => ⟨fun hd => ?_, fun hd => ?_⟩⟩ <;>
    rw [step_completion ha hop nofun he, Op.completion]
  · rw [completeSla_write hack hd, codeSlaW_eq]
    rfl
  · rw [completeSla_read hack hd, codeSlaR_eq]
    rfl

/-- Settles O28: past the draw, the answer gives the status. -/
theorem txCompletion : Obligations.TxCompletion := by
  intro s a o ha hop
  refine ⟨step_busErr_trace ha hop nofun, fun he hack => ?_⟩
  rw [step_completion ha hop nofun he, Op.completion, completeTx_answered hack, codeTx_eq]
  rfl

/-- Settles O29: TWEA is the master's answer, which gives the status and the mode. -/
theorem rxCompletion : Obligations.RxCompletion := by
  intro s r o ha hop
  refine ⟨step_busErr_trace ha hop nofun, fun he hrx => ⟨fun hea => ?_, fun hea => ?_⟩⟩ <;>
    rw [step_completion ha hop nofun he, Op.completion, completeRx_received hrx]
  · have hans : s.twi.answer = .ack := by simp [Twi.answer, hea]
    simp only [hans]
    rfl
  · have hans : s.twi.answer = .nack := by simp [Twi.answer, hea]
    simp only [hans]
    rfl

/-- Settles O31: a STOP is never a bus error. -/
theorem stopCompletion : Obligations.StopCompletion := by
  intro s ha hop
  rw [step_engine ha, complete, hop]
  rfl

end

section
/-! SUPPORT. The raw primitives as requests of their own (41_bus_primitives.md R163-R168): their refusal, their issue, and the
response of their run. -/

namespace Sys2Proof.Machine

/-! ### The refusal of a request that breaks the pairing (60_exceptions.md R258) -/

theorem pairedRequest_not_paired {i : Instr} {ok : Bool} {s : State} {run : State → State} (hb : s.seq.seqBusy = false)
    (hok : ok = false) : pairedRequest i ok s run = .refused .hostPairing := by
  simp [pairedRequest, hb, hok]

/-- What `accepted` asks of `open` is what each row asks, so where it fails, the row's refusal is HOST_PAIRING. -/
theorem exec_of_not_accepted {i : Instr} {s : State} (hb : s.seq.seqBusy = false) (hi : formatOf i ≠ .access)
    (hwf : i.wf s.cfg.layout = true) (ha : accepted i s = false) : exec i s = .refused .hostPairing := by
  have hok := (Bool.and_eq_false_iff.1 ha).resolve_left (by simp [hb])
  clear ha
  cases i <;> simp only [formatOf, ne_eq, not_true_eq_false] at hi <;> simp only [exec] <;> dsimp only at hok
  case busStop | fbPixel | fbLine => cases hok
  case dispSetPage p =>
    have hp : ¬ Config.pages ≤ p.toNat := by simpa [Instr.wf] using hwf
    rw [execDispSetPage, if_neg hp]
    exact pairedRequest_not_paired hb hok
  all_goals exact pairedRequest_not_paired hb hok

/-! ### The issue of a raw primitive (41_bus_primitives.md R167) -/

/-- The request `i` issued as the raw primitive `p`, with `open` left at `o`. -/
def State.issueRaw (i : Instr) (p : Prim) (o : Bool) (s : State) : State := ((s.issue i).setOpen o).call p

@[simp] theorem State.issueRaw_twi (i : Instr) (p : Prim) (o : Bool) (s : State) : (s.issueRaw i p o).twi = s.twi := rfl
@[simp] theorem State.issueRaw_oracle (i : Instr) (p : Prim) (o : Bool) (s : State) :
    (s.issueRaw i p o).oracle = s.oracle := rfl
@[simp] theorem State.issueRaw_seqBusy (i : Instr) (p : Prim) (o : Bool) (s : State) :
    (s.issueRaw i p o).seq.seqBusy = true := rfl

theorem exec_busStart_issues {s : State} (hb : s.seq.seqBusy = false) (ho : s.seq.isOpen = false) :
    exec .busStart s = .next (s.issueRaw .busStart .start true) := by
  rw [exec, execBusStart, pairedRequest_eq_next]
  exact ⟨hb, by simp [ho], rfl⟩

theorem exec_busStop_issues {s : State} (hb : s.seq.seqBusy = false) :
    exec .busStop s = .next (s.issueRaw .busStop .stop false) := by
  rw [exec, execBusStop, request_eq_next]
  exact ⟨hb, rfl⟩

theorem rawSend_issues {i : Instr} {b : Byte} {role : SendRole} {s : State} (hb : s.seq.seqBusy = false)
    (ho : s.seq.isOpen = true) : rawSend i b role s = .next (s.issueRaw i (.send b role) true) :=
  pairedRequest_eq_next.2 ⟨hb, ho, by rw [← ho]; rfl⟩

theorem exec_busRecv_issues {s : State} {ack : Bool} (hb : s.seq.seqBusy = false) (ho : s.seq.isOpen = true)
    (hs : s.seq.lastStatus = 0x40#8 ∨ s.seq.lastStatus = 0x50#8) :
    exec (.busRecv ack) s = .next (s.issueRaw (.busRecv ack) (.recv ack 0) true) := by
  rw [exec, execBusRecv, pairedRequest_eq_next]
  refine ⟨hb, ?_, by rw [← ho]; rfl⟩
  rw [ho, Bool.true_and, Bool.or_eq_true, decide_eq_true_eq, decide_eq_true_eq]
  exact hs

/-- Only BUS_START and BUS_STOP are issued with another `open` than they find (10_state.md R44). -/
theorem isOpen_of_issueRaw {i : Instr} {p : Prim} {o : Bool} {s : State} (hb : s.seq.seqBusy = false)
    (he : exec i s = .next (s.issueRaw i p o)) :
    o = if i = .busStart then true else if i = .busStop then false else s.seq.isOpen := by
  obtain hf | hf := exec_frame he
  · exact absurd ((congrArg Seq.seqBusy hf.seq).trans hb) (by simp)
  · exact hf.isOpen

/-- A request runs to the response that its primitive ends with (41_bus_primitives.md R167). -/
theorem RunsTo.of_raw {i : Instr} {p : Prim} {o : Bool} {r : Response} {s v : State}
    (he : exec i s = .next (s.issueRaw i p o)) (hr : Reaches (s.issueRaw i p o) (v.respond r))
    (hk : TxnKeep (s.issueRaw i p o) v) : RunsTo i r s (v.respond r) :=
  ⟨⟨_, he, rfl, rfl, hr⟩, rfl, rfl, rfl, fun a => congrArg (Memory.read · a) hk.fb, hk.cfg,
    (State.respond_stream r v).trans (congrArg HostSide.stream hk.host),
    congrArg (fun h : HostSide => h.received ++ [Received.response r]) hk.host, hk.twbr, hk.twps⟩

theorem State.LaunchEnds.issueRaw {s : State} (h : s.LaunchEnds) (i : Instr) (p : Prim) (o : Bool) :
    (s.issueRaw i p o).LaunchEnds := ⟨h.eager, h.stall, h.inTime⟩

theorem State.LaunchStalls.issueRaw {s : State} {l : Nat} (h : s.LaunchStalls l) (i : Instr) (p : Prim) (o : Bool) :
    (s.issueRaw i p o).LaunchStalls l := ⟨h.eager, h.stall, h.limit, h.pos⟩

/-! ### Answers given in advance (log 2) -/

theorem AckDrawn.eq_of_cons {a d : Ack} {q rest : List Ack} (h : AckDrawn a (d :: q) rest) : a = d := by
  obtain h | ⟨h, -⟩ := h <;> cases h
  rfl

theorem RxDrawn.eq_of_cons {r d : Byte} {q rest : List Byte} (h : RxDrawn r (d :: q) rest) : r = d := by
  obtain h | ⟨h, -⟩ := h <;> cases h
  rfl

/-! ### The status and the mode after a byte that is sent (40_twi_unit.md R142-R144) -/

theorem sentStatus_mt (b : Byte) (a : Ack) : sentStatus .mt b a = codeTx a := (codeTx_eq a).symm

theorem sentStatus_write {b : Byte} (a : Ack) (hd : b.getLsbD 0 = false) : sentStatus .afterStart b a = codeSlaW a := by
  simp only [sentStatus, hd, codeSlaW_eq, reduceCtorEq, Bool.false_eq_true, if_false]

theorem sentStatus_read {b : Byte} (a : Ack) (hd : b.getLsbD 0 = true) : sentStatus .afterStart b a = codeSlaR a := by
  simp [sentStatus, hd, codeSlaR_eq]

theorem sentMode_write {b : Byte} (a : Ack) (hd : b.getLsbD 0 = false) : sentMode .afterStart b a = .mt := by
  simp only [sentMode, hd, reduceCtorEq, Bool.false_eq_true, if_false]

theorem sentMode_read {b : Byte} (a : Ack) (hd : b.getLsbD 0 = true) :
    sentMode .afterStart b a = if a = .ack then .mr else .mrEnd := by
  simp [sentMode, hd]

/-! ### Raw sends -/

section
variable {s : State} {i : Instr} {b : Byte} {role : Role} (hb : s.seq.seqBusy = false) (ho : s.seq.isOpen = true)
  (hop : s.twi.op = none) (hi : exec i s = rawSend i b (Role.sendRole role) s)
include hb ho hop hi

/-- A byte sent on its own after a START or in transmit mode (41_bus_primitives.md R165). -/
theorem sendRuns_of_rawSend {a : Ack} {rest : List Ack} (hint : s.twi.twint = true) (hw : s.waitsEnd)
    (hbe : s.cfg.busErrorPossible = false) (hak : s.oracle.acks = a :: rest)
    (hm : s.twi.mode = .afterStart ∨ s.twi.mode = .mt) : SendRuns i b role a s := by
  have he := hi.trans (rawSend_issues hb ho)
  obtain ⟨v, e, a', hv, fr, herr, h1, h2, h3, h4, h5, h6, -, h⟩ :=
    send_runs (hw.launchEnds.issueRaw i (.send b (Role.sendRole role)) true) rfl hop hint hm rfl
  obtain ⟨rfl, -⟩ := herr.none hbe
  obtain ⟨-, had, htr, hcase⟩ | ⟨habs, -⟩ := h
  · rw [State.issueRaw_oracle, hak] at had
    obtain rfl := had.eq_of_cons
    obtain ⟨hcode, hmode⟩ :
        v.seq.lastStatus = sentStatus s.twi.mode b a' ∧ v.twi.mode = sentMode s.twi.mode b a' := by
      rw [State.issueRaw_twi] at hcase
      obtain ⟨hm, hmode, hcode⟩ | ⟨hm, hd, hmode, hcode⟩ | ⟨hm, hd, hmode, hcode⟩ := hcase <;> rw [hm, hmode, hcode]
      · exact ⟨(sentStatus_mt b a').symm, rfl⟩
      · exact ⟨(sentStatus_write a' hd).symm, (sentMode_write a' hd).symm⟩
      · exact ⟨(sentStatus_read a' hd).symm, (sentMode_read a' hd).symm⟩
    rw [statusResult_send_raw fr.txn, hcode] at hv
    rw [hcode] at h6
    exact ⟨_, .of_raw he hv fr.keep, htr, hcode, h6, hmode, h4, fr.isOpen, fr.op, h1, h5, h3, h2⟩
  · cases habs

/-- A byte sent on its own in receive mode launches a receive (30_encoding.md R89, line 11). -/
theorem sendReceives_of_rawSend {r : Byte} {rest : List Byte} (hint : s.twi.twint = true) (hw : s.waitsEnd)
    (hbe : s.cfg.busErrorPossible = false) (hrx : s.oracle.rxs = r :: rest) (hm : s.twi.mode = .mr) :
    SendReceives i role r s := by
  have he := hi.trans (rawSend_issues hb ho)
  obtain ⟨v, e, r', hv, fr, herr, h1, h2, h3, h4, h5, h6, -, h⟩ :=
    send_receives (hw.launchEnds.issueRaw i (.send b (Role.sendRole role)) true) rfl hop hint hm rfl
  obtain ⟨rfl, -⟩ := herr.none hbe
  obtain ⟨-, hrd, hdr, htr, hmode, hcode⟩ | ⟨habs, -⟩ := h
  · rw [State.issueRaw_oracle, hrx] at hrd
    obtain rfl := hrd.eq_of_cons
    rw [statusResult_send_raw fr.txn, hcode] at hv
    rw [hcode] at h6
    exact ⟨_, .of_raw he hv fr.keep, htr, hcode, h6, hmode, hdr, fr.isOpen, fr.op, h1, h4, h5, h3, h2⟩
  · cases habs

/-- A byte sent on its own in a mode that launches none is refused at its launch (40_twi_unit.md R138). -/
theorem rawSend_launch_refused (hint : s.twi.twint = true) (heager : s.hostEager = false)
    (hm : s.twi.mode = .none ∨ s.twi.mode = .mrEnd) :
    ∃ u, exec i s = .next u ∧ run 3 u = .refused .twcrUnmodelled :=
  ⟨_, hi.trans (rawSend_issues hb ho), send_refused heager rfl hop hint hm rfl⟩

end

/-- The unit after a TWDR write that collided, at the end of sendByte's check (41_bus_primitives.md R165). -/
def State.collided (p : Prim) (s : State) : State :=
  { s with twi := { s.twi with twwc := true }, seq := { s.seq with pos := .prim p .check } }

/-- With TWINT clear, sendByte's TWDR write collides, and its check ends it before the launch (10_state.md R29). -/
theorem send_collides {s : State} {b : Byte} {role : SendRole} (he : s.hostEager = false) (hb : s.seq.seqBusy = true)
    (ho : s.twi.op = none) (hi : s.twi.twint = false) (hp : s.seq.pos = .prim (.send b role) .write) :
    Reaches s ((s.collided (.send b role)).primDone (.send b role) (.error (collisionError role.step))) := by
  have h1 : step s = .next (s.collided (.send b role)) := by
    rw [step_prim he hb ho hp, primStep, primWrite]
    simp [State.writeTwdr, Twi.writeTwdr, hi, State.goto, State.collided]
  have h2 : step (s.collided (.send b role)) =
      .next ((s.collided (.send b role)).primDone (.send b role) (.error (collisionError role.step))) := by
    rw [step_prim (s := s.collided (.send b role)) he hb ho rfl, primStep, primCheck, State.twcr, twcr_bit3]
    rfl
  exact .head h1 (.of_step h2)

/-! ### Raw primitives whose operation stalls (41_bus_primitives.md R161, R162) -/

/-- A raw primitive whose operation stalls responds with the Timeout of its step. -/
theorem timesOut_of_raw {s : State} {i : Instr} {p : Prim} {o : Bool} {l : Nat} (hw : s.LaunchStalls l)
    (hb : s.seq.seqBusy = false) (hop : s.twi.op = none) (he : exec i s = .next (s.issueRaw i p o)) (hr : p.ready s) :
    TimesOut i p.step s := by
  have hready : p.ready (s.issueRaw i p o) := by cases p <;> exact hr
  obtain ⟨v, hv, ht⟩ := prim_times_out (hw.issueRaw i p o) rfl hop hready rfl
  have hk : TxnKeep (s.issueRaw i p o) v := ⟨ht.cfg, ht.fb, ht.host, by rw [ht.seq], ht.twbr, ht.twps⟩
  obtain ⟨htxn, hlast, hopen⟩ : v.seq.txn = none ∧ v.seq.lastStatus = s.seq.lastStatus ∧ v.seq.isOpen = o := by
    rw [ht.seq]
    exact ⟨rfl, rfl, rfl⟩
  rw [primDone_raw_error htxn] at hv
  exact ⟨_, .of_raw he hv hk, hw.limit.trans (congrArg some ht.off.polls.symm), ht.off.twen, ht.off.busIdle, ht.off.tws,
    ht.off.twint, ht.off.twsto, hlast, ht.trace, hopen.trans (isOpen_of_issueRaw hb he)⟩

end Sys2Proof.Machine

open Sys2Proof Sys2Proof.Machine

/-- Settles O39: each row asks of `open` what `accepted` does, and refuses with HOST_PAIRING. -/
theorem pairingBreakIsRefused : Obligations.PairingBreakIsRefused :=
  fun _ _ => exec_of_not_accepted

/-- Settles O41: the mode tells a START from a repeated one, which start() reports as an error. -/
theorem busStartRuns : Obligations.BusStartRuns := by
  rintro s ⟨hb, ho⟩ hop ⟨hw, hbe, -⟩
  have he := exec_busStart_issues hb ho
  obtain ⟨v, e, hv, fr, herr, h1, -, h3, h4, -, -, -, h⟩ :=
    start_runs (hw.launchEnds.issueRaw .busStart .start true) rfl hop rfl
  obtain ⟨rfl, -⟩ := herr.none hbe
  obtain ⟨-, hm, hmode, hcode, htr⟩ | ⟨-, hm, hmode, hcode, htr⟩ | ⟨habs, -⟩ := h
  · rw [statusResult_start_ok hcode, primDone_raw_ok fr.txn] at hv
    exact ⟨fun _ => ⟨_, .of_raw he hv fr.keep, htr, fr.isOpen, hcode, hmode, fr.op, h1, h3, fr.twen, h4⟩,
      fun hn => absurd hm hn⟩
  · rw [statusResult_start_error (by rw [hcode]; decide), primDone_raw_error fr.txn, hcode] at hv
    exact ⟨fun hn => absurd hn hm, fun _ => ⟨_, .of_raw he hv fr.keep, htr, fr.isOpen, hcode, hmode⟩⟩
  · cases habs

/-- Settles O42: stop() cannot fail where its wait ends. -/
theorem busStopRuns : Obligations.BusStopRuns := by
  intro s hb hop hw
  obtain ⟨v, hv, fr, hlast, hmode, hint, hsto, hs, hdr, htr, -⟩ :=
    stop_runs (hw.launchEnds.issueRaw .busStop .stop false) rfl hop rfl
  rw [primDone_raw_ok fr.txn] at hv
  exact ⟨_, .of_raw (exec_busStop_issues hb) hv fr.keep, fr.isOpen, htr, ⟨fr.op, hmode⟩, hint, hsto, fr.twen, hs, hlast, hdr⟩

/-- Settles O43: one raw sendByte for every row, by the mode it finds. -/
theorem busSendRuns : Obligations.BusSendRuns := by
  intro s hb ho hop hint
  refine ⟨fun hw hbe => ⟨fun a rest hak hm => ?_, fun r rest hrx hm => ?_⟩, fun heager hm => ?_⟩
  · exact .of_rawSend s fun i b role hi => sendRuns_of_rawSend hb ho hop hi hint hw hbe hak hm
  · exact .of_rawSend s fun i b role hi => sendReceives_of_rawSend hb ho hop hi hint hw hbe hrx hm
  · exact .of_rawSend s fun i b role hi => rawSend_launch_refused hb ho hop hi hint heager hm

/-- Settles O44: the TWDR write collides, and the check answers before the launch. -/
theorem busSendCollides : Obligations.BusSendCollides := by
  intro s b role hb ho hop hint heager
  have he : exec (.busSend b role) s = .next (s.issueRaw (.busSend b role) (.send b (Role.sendRole role)) true) :=
    rawSend_issues hb ho
  have hv := send_collides (s := s.issueRaw (.busSend b role) (.send b (Role.sendRole role)) true) heager rfl hop hint rfl
  rw [primDone_raw_error rfl] at hv
  exact ⟨_, .of_raw he hv ⟨rfl, rfl, rfl, rfl, rfl, rfl⟩, rfl, rfl, rfl, rfl⟩

/-- Settles O45: the status is that of the answer given, so the byte is read. -/
theorem busRecvRuns : Obligations.BusRecvRuns := by
  intro s k r rest hb ho hs hop hm hw hbe hrx
  have he := exec_busRecv_issues (ack := k) hb ho hs
  obtain ⟨v, e, r', hv, fr, herr, h1, -, -, h4, -, -, -, h⟩ :=
    recv_runs (hw.launchEnds.issueRaw (.busRecv k) (.recv k 0) true) rfl hop hm rfl
  obtain ⟨rfl, -⟩ := herr.none hbe
  obtain ⟨-, hrd, hdr, htr, hmode, hcode⟩ | ⟨habs, -⟩ := h
  · rw [State.issueRaw_oracle, hrx] at hrd
    obtain rfl := hrd.eq_of_cons
    obtain ⟨-, -, heager⟩ := fr.waitsEnd hw
    have hdata := data_runs (ack := k) (i := 0) heager fr.seqBusy fr.op
    rw [primDone_raw_ok (s := v.goto (.prim (.recv k 0) .data)) fr.txn, hdr] at hdata
    rw [statusResult_recv_ok hcode] at hv
    exact ⟨_, .of_raw he (hv.trans hdata) (fr.keep.trans ⟨rfl, rfl, rfl, rfl, rfl, rfl⟩), htr, hdr, h4,
      hcode.trans (by cases k <;> rfl), hmode, fr.op, h1, fr.isOpen⟩
  · cases habs

/-- Settles O46: each row issues its primitive, whose wait ends in the recovery. -/
theorem stalledPrimitiveTimesOut : Obligations.StalledPrimitiveTimesOut := by
  intro s l rest hb hop heager hl hlim hmay hstalls
  have hw : s.LaunchStalls l := ⟨heager, by rw [State.drawStall, if_pos hmay, Oracle.stall_of_cons hstalls], hlim, hl⟩
  refine ⟨fun ho => ?_, ?_, fun ho hint hm hmEnd => ?_, fun ho hs hm k => ?_⟩
  · exact timesOut_of_raw hw hb hop (exec_busStart_issues hb ho) trivial
  · exact timesOut_of_raw hw hb hop (exec_busStop_issues hb) trivial
  · exact EverySend.of_rawSend (P := fun i _ role => TimesOut i (Role.sendRole role).step s) s fun i b role hi =>
      timesOut_of_raw hw hb hop (hi.trans (rawSend_issues hb ho)) ⟨hint, hm, hmEnd⟩
  · exact timesOut_of_raw hw hb hop (exec_busRecv_issues hb ho hs) hm

end

section
/-! SUPPORT. The transactions as requests of their own (42_bus_transactions.md R181-R187): their issue, and the response of
their run. -/

namespace Sys2Proof.Machine

/-! ### A request from its issue to its response (10_state.md R43) -/

/-- A request runs to its response from the state of its issue, where its run leaves alone what `FlushKeep` lists; the issue
itself changes the sequencer only. -/
theorem RunsTo.of_respond {i : Instr} {r : Response} {s u v : State} (hi : formatOf i ≠ .access) (he : exec i s = .next u)
    (hr : Reaches u (v.respond r)) (hk : FlushKeep u v) : RunsTo i r s (v.respond r) := by
  have hf := exec_request hi he
  have hh : v.host = s.host := hk.host.trans hf.host
  exact ⟨⟨u, he, hf.seqBusy, hf.req, hr⟩, rfl, rfl, rfl, fun a => congrArg (Memory.read · a) (hk.fb.trans hf.fb),
    hk.cfg.trans hf.cfg, (State.respond_stream r v).trans (congrArg HostSide.stream hh),
    congrArg (fun h : HostSide => h.received ++ [Received.response r]) hh,
    hk.twbr.trans (congrArg Twi.twbr hf.twi), hk.twps.trans (congrArg Twi.twps hf.twi)⟩

/-! ### The response of a transaction (42_bus_transactions.md R181, R183) -/

/-- The response of WRITE_TXN and READ_TXN, from the result of their transaction. -/
def txnResponse : Except BusError (List Byte) → Response
  | .ok v => .ok v
  | .error e => .busErr e

/-- The state after the response of WRITE_TXN or READ_TXN. -/
def State.answered (r : Except BusError (List Byte)) (s : State) : State :=
  State.respond (txnResponse r) { s with seq := { s.seq with txn := none } }

theorem txnDone_answered {s : State} (h : s.seq.job = none) (r : Except BusError (List Byte)) :
    s.txnDone r = s.answered r := by
  cases r with
  | ok v => exact txnDone_ok h
  | error e => exact txnDone_error h

/-- A request that is one transaction runs to the response that its result gives. -/
theorem RunsTo.of_txn {i : Instr} {t : Txn} {r : Except BusError (List Byte)} {s v : State} (hi : formatOf i ≠ .access)
    (he : exec i s = .next ((s.issue i).startTxn t)) (hr : Reaches ((s.issue i).startTxn t) (v.txnDone r))
    (hk : TxnKeep (s.issue i) v) : RunsTo i (txnResponse r) s (v.answered r) := by
  rw [txnDone_answered hk.job] at hr
  exact .of_respond hi he hr ⟨hk.cfg, hk.fb, hk.host, hk.seqBusy, hk.req, hk.isOpen, hk.twbr, hk.twps⟩

theorem exec_writeTxn_starts {s : State} (hf : s.free) (a : Byte) (bytes : List Byte) :
    exec (.writeTxn a bytes) s = .next ((s.issue (.writeTxn a bytes)).startTxn (.write a bytes)) := by
  rw [exec, execWriteTxn, pairedRequest_eq_next]
  exact ⟨hf.1, by simp [hf.2], rfl⟩

theorem exec_readTxn_issues {s : State} (hf : s.free) (a n : Byte) :
    exec (.readTxn a n) s = .next ((s.issue (.readTxn a n)).startRead a n.toNat) := by
  rw [exec, execReadTxn, pairedRequest_eq_next]
  exact ⟨hf.1, by simp [hf.2], rfl⟩

/-- A read of at least one byte starts its transaction (42_bus_transactions.md R183). -/
theorem exec_readTxn_starts {s : State} (hf : s.free) (a : Byte) {n : Byte} (hn : 1 ≤ n.toNat) :
    exec (.readTxn a n) s = .next ((s.issue (.readTxn a n)).startTxn (.read a n.toNat)) := by
  rw [exec_readTxn_issues hf, State.startRead, if_neg (by omega)]

theorem RunsTo.of_write {a : Byte} {bytes : List Byte} {r : Except BusError (List Byte)} {s v : State} (hf : s.free)
    (hr : Reaches ((s.issue (.writeTxn a bytes)).startTxn (.write a bytes)) (v.txnDone r))
    (hk : TxnKeep (s.issue (.writeTxn a bytes)) v) : RunsTo (.writeTxn a bytes) (txnResponse r) s (v.answered r) :=
  .of_txn (by simp [formatOf]) (exec_writeTxn_starts hf a bytes) hr hk

theorem RunsTo.of_read {a n : Byte} {r : Except BusError (List Byte)} {s v : State} (hf : s.free) (hn : 1 ≤ n.toNat)
    (hr : Reaches ((s.issue (.readTxn a n)).startTxn (.read a n.toNat)) (v.txnDone r))
    (hk : TxnKeep (s.issue (.readTxn a n)) v) : RunsTo (.readTxn a n) (txnResponse r) s (v.answered r) :=
  .of_txn (by simp [formatOf]) (exec_readTxn_starts hf a hn) hr hk

/-! ### Answers given in advance (log 2) -/

theorem State.Errs.of_given {s : State} {q : List Bool} (hp : s.cfg.busErrorPossible = true) (h : s.oracle.busErrs = q) :
    s.Errs q := .inr ⟨hp, [], by rw [h, List.append_nil]⟩

/-- The launches before the one that stalls complete within POLL_LIMIT reads (41_bus_primitives.md R161). -/
theorem State.Waits.of_given {s : State} {l : Nat} {ds more : List Nat} {qs : List Bool} (he : s.hostEager = false)
    (hm : s.cfg.slaveMayStall = true) (hl : s.cfg.pollLimit = some l) (hlt : ∀ d ∈ ds, d < l)
    (hds : s.oracle.delays = ds ++ more) (hqs : s.oracle.stalls = List.replicate ds.length false ++ qs) :
    s.Waits ds.length qs :=
  ⟨he, .inr ⟨hm, hqs, ds, more, rfl, fun d hd l' hl' => by cases hl.symm.trans hl'; exact hlt d hd, hds⟩⟩

end Sys2Proof.Machine

open Sys2Proof Sys2Proof.Machine

/-- Settles O47: the run of the whole write transaction is its response's. -/
theorem writeTransactionRuns : Obligations.WriteTransactionRuns := by
  rintro s a bytes hf hidle ⟨hw, hbe, rest, hak⟩
  obtain ⟨u, hu, hk, hs, htr, -, hdr⟩ := write_runs (s := s.issue (.writeTxn a bytes)) hw hbe rfl hidle hak
  exact ⟨_, .of_write hf hu hk, htr, hs.busIdle, hdr, hs.twint, hs.twen, hs.tws, hk.isOpen.trans hf.2⟩

/-- Settles O48: the run of each kind of transaction to where it fails, and its release. -/
theorem failedTransactionReleasesTheBus : Obligations.FailedTransactionReleasesTheBus := by
  intro s a hf hidle hw
  refine ⟨fun hbe => ⟨fun bytes k rest hk hak => ?_, fun n rest hn hak => ?_⟩, fun hp k errs herr => ⟨?_, ?_⟩⟩
  · obtain ⟨u, hu, hkeep, hs, htr⟩ := write_nack (s := s.issue (.writeTxn a bytes)) hw hbe rfl hidle hk hak
    exact ⟨_, .of_write hf hu hkeep, htr, hs.busIdle, hkeep.isOpen.trans hf.2⟩
  · obtain ⟨u, hu, hkeep, hs, htr⟩ := read_nack (s := s.issue (.readTxn a n)) hw hbe rfl hidle hn hak
    exact ⟨_, .of_read hf hn hu hkeep, htr, hs.busIdle, hkeep.isOpen.trans hf.2⟩
  · intro bytes rest hk hak
    obtain ⟨u, hu, hkeep, hs, htr⟩ :=
      write_busErr (s := s.issue (.writeTxn a bytes)) hw rfl hidle hk (.of_given hp herr) hak
    exact ⟨_, .of_write hf hu hkeep, htr, hs.busIdle, hkeep.isOpen.trans hf.2⟩
  · intro n bs more rest hn hk hlen hak hrx
    obtain ⟨u, hu, hkeep, hs, htr⟩ :=
      read_busErr (s := s.issue (.readTxn a n)) hw rfl hidle hn hk hlen (.of_given hp herr) hak hrx
    exact ⟨_, .of_read hf hn hu hkeep, htr, hs.busIdle, hkeep.isOpen.trans hf.2⟩

/-- Settles O49: the launches before the stall end in time, and the one that stalls is a primitive of the transaction or its
release STOP. -/
theorem writeTransactionTimesOut : Obligations.WriteTransactionTimesOut := by
  intro s a bytes l ds more stalls rest hf hidle he hbe hm hl hlim hlt hds hst
  have hw : (s.issue (.writeTxn a bytes)).Waits ds.length (true :: stalls) := .of_given he hm hlim hlt hds hst
  refine ⟨fun hk hak => ?_, fun j hj hlen hak => ?_⟩
  · obtain ⟨u, hu, hkeep, hrec, htr⟩ := write_times_out (a := a) hw hm hlim hl hbe rfl hidle hk hak
    simp only [List.length_eq_zero_iff] at htr
    exact ⟨_, .of_write hf hu hkeep, htr, hrec.polls, hrec.twen, hrec.busIdle, hkeep.isOpen.trans hf.2⟩
  · rw [hlen] at hw
    obtain ⟨u, hu, hkeep, hrec, htr⟩ := write_release_times_out hw hm hlim hl hbe rfl hidle hj hak
    exact ⟨_, .of_write hf hu hkeep, htr, hrec.polls, hrec.twen, hrec.busIdle, hkeep.isOpen.trans hf.2⟩

/-- Settles O50: a run with any answers ends after a STOP, in `Ok` or in an error whose release succeeded. -/
theorem writeTransactionAlwaysReleases : Obligations.WriteTransactionAlwaysReleases := by
  intro s a bytes hf hidle hw
  obtain ⟨u, r, hu, hk, hs, hrel, hnil⟩ :=
    write_ends (s := s.issue (.writeTxn a bytes)) (a := a) (bytes := bytes) hw rfl hidle
  refine ⟨_, _, .of_write hf hu hk, hs.busIdle, hs.twsto, hk.isOpen.trans hf.2, ?_⟩
  cases r with
  | ok v => exact .inl (congrArg Response.ok (hnil v rfl))
  | error e => exact .inr ⟨e, rfl, hrel e rfl⟩

/-- Settles O51: the run of the whole read transaction, and the one micro-step of a read of no bytes. -/
theorem readTransactionRuns : Obligations.ReadTransactionRuns := by
  constructor
  · rintro s a n bs rest hf hidle ⟨hw, hbe, acks, hak⟩ hlen hn hrx
    obtain ⟨u, hu, hk, hs, htr, hdr⟩ := read_runs (s := s.issue (.readTxn a n)) hw hbe rfl hidle hak hlen hn hrx
    have hlast : bs.getLast? = some (bs.getLast?.getD (slaByte a true)) := by
      rw [List.getLast?_eq_some_getLast (List.ne_nil_of_length_pos (by omega)), Option.getD_some]
    exact ⟨_, .of_read hf hn hu hk, htr, hs.busIdle, (congrArg some hdr).trans hlast.symm, hk.isOpen.trans hf.2⟩
  · intro s a hf hr he
    have hstep : step ((s.issue (.readTxn a 0#8)).goto .done) = .next _ := step_done he rfl hr rfl
    exact ⟨_, .of_respond (by simp [formatOf]) (exec_readTxn_issues hf a 0#8) (.of_step hstep) (.refl _), rfl, rfl, rfl, hf.2⟩

end

section
/-! SUPPORT. The display requests and the display command rows on their own (43_display_commands.md R196-R209): which
commands each sends, and the response of its run; and a flush as a request (44_framebuffer.md R226, R229). -/

namespace Sys2Proof

/-! ### The commands of an instruction (43_display_commands.md R196-R209) -/

/-- The display commands that an instruction sends, in order; none for an instruction that sends no list of commands, and for
a page that is refused (43_display_commands.md R198). -/
def Instr.displayCommands (c : Config) : Instr → Option (List Byte)
  | .dispInit => some c.initSequence
  | .dispCmd b => some [b]
  | .dispSetCol first last => some [0x21#8, first, last]
  | .dispSetPage p => if p.toNat < Config.pages then some [0xB0#8 ||| p] else none
  | .displayOff => some [0xAE#8]
  | .displayOn => some [0xAF#8]
  | .setContrast b => some [0x81#8, b]
  | .setColumnWindow first last => some [0x21#8, first, last]
  | .setPageStart p => some [0xB0#8 ||| p.setWidth 8]
  | .setLowerCol n => some [n.setWidth 8]
  | .setUpperCol n => some [0x10#8 ||| n.setWidth 8]
  | .setStartLine l => some [0x40#8 ||| l.setWidth 8]
  | .setAddrMode m => some [0x20#8, m]
  | _ => none

variable {c : Config} {i : Instr} {cmds : List Byte}

theorem Instr.displayCommands_dispSetPage {p : Byte} (hp : p.toNat < 8) :
    (Instr.dispSetPage p).displayCommands c = some [0xB0#8 ||| p] := if_pos hp

theorem Instr.displayCommands_not_access (h : i.displayCommands c = some cmds) : formatOf i ≠ .access := by
  revert h
  cases i <;> nofun

namespace Machine

theorem exec_displayCommands {s : State} (h : i.displayCommands s.cfg = some cmds) :
    exec i s = displayRequest i cmds s := by
  cases i
  case dispSetPage p =>
    obtain ⟨hp, hc⟩ := Option.ite_none_right_eq_some.1 h
    cases hc
    exact if_neg (Nat.not_le.2 hp)
  case setLowerCol n =>
    cases h
    simp only [exec, execSetLowerCol, BitVec.zero_or]
  all_goals cases h <;> rfl

/-! ### A list of commands as a request (43_display_commands.md R196, R205) -/

theorem State.flushing_eq_false {s : State} (hreq : s.seq.req = some i) (h : i.displayCommands c = some cmds) :
    s.flushing = false := by
  rw [State.flushing, hreq, decide_eq_false_iff_not, Option.some_inj]
  rintro rfl
  cases h

/-- The state in which the commands of a request are still to be sent. -/
def State.withCommands (cs : List Byte) (s : State) : State := { s with seq := { s.seq with jobs := cs.map Job.cmd } }

theorem State.withCommands_keep (cs : List Byte) (s : State) : JobKeep s (s.withCommands cs) :=
  ⟨rfl, rfl, rfl, rfl, rfl, rfl, rfl, rfl, rfl⟩

theorem State.startCommands_eq_nextJob (h : cmds ≠ []) (s : State) :
    s.startCommands cmds = (s.withCommands cmds).nextJob := by
  cases cmds with
  | nil => exact absurd rfl h
  | cons b rest => exact State.startCommands_cons b rest s

/-- An instruction that sends commands runs to the response that their run comes to. -/
theorem RunsTo.of_commands {r : Response} {s v : State} (h : i.displayCommands s.cfg = some cmds) (hf : s.free)
    (hr : Reaches ((s.issue i).startCommands cmds) (v.respond r)) (hk : JobKeep (s.issue i) v) :
    RunsTo i r s (v.respond r) := by
  have he : exec i s = .next ((s.issue i).startCommands cmds) :=
    (exec_displayCommands h).trans (displayRequest_eq_next.2 ⟨hf.1, hf.2, rfl⟩)
  have h0 : FlushKeep ((s.issue i).startCommands cmds) (s.issue i) := by constructor <;> simp
  exact .of_respond (Instr.displayCommands_not_access h) he hr (h0.trans hk.toFlush)

/-- The commands of an instruction, all acknowledged; with none, the one micro-step that answers (log 20). -/
theorem DisplayRuns.of_commands {s : State} (h : i.displayCommands s.cfg = some cmds) : DisplayRuns i cmds s := by
  rintro hf hidle ⟨hw, hbe, rest, hak⟩
  by_cases hc : cmds = []
  · subst hc
    have hstep : step ((s.issue i).goto .done) = .next _ := step_done hw.2.2 rfl (by simp [State.running, hidle.1]) rfl
    exact ⟨_, .of_commands h hf (.of_step hstep) ⟨rfl, rfl, rfl, rfl, rfl, rfl, rfl, rfl, rfl⟩, by simp, hidle, hf.2⟩
  · obtain ⟨u, hu, hk, hi, hj, htr, -⟩ := commands_run (s := (s.issue i).withCommands cmds) (tail := []) hw hbe rfl hidle
      (List.append_nil _).symm hak
    rw [nextJob_done hj (State.flushing_eq_false hk.req h), ← State.startCommands_eq_nextJob hc] at hu
    exact ⟨_, .of_commands h hf hu ((State.withCommands_keep _ _).trans hk), htr, hi, hk.isOpen.trans hf.2⟩

/-- The commands of an instruction, one of them not acknowledged: the error names no page, since the request is no flush. -/
theorem DisplayNacks.of_commands {s : State} (h : i.displayCommands s.cfg = some cmds) : DisplayNacks i cmds s := by
  intro j k b rest hf hidle hw hbe hj hk hak
  have hc : cmds ≠ [] := by
    rintro rfl
    cases hj
  obtain ⟨u, hu, hkeep, hi, htr⟩ := commands_nack (s := (s.issue i).withCommands cmds) (tail := []) hw hbe rfl hidle
    (List.append_nil _).symm hj hk hak
  rw [State.displayError, State.flushing_eq_false rfl h, ← State.startCommands_eq_nextJob hc] at hu
  exact ⟨_, .of_commands h hf hu ((State.withCommands_keep _ _).trans hkeep), htr, hi, hkeep.isOpen.trans hf.2⟩

/-! ### A flush as a request (44_framebuffer.md R226, R229) -/

/-- A flush, not acknowledged at the `k`-th byte of the `j`-th transaction of page `p`. -/
theorem flush_nack {s : State} {p j k : Nat} {rest : List Ack} (hw : s.waitsEnd) (hbe : s.cfg.busErrorPossible = false)
    (hb : s.seq.seqBusy = true) (hf : s.flushing = true) (hidle : s.busIdle) (hp : p < Config.pages) (hwd : 1 ≤ s.cfg.width)
    (hj : j < 5) (hk : k < if j < 4 then 3 else 2 + s.cfg.width)
    (hak : s.oracle.acks = List.replicate (p * (14 + s.cfg.width) + 3 * j + k) Ack.ack ++ .nack :: rest) :
    ∃ u, Reaches (s.startPage 0) (u.respond (.displayErr
        { page := some p, command := (pageCommands s.cfg.width p)[j]?, cause := nackError k })) ∧
      FlushKeep s u ∧ u.busIdle ∧
      u.trace = s.trace ++ (List.range p).flatMap (pageTrace s.cfg.width s.fb) ++ pageNackTrace s.cfg.width s.fb p j k := by
  obtain ⟨u, hu, ku, ui, utr, uak⟩ := flush_reaches (rest := List.replicate (3 * j + k) Ack.ack ++ .nack :: rest)
    hw hbe hb hf hidle hp hwd (by rw [hak, Nat.add_assoc, List.replicate_add, List.append_assoc])
  have hfu : u.flushing = true := by rwa [State.flushing, ku.req]
  rw [← ku.cfg] at hbe hwd hk
  obtain ⟨v, hv, kv, vi, vtr⟩ := page_nack (ku.waitsEnd hw) hbe (ku.seqBusy.trans hb) hfu ui hp hwd hj hk uak
  rw [ku.cfg] at hv
  rw [utr, ku.cfg, ku.fb] at vtr
  exact ⟨v, hu.trans hv, ku.trans kv, vi, vtr⟩

theorem exec_dispFlush_starts {s : State} (hf : s.free) :
    exec .dispFlush s = .next ((s.issue .dispFlush).startPage 0) := by
  rw [exec, execDispFlush, pairedRequest_eq_next]
  exact ⟨hf.1, by simp [hf.2], rfl⟩

/-- A flush runs to the response that its pages come to. -/
theorem RunsTo.of_flush {r : Response} {s v : State} (hf : s.free)
    (hr : Reaches ((s.issue .dispFlush).startPage 0) (v.respond r)) (hk : FlushKeep (s.issue .dispFlush) v) :
    RunsTo .dispFlush r s (v.respond r) :=
  .of_respond (by simp [formatOf]) (exec_dispFlush_starts hf) hr
    (FlushKeep.trans (u := s.issue .dispFlush) ⟨rfl, rfl, rfl, rfl, rfl, rfl, rfl, rfl⟩ hk)

end Machine
end Sys2Proof

open Sys2Proof Sys2Proof.Machine

/-- Settles O52: the run of each request's commands. -/
theorem displayRequestsRun : Obligations.DisplayRequestsRun := fun _ _ _ _ _ =>
  ⟨.of_commands rfl, .of_commands rfl, fun hp => .of_commands (Instr.displayCommands_dispSetPage hp), .of_commands rfl⟩

/-- Settles O53: the run of each row's bytes. -/
theorem displayCommandRowsRun : Obligations.DisplayCommandRowsRun := fun _ _ _ _ _ _ _ _ =>
  ⟨.of_commands rfl, .of_commands rfl, .of_commands rfl, .of_commands rfl, .of_commands rfl, .of_commands rfl,
    .of_commands rfl, .of_commands rfl, .of_commands rfl⟩

/-- Settles O54: the commands up to the NACK; in flush the pages before it, then its page up to the NACK. -/
theorem displayRequestNacks : Obligations.DisplayRequestNacks := by
  refine ⟨fun s b first last p => ?_, fun s c first last m p n l => ?_, ?_⟩
  · exact ⟨.of_commands rfl, .of_commands rfl, fun hp => .of_commands (Instr.displayCommands_dispSetPage hp),
      .of_commands rfl⟩
  · exact ⟨.of_commands rfl, .of_commands rfl, .of_commands rfl, .of_commands rfl, .of_commands rfl, .of_commands rfl,
      .of_commands rfl, .of_commands rfl, .of_commands rfl⟩
  · intro s p j k rest hwf hf hidle hw hbe hp hj hk hak
    obtain ⟨u, hu, hkeep, hi, htr⟩ := flush_nack (s := s.issue .dispFlush) hw hbe rfl rfl hidle hp (Config.width_pos hwf) hj hk hak
    exact ⟨_, .of_flush hf hu hkeep, htr, hkeep.fb, hi, hkeep.isOpen.trans hf.2⟩

end

section
/-! SUPPORT. What the trace of a flush holds (44_framebuffer.md R230): it is the traces of its write transactions, one after
another. -/

namespace Sys2Proof.Machine

/-! ### What the trace of write transactions holds -/

theorem txBytes_sent (bs : List Byte) (rest : List Event) :
    txBytes (bs.map (fun b => Event.tx b .ack) ++ .stop :: rest) = bs := by
  induction bs with
  | nil => rfl
  | cons b bs ih => exact congrArg (b :: ·) ih

theorem transactions_sent (bs : List Byte) (rest : List Event) :
    transactions (bs.map (fun b => Event.tx b .ack) ++ rest) = transactions rest := by
  induction bs with
  | nil => rfl
  | cons b bs ih => exact ih

/-- A write transaction in a trace is one transaction: its address byte and its bytes. -/
theorem transactions_writeTrace (a : Byte) (bytes : List Byte) (rest : List Event) :
    transactions (writeTrace a bytes ++ rest) = (slaByte a false :: bytes) :: transactions rest := by
  have htrace : writeTrace a bytes ++ rest =
      .start :: ((slaByte a false :: bytes).map (fun b => Event.tx b .ack) ++ .stop :: rest) := by
    simp [writeTrace]
  rw [htrace, transactions, if_pos rfl, txBytes_sent, transactions_sent]
  rfl

theorem transactions_writeTraces (a : Byte) (txns : List (List Byte)) :
    transactions (txns.flatMap (writeTrace a)) = txns.map (slaByte a false :: ·) := by
  induction txns with
  | nil => rfl
  | cons bytes txns ih => rw [List.flatMap_cons, transactions_writeTrace, ih, List.map_cons]

@[simp] theorem countP_isTx_writeTrace (a : Byte) (bytes : List Byte) :
    (writeTrace a bytes).countP Event.isTx = bytes.length + 1 := by
  have hsent : bytes.countP (Event.isTx ∘ fun b => Event.tx b .ack) = bytes.length :=
    List.countP_eq_length.2 fun _ _ => rfl
  simp [writeTrace, List.countP_cons, List.countP_map, hsent, Event.isTx]

@[simp] theorem count_start_writeTrace (a : Byte) (bytes : List Byte) : (writeTrace a bytes).count .start = 1 := by
  simp [writeTrace, List.count_eq_zero_of_not_mem]

@[simp] theorem count_stop_writeTrace (a : Byte) (bytes : List Byte) : (writeTrace a bytes).count .stop = 1 := by
  simp [writeTrace, List.count_eq_zero_of_not_mem]

/-! ### The transactions of a flush (44_framebuffer.md R226-R228) -/

/-- The bytes that each transaction of page `p` sends after the address. -/
def pageTxns (width : Nat) (fb : Memory) (p : Nat) : List (List Byte) :=
  (pageCommands width p).map (fun b => [Config.ctrlCmd, b]) ++ [Config.ctrlData :: pageBytes width fb p]

/-- The bytes that each transaction of a flush sends after the address. -/
def flushTxns (width : Nat) (fb : Memory) : List (List Byte) := (List.range Config.pages).flatMap (pageTxns width fb)

variable (width : Nat) (fb : Memory)

theorem pageTrace_eq (p : Nat) : pageTrace width fb p = (pageTxns width fb p).flatMap (writeTrace Config.devAddr) := by
  rw [pageTxns, List.flatMap_append, List.flatMap_map, List.flatMap_singleton]
  rfl

theorem flushTrace_eq : flushTrace width fb = (flushTxns width fb).flatMap (writeTrace Config.devAddr) := by
  rw [flushTrace, flushTxns, List.flatMap_assoc]
  exact List.flatMap_congr fun p _ => pageTrace_eq width fb p

theorem flushTxns_length : (flushTxns width fb).length = 40 := rfl

theorem transactions_flushTrace :
    transactions (flushTrace width fb) = (flushTxns width fb).map (slaByte Config.devAddr false :: ·) := by
  rw [flushTrace_eq, transactions_writeTraces]

/-- A page sends three bytes for each of its commands, and the address, the control byte and its columns. -/
theorem countP_isTx_pageTrace (p : Nat) : (pageTrace width fb p).countP Event.isTx = 14 + width := by
  simp +arith [pageTrace, pageCommands, pageBytes, cmdTrace]

theorem countP_isTx_flushTrace : (flushTrace width fb).countP Event.isTx = 8 * (14 + width) := by
  have hpage : List.countP Event.isTx ∘ pageTrace width fb = fun _ => 14 + width := funext (countP_isTx_pageTrace width fb)
  rw [flushTrace, List.countP_flatMap, hpage, List.map_const', List.sum_replicate]
  rfl

/-- An event that each write transaction has once is in a flush as often as it has transactions. -/
theorem count_flushTrace {ev : Event} (h : ∀ bytes, (writeTrace Config.devAddr bytes).count ev = 1) :
    (flushTrace width fb).count ev = 40 := by
  have hone : List.count ev ∘ writeTrace Config.devAddr = fun _ => 1 := funext h
  rw [flushTrace_eq, List.count_flatMap, hone, List.map_const', List.sum_replicate, flushTxns_length]
  rfl

/-! ### The commands and the data of a flush -/

/-- A data transaction is no command, at any number of bytes. -/
theorem commandOf_data (bytes : List Byte) : commandOf (slaByte Config.devAddr false :: Config.ctrlData :: bytes) = none := by
  match bytes with
  | [] => rfl
  | [_] => rfl
  | _ :: _ :: _ => rfl

theorem commandOf_pageTxns (p : Nat) :
    ((pageTxns width fb p).map (slaByte Config.devAddr false :: ·)).filterMap commandOf = pageCommands width p := by
  have hcmd (b : Byte) : commandOf [slaByte Config.devAddr false, Config.ctrlCmd, b] = some b := rfl
  simp [pageTxns, List.filterMap_append, Function.comp_def, hcmd, commandOf_data]

theorem dataOf_pageTxns (p : Nat) :
    ((pageTxns width fb p).map (slaByte Config.devAddr false :: ·)).flatMap dataOf = pageBytes width fb p := by
  have hdata : dataOf (slaByte Config.devAddr false :: Config.ctrlData :: pageBytes width fb p) = pageBytes width fb p := rfl
  have hcmd (b : Byte) : dataOf [slaByte Config.devAddr false, Config.ctrlCmd, b] = [] := rfl
  simp [pageTxns, pageCommands, hcmd, hdata]

/-- A page-address command takes no argument (30_encoding.md R97). -/
theorem commandArgs_pageStartByte {p : Nat} (hp : p < 8) : Config.commandArgs (pageStartByte (BitVec.ofNat 8 p)) = some 0 := by
  revert p
  decide

/-- Of the command bytes of a page, the last two are the column window's arguments (30_encoding.md R97). -/
theorem firstBytes_pageCommands {ps : List Nat} (h : ∀ p ∈ ps, p < 8) :
    firstBytes 0 (ps.flatMap (pageCommands width)) = ps.flatMap fun p => [pageStartByte (BitVec.ofNat 8 p), 0x21#8] := by
  induction ps with
  | nil => rfl
  | cons p ps ih =>
    obtain ⟨hp, hps⟩ := List.forall_mem_cons.1 h
    have hwindow : Config.commandArgs 0x21#8 = some 2 := rfl
    simp [pageCommands, firstBytes, commandArgs_pageStartByte hp, hwindow, ih hps]

theorem commandsIn_flushTrace : commandsIn (flushTrace width fb) =
    (List.range Config.pages).flatMap fun p => [pageStartByte (BitVec.ofNat 8 p), 0x21#8] := by
  rw [commandsIn, transactions_flushTrace, flushTxns, List.map_flatMap, List.filterMap_flatMap]
  simp only [commandOf_pageTxns]
  exact firstBytes_pageCommands width fun p hp => List.mem_range.1 hp

theorem dataOf_flushTrace_length : ((transactions (flushTrace width fb)).flatMap dataOf).length = 8 * width := by
  rw [transactions_flushTrace, flushTxns, List.map_flatMap, List.flatMap_assoc]
  simp only [dataOf_pageTxns, List.length_flatMap, pageBytes, List.length_map, List.length_range, List.map_const',
    List.sum_replicate]
  rfl

end Sys2Proof.Machine

open Sys2Proof Sys2Proof.Machine

/-- Settles O55: the run of the eight pages. -/
theorem flushSendsTheFrameBuffer : Obligations.FlushSendsTheFrameBuffer := by
  rintro s hwf hf hidle ⟨hw, hbe, rest, hak⟩
  obtain ⟨u, hu, hk, hi, htr⟩ := flush_runs (s := s.issue .dispFlush) hw hbe rfl rfl hidle (Config.width_pos hwf) hak
  exact ⟨_, .of_flush hf hu hk, htr, hk.fb, hi, hk.isOpen.trans hf.2⟩

/-- Settles O56: what the trace gains is the flush's trace, which is that of its transactions. -/
theorem flushCounts : Obligations.FlushCounts := by
  intro s hwf hf hidle hack
  obtain ⟨t, hrun, htr, -⟩ := flushSendsTheFrameBuffer s hwf hf hidle hack
  refine ⟨t, flushTrace s.cfg.width s.fb, hrun, htr, countP_isTx_flushTrace _ _, ?_,
    count_flushTrace _ _ (count_start_writeTrace _), count_flushTrace _ _ (count_stop_writeTrace _), ?_, ?_,
    dataOf_flushTrace_length _ _⟩
  · rw [transactions_flushTrace, List.length_map, flushTxns_length]
  · rw [commandsIn_flushTrace]
    decide
  · rw [commandsIn_flushTrace]
    decide

end

section
/-! SUPPORT. The frame buffer's requests: a pixel write bit by bit, and the runs of FB_PIXEL and FB_LINE (44_framebuffer.md
R221-R225). -/

namespace Sys2Proof.Machine

/-! ### drawPixel, bit by bit (44_framebuffer.md R222) -/

/-- Two canonical buffers with the same bits are the same list. -/
theorem Memory.ext_bits {m n : Memory} (hm : Memory.wf m = true) (hn : Memory.wf n = true)
    (h : ∀ a k, (Memory.read m a).getLsbD k = (Memory.read n a).getLsbD k) : m = n :=
  Memory.ext hm hn fun a => BitVec.eq_of_getLsbD_eq fun k _ => h a k

/-- The one bit that drawPixel sets or clears, if the point is on the screen. -/
abbrev pixelBit (width x y a k : Nat) : Prop :=
  x < width ∧ y < Config.height ∧ a = pixelIndex width x y ∧ k = y % 8

/-- Different points have different bits. -/
theorem pixelBit_inj {width x y x' y' a k : Nat} (h : pixelBit width x y a k) (h' : pixelBit width x' y' a k) :
    (x, y) = (x', y') := by
  obtain ⟨hx, -, ha, hk⟩ := h
  obtain ⟨hx', -, ha', hk'⟩ := h'
  obtain ⟨rfl, hy⟩ := pixelIndex_inj hx hx' (ha.symm.trans ha')
  rw [Prod.mk.injEq]
  omega

theorem drawPixel_getLsbD {width : Nat} {fb : Memory} (x y : Nat) (on : Bool) (h : Memory.wf fb = true) (a k : Nat) :
    (Memory.read (drawPixel width fb x y on) a).getLsbD k =
      if pixelBit width x y a k then on else (Memory.read fb a).getLsbD k := by
  unfold pixelBit
  by_cases hc : width ≤ x ∨ Config.height ≤ y
  · rw [drawPixel_clipped on hc, if_neg (by omega)]
  · have hx : x < width := by omega
    have hy : y < Config.height := by omega
    by_cases ha : a = pixelIndex width x y
    · subst ha
      rw [drawPixel_read_same on h hx hy, setBit_getLsbD _ _ (Nat.mod_lt _ (by omega))]
      simp [hx, hy]
    · simp [drawPixel_read_other on ha, ha]

theorem drawPixel_idem {width : Nat} {fb : Memory} (x y : Nat) (on : Bool) (h : Memory.wf fb = true) :
    drawPixel width (drawPixel width fb x y on) x y on = drawPixel width fb x y on := by
  have h1 := drawPixel_wf (width := width) x y on h
  refine Memory.ext_bits (drawPixel_wf _ _ _ h1) h1 fun a k => ?_
  rw [drawPixel_getLsbD _ _ _ h1, drawPixel_getLsbD _ _ _ h]
  split <;> rfl

theorem drawPixel_comm {width x y x' y' : Nat} {fb : Memory} (on on' : Bool) (h : Memory.wf fb = true)
    (hne : (x, y) ≠ (x', y')) :
    drawPixel width (drawPixel width fb x y on) x' y' on' = drawPixel width (drawPixel width fb x' y' on') x y on := by
  have h1 := drawPixel_wf (width := width) x y on h
  have h2 := drawPixel_wf (width := width) x' y' on' h
  refine Memory.ext_bits (drawPixel_wf _ _ _ h1) (drawPixel_wf _ _ _ h2) fun a k => ?_
  rw [drawPixel_getLsbD _ _ _ h1, drawPixel_getLsbD _ _ _ h, drawPixel_getLsbD _ _ _ h2, drawPixel_getLsbD _ _ _ h]
  by_cases hb : pixelBit width x y a k
  · have hb' : ¬ pixelBit width x' y' a k := fun hb' => hne (pixelBit_inj hb hb')
    rw [if_neg hb', if_pos hb, if_pos hb]
  · rw [if_neg hb, if_neg hb]

/-- drawPixel writes inside the buffer only (20_memory.md R61). -/
theorem drawPixel_read_outside {width a : Nat} {fb : Memory} (x y : Nat) (on : Bool) (h : Config.pages * width ≤ a) :
    Memory.read (drawPixel width fb x y on) a = Memory.read fb a := by
  by_cases hc : width ≤ x ∨ Config.height ≤ y
  · rw [drawPixel_clipped on hc]
  · have hlt : pixelIndex width x y < Config.pages * width := pixelIndex_lt (by omega) (by omega)
    exact drawPixel_read_other on (by omega)

/-! ### The drawing micro-steps (44_framebuffer.md R221, R224) -/

section
variable {s : State} (he : s.hostEager = false) (hb : s.seq.seqBusy = true) (hr : s.running = false)
include he hb hr

theorem step_pixel {x y : Byte} {on : Bool} (hp : s.seq.pos = .pixel x y on) : step s = .next (pixelStep x y on s) := by
  rw [step_sequencer_stalled he hb hr, seqStep, hp]

theorem step_line {x1 y1 : Byte} {on : Bool} (hp : s.seq.pos = .line x1 y1 on) :
    step s = .next (linePass x1 y1 on s) := by
  rw [step_sequencer_stalled he hb hr, seqStep, hp]

end

theorem exec_fbPixel_issues {s : State} (hb : s.seq.seqBusy = false) (x y : Byte) (on : Bool) :
    exec (.fbPixel x y on) s = .next ((s.issue (.fbPixel x y on)).goto (.pixel x y on)) := by
  rw [exec, execFbPixel, request_eq_next]
  exact ⟨hb, rfl⟩

theorem exec_fbLine_issues {s : State} (hb : s.seq.seqBusy = false) (x0 y0 x1 y1 : Byte) (on : Bool) :
    exec (.fbLine x0 y0 x1 y1 on) s = .next ((s.issue (.fbLine x0 y0 x1 y1 on)).startLine x0 y0 x1 y1 on) := by
  rw [exec, execFbLine, request_eq_next]
  exact ⟨hb, rfl⟩

/-! ### The points of FB_LINE (44_framebuffer.md R223-R225) -/

/-- The longer of the two distances between the end points. -/
def lineFar (x0 y0 x1 y1 : Byte) : Nat :=
  max (max x0.toNat x1.toNat - min x0.toNat x1.toNat) (max y0.toNat y1.toNat - min y0.toNat y1.toNat)

/-- The point of pass `k` lies in the box of the end points, and is the second end point in the last pass only. -/
structure LinePoint (x0 y0 x1 y1 : Byte) (k : Nat) (p : Locals) : Prop where
  xLow : min (x0.toNat : Int) x1.toNat ≤ p.x
  xHigh : p.x ≤ max (x0.toNat : Int) x1.toNat
  yLow : min (y0.toNat : Int) y1.toNat ≤ p.y
  yHigh : p.y ≤ max (y0.toNat : Int) y1.toNat
  atEnd : p.x = x1.toNat ∧ p.y = y1.toNat ↔ k = lineFar x0 y0 x1 y1

/-- From `a`, `i` steps towards `b` stay between the two, and arrive exactly after the distance. -/
theorem steps_towards {a b i p : Int} (h0 : 0 ≤ i) (hi : i ≤ |b - a|) (hp : p = a + i * (if a < b then 1 else -1)) :
    min a b ≤ p ∧ p ≤ max a b ∧ (p = b ↔ i = |b - a|) := by
  by_cases h : a < b
  · rw [if_pos h] at hp
    rw [abs_of_pos (by omega)] at hi ⊢
    omega
  · rw [if_neg h] at hp
    rw [abs_of_nonpos (by omega)] at hi ⊢
    omega

section
variable (x0 y0 x1 y1 : Byte) (l : Locals)

theorem lineFar_eq : (lineFar x0 y0 x1 y1 : Int) =
    max (lineLocals x0 y0 x1 y1 l).dx (lineLocals x0 y0 x1 y1 l).dy := by
  have h (a b : Nat) : |(b : Int) - a| = (max a b - min a b : Nat) := by
    rw [← max_sub_min_eq_abs]
    omega
  simp only [lineLocals, h, lineFar, Nat.cast_max]

variable {x0 y0 x1 y1} in
/-- The loop's points up to pass `lineFar` (44_framebuffer.md R225). -/
theorem lineLocals_after {k : Nat} (hk : k ≤ lineFar x0 y0 x1 y1) :
    LinePoint x0 y0 x1 y1 k (lineAfter (lineLocals x0 y0 x1 y1 l) k) := by
  have hfar := lineFar_eq x0 y0 x1 y1 l
  obtain ⟨i, j, hc, hi0, hi, hj0, hj, hend⟩ := lineAfter_point (l0 := lineLocals x0 y0 x1 y1 l) rfl (abs_nonneg _)
    (abs_nonneg _) (k := k) (by rw [← hfar]; exact_mod_cast hk)
  obtain ⟨hx1, hx2, hx3⟩ := steps_towards (a := x0.toNat) (b := x1.toNat) hi0 hi hc.x
  obtain ⟨hy1, hy2, hy3⟩ := steps_towards (a := y0.toNat) (b := y1.toNat) hj0 hj hc.y
  rw [← hfar, Nat.cast_inj] at hend
  exact ⟨hx1, hx2, hy1, hy2, (and_congr hx3 hy3).trans hend.symm⟩

/-- The points of the line are those of the passes 0 to `lineFar`. -/
theorem linePoints_eq : linePoints x0.toNat y0.toNat x1.toNat y1.toNat =
    (List.range (lineFar x0 y0 x1 y1 + 1)).map fun k =>
      ((lineAfter (lineLocals x0 y0 x1 y1 l) k).x, (lineAfter (lineLocals x0 y0 x1 y1 l) k).y) := by
  have hfar := lineFar_eq x0 y0 x1 y1 l
  have hx : 0 ≤ (lineLocals x0 y0 x1 y1 l).dx := abs_nonneg _
  have hy : 0 ≤ (lineLocals x0 y0 x1 y1 l).dy := abs_nonneg _
  rw [← lineFrom_eq (x1 := x1.toNat) (y1 := y1.toNat)
    (fuel := ((lineLocals x0 y0 x1 y1 l).dx + (lineLocals x0 y0 x1 y1 l).dy + 1).toNat) (by omega)
    (fun k hk h => hk.ne ((lineLocals_after l hk.le).atEnd.1 h)) ((lineLocals_after l le_rfl).atEnd.2 rfl)]
  simp only [linePoints, lineLocals, Nat.cast_lt]

/-- A point of the screen is a point of the line exactly if some pass plots it. -/
theorem mem_linePoints {x y : Nat} : ((x : Int), (y : Int)) ∈ linePoints x0.toNat y0.toNat x1.toNat y1.toNat ↔
    ∃ k, k < lineFar x0 y0 x1 y1 + 1 ∧ (x, y) =
      ((lineAfter (lineLocals x0 y0 x1 y1 l) k).x.toNat, (lineAfter (lineLocals x0 y0 x1 y1 l) k).y.toNat) := by
  rw [linePoints_eq x0 y0 x1 y1 l, List.mem_map]
  refine exists_congr fun k => ?_
  rw [List.mem_range]
  refine and_congr_right fun hk => ?_
  have hpass := lineLocals_after l (Nat.le_of_lt_succ hk)
  have hx := hpass.xLow
  have hy := hpass.yLow
  simp only [Prod.mk.injEq]
  omega

theorem linePoints_length : (linePoints x0.toNat y0.toNat x1.toNat y1.toNat).length = lineFar x0 y0 x1 y1 + 1 := by
  rw [linePoints_eq x0 y0 x1 y1 (Locals.free 0), List.length_map, List.length_range]

theorem linePoints_first : ((x0.toNat : Int), (y0.toNat : Int)) ∈ linePoints x0.toNat y0.toNat x1.toNat y1.toNat :=
  (mem_linePoints x0 y0 x1 y1 (Locals.free 0)).2 ⟨0, Nat.succ_pos _, rfl⟩

theorem linePoints_last : ((x1.toNat : Int), (y1.toNat : Int)) ∈ linePoints x0.toNat y0.toNat x1.toNat y1.toNat := by
  obtain ⟨hx, hy⟩ := (lineLocals_after (x0 := x0) (y0 := y0) (Locals.free 0) le_rfl).atEnd.2 rfl
  exact (mem_linePoints x0 y0 x1 y1 (Locals.free 0)).2 ⟨_, Nat.lt_succ_self _, by rw [hx, hy]; rfl⟩

variable {x0 y0 x1 y1} in
theorem linePoints_box {x y : Nat} (h : ((x : Int), (y : Int)) ∈ linePoints x0.toNat y0.toNat x1.toNat y1.toNat) :
    min x0.toNat x1.toNat ≤ x ∧ x ≤ max x0.toNat x1.toNat ∧ min y0.toNat y1.toNat ≤ y ∧ y ≤ max y0.toNat y1.toNat := by
  obtain ⟨k, hk, hxy⟩ := (mem_linePoints x0 y0 x1 y1 (Locals.free 0)).1 h
  obtain ⟨hx, hx', hy, hy', -⟩ := lineLocals_after (Locals.free 0) (Nat.le_of_lt_succ hk)
  simp only [Prod.mk.injEq] at hxy
  omega

end

/-! ### The run of FB_LINE (44_framebuffer.md R224) -/

theorem lineFb_read_outside {width a : Nat} {fb : Memory} (l0 : Locals) (on : Bool) (k : Nat)
    (h : Config.pages * width ≤ a) : Memory.read (lineFb width fb l0 on k) a = Memory.read fb a := by
  induction k with
  | zero => rfl
  | succ k ih => rw [lineFb, drawPixel_read_outside _ _ _ h, ih]

/-- After the passes of the line, exactly its points are drawn. -/
theorem pixelAt_lineFb {width x y : Nat} {fb : Memory} (x0 y0 x1 y1 : Byte) (l : Locals) (on : Bool)
    (h : Memory.wf fb = true) (hx : x < width) (hy : y < Config.height) :
    pixelAt width (lineFb width fb (lineLocals x0 y0 x1 y1 l) on (lineFar x0 y0 x1 y1 + 1)) x y =
      if ((x : Int), (y : Int)) ∈ linePoints x0.toNat y0.toNat x1.toNat y1.toNat then on else pixelAt width fb x y := by
  split
  · rename_i hmem
    obtain ⟨k, hk, hxy⟩ := (mem_linePoints x0 y0 x1 y1 l).1 hmem
    exact lineFb_plotted on h hx hy hk hxy
  · rename_i hmem
    exact lineFb_other on h hx fun k hk hxy => hmem ((mem_linePoints x0 y0 x1 y1 l).2 ⟨k, hk, hxy⟩)

/-- The state after `k` passes of the loop that did not end it. -/
def State.afterPasses (on : Bool) (k : Nat) (s : State) : State :=
  { s with
    fb := lineFb s.cfg.width s.fb s.seq.locals on k
    seq := { s.seq with locals := lineAfter s.seq.locals k } }

/-- The state after the pass that meets the end point, after `k` others. -/
def State.afterLine (on : Bool) (k : Nat) (s : State) : State :=
  State.respond (.ok []) { s.afterPasses on k with fb := lineFb s.cfg.width s.fb s.seq.locals on (k + 1) }

section
variable {s : State} {x1 y1 : Byte} {on : Bool} {k : Nat}

theorem linePass_goes_on
    (h : ¬((lineAfter s.seq.locals k).x = x1.toNat ∧ (lineAfter s.seq.locals k).y = y1.toNat)) :
    linePass x1 y1 on (s.afterPasses on k) = s.afterPasses on (k + 1) := if_neg h

theorem linePass_ends (h : (lineAfter s.seq.locals k).x = x1.toNat ∧ (lineAfter s.seq.locals k).y = y1.toNat) :
    linePass x1 y1 on (s.afterPasses on k) = s.afterLine on k := if_pos h

variable (he : s.hostEager = false) (hb : s.seq.seqBusy = true) (hr : s.running = false)
  (hp : s.seq.pos = .line x1 y1 on)
include he hb hr hp

theorem step_afterPasses (k : Nat) : step (s.afterPasses on k) = .next (linePass x1 y1 on (s.afterPasses on k)) :=
  step_line (s := s.afterPasses on k) he hb hr hp

/-- The passes before the end point is met. -/
theorem run_afterPasses
    (hne : ∀ n, n < k → ¬((lineAfter s.seq.locals n).x = x1.toNat ∧ (lineAfter s.seq.locals n).y = y1.toNat)) :
    run k s = .next (s.afterPasses on k) := by
  induction k with
  | zero => rfl
  | succ k ih =>
    rw [run_add, ih fun n hn => hne n (by omega), andThen_next, run_succ_of_step (step_afterPasses he hb hr hp k),
      linePass_goes_on (hne k (by omega)), run_zero]

end

end Sys2Proof.Machine

open Sys2Proof Sys2Proof.Machine

/-- Settles O57: the issue, and the one micro-step that draws and responds. -/
theorem pixelRequestRuns : Obligations.PixelRequestRuns := by
  intro s x y on hb hr he hfb
  have hstep := step_pixel (s := (s.issue (.fbPixel x y on)).goto (.pixel x y on)) he rfl hr rfl
  refine ⟨_, _, exec_fbPixel_issues hb x y on, hstep, rfl, rfl, rfl, rfl, rfl, rfl, rfl, ?_, ?_, ?_, ?_⟩
  · intro hx hy
    exact (pixelAt_drawPixel on hfb.canonical hx hy hx).trans (if_pos ⟨rfl, rfl⟩)
  · intro x' y' hx' _ hne
    exact pixelAt_drawPixel_other on hfb.canonical hx' hne
  · intro a ha
    exact drawPixel_read_other on ha
  · intro hc a
    exact congrArg (Memory.read · a) (drawPixel_clipped on hc)

/-- Settles O58: a pixel write is the write of one bit, and different points have different bits. -/
theorem pixelWritesIdempotentAndCommute : Obligations.PixelWritesIdempotentAndCommute :=
  fun _ _ x y _ _ on on' h => ⟨drawPixel_idem x y on h, drawPixel_comm on on' h⟩

/-- Settles O59: the passes of the loop are the points of the line, and the last one meets the end point. -/
theorem lineRequestRuns : Obligations.LineRequestRuns := by
  intro s x0 y0 x1 y1 on hb hr he hfb
  set u := (s.issue (.fbLine x0 y0 x1 y1 on)).startLine x0 y0 x1 y1 on
  have hrun {k : Nat} (hk : k ≤ lineFar x0 y0 x1 y1) : run k u = .next (u.afterPasses on k) :=
    run_afterPasses he rfl hr rfl fun n hn h =>
      (hn.trans_le hk).ne ((lineLocals_after s.seq.locals (hn.le.trans hk)).atEnd.1 h)
  have hlast : run (lineFar x0 y0 x1 y1 + 1) u = .next (u.afterLine on (lineFar x0 y0 x1 y1)) := by
    rw [run_add, hrun le_rfl, andThen_next, run_succ_of_step (step_afterPasses (s := u) he rfl hr rfl _),
      linePass_ends ((lineLocals_after s.seq.locals le_rfl).atEnd.2 rfl), run_zero]
  have hpix {x y : Nat} (hx : x < s.cfg.width) (hy : y < 64) :
      pixelAt s.cfg.width (u.afterLine on (lineFar x0 y0 x1 y1)).fb x y =
        if ((x : Int), (y : Int)) ∈ linePoints x0.toNat y0.toNat x1.toNat y1.toNat then on
        else pixelAt s.cfg.width s.fb x y :=
    pixelAt_lineFb x0 y0 x1 y1 s.seq.locals on hfb.canonical hx hy
  refine ⟨linePoints_length x0 y0 x1 y1, u, _, exec_fbLine_issues hb x0 y0 x1 y1 on, hlast,
    fun n hn => ⟨_, hrun hn, rfl⟩, rfl, rfl, rfl, rfl, rfl, rfl, rfl, fun x y => hpix, ?_, ?_, ?_, ?_⟩
  · intro a ha
    exact lineFb_read_outside _ on _ ha
  · intro x y hx hy hout
    rw [hpix hx hy, if_neg]
    intro hmem
    have := linePoints_box hmem
    omega
  · intro hx hy
    rw [hpix hx hy, if_pos (linePoints_first x0 y0 x1 y1)]
  · intro hx hy
    rw [hpix hx hy, if_pos (linePoints_last x0 y0 x1 y1)]

end

section
/-! SUPPORT. Refusals and responses (60_exceptions.md): bytes of the host that are refused, a request while another runs, and the
bytes of a response. -/

namespace Sys2Proof

/-! ### Arguments outside their set (30_encoding.md R102) -/

theorem decodeBool_eq_none {k : Byte} : decodeBool k = none ↔ 1#8 < k := by
  revert k
  decide

theorem decodeRole_eq_none {k : Byte} : decodeRole k = none ↔ 2#8 < k := by
  revert k
  decide

theorem orIllFormed_map_none {α : Type} {o : Option α} (h : o = none) (f : α → Instr) (left : List Byte) :
    orIllFormed (o.map f) left = .reject .illFormed := by
  rw [h]
  rfl

theorem decodeSetPage_of_le {p : Byte} (hp : 8#8 ≤ p) (rest : List Byte) :
    decodeSetPage (p :: rest) = .reject .illFormed :=
  if_neg (Nat.not_lt.2 hp)

end Sys2Proof

namespace Sys2Proof.Machine

/-! ### What the host's step refuses (60_exceptions.md R258) -/

theorem fetch_of_reject {s : State} {b : Burst} {rest : List Burst} {why : Reject} (hs : s.host.stream = b :: rest)
    (hd : decode b.fmt s.decodeCtx b.bytes = .reject why) : fetch s = .refused (rejectRefusal why) := by
  simp [fetch, hs, hd]

/-- The host's step is refused for the reason the decoder gives. -/
theorem step_of_reject {s : State} {b : Burst} {rest : List Burst} {why : Reject} (ha : nextAgent s = .host)
    (hs : s.host.stream = b :: rest) (hd : decode b.fmt s.decodeCtx b.bytes = .reject why) :
    step s = .refused (rejectRefusal why) := by
  have hf : fetch s.tick = .refused (rejectRefusal why) :=
    fetch_of_reject (s.tick_host ▸ hs) (s.tick_decodeCtx ▸ hd)
  simp only [step, ha, hostStep, hf]

theorem request_of_busy {s : State} (hb : s.seq.seqBusy = true) (i : Instr) (run : State → State) :
    request i s run = .refused .seqBusy := if_pos hb

theorem pairedRequest_of_busy {s : State} (hb : s.seq.seqBusy = true) (i : Instr) (ok : Bool) (run : State → State) :
    pairedRequest i ok s run = .refused .seqBusy := if_pos hb

/-- Every request asks first whether another is in progress; DISP_SET_PAGE after its page, which is below 8. -/
theorem exec_of_busy {i : Instr} {s : State} (hb : s.seq.seqBusy = true) (hi : formatOf i ≠ .access)
    (hwf : i.wf s.cfg.layout = true) : exec i s = .refused .seqBusy := by
  cases i <;> simp only [formatOf, ne_eq, not_true_eq_false] at hi <;> simp only [exec]
  case busStop | fbPixel | fbLine => exact request_of_busy hb _ _
  case dispSetPage p =>
    have hp : p.toNat < Config.pages := of_decide_eq_true hwf
    exact (if_neg (Nat.not_le.2 hp)).trans (pairedRequest_of_busy hb _ _ _)
  all_goals exact pairedRequest_of_busy hb _ _ _

/-! ### The codes of a BusError (60_exceptions.md R242) -/

theorem kindCode_injective : Function.Injective kindCode := by
  intro k k' h
  cases k <;> cases k' <;> cases h <;> rfl

theorem releasedCode_injective : Function.Injective releasedCode := by
  unfold Function.Injective
  decide

/-- The code of NONE is 0xFF, so a status is known by its code where it is not 0xFF itself. -/
theorem eq_of_statusCode_eq {o o' : Option Byte} (ho : o ≠ some 0xFF#8) (ho' : o' ≠ some 0xFF#8)
    (h : statusCode o = statusCode o') : o = o' := by
  cases o <;> cases o'
  case none.none => rfl
  case none.some => exact absurd (congrArg some h.symm) ho'
  case some.none => exact absurd (congrArg some h) ho
  case some.some => exact congrArg some h

/-- The index of a step, where it has one, fits in the index byte. -/
def BusStep.IndexFits (p : BusStep) : Prop := ∀ i, p = .data i ∨ p = .rx i → i < 256

theorem eq_of_index_byte_eq {i j : Nat} (hi : i < 256) (hj : j < 256) (h : BitVec.ofNat 8 i = BitVec.ofNat 8 j) : i = j := by
  simpa [Nat.mod_eq_of_lt, hi, hj] using congrArg BitVec.toNat h

/-- The step code tells the steps apart, but for the index of DATA(i) and RX(i). -/
theorem eq_of_stepCode_eq {p p' : BusStep} (hp : p.IndexFits) (hp' : p'.IndexFits)
    (hcode : stepCode p = stepCode p') (hindex : indexCode p = indexCode p') : p = p' := by
  cases p <;> cases p' <;> cases hcode
  case data.data.refl i j => exact congrArg _ (eq_of_index_byte_eq (hp i (.inl rfl)) (hp' j (.inl rfl)) hindex)
  case rx.rx.refl i j => exact congrArg _ (eq_of_index_byte_eq (hp i (.inr rfl)) (hp' j (.inr rfl)) hindex)
  all_goals rfl

/-- A BusError is known by its five bytes. -/
theorem eq_of_busErrorBytes_eq {e e' : BusError} (hp : e.step.IndexFits) (hp' : e'.step.IndexFits)
    (hs : e.status ≠ some 0xFF#8) (hs' : e'.status ≠ some 0xFF#8) (h : busErrorBytes e = busErrorBytes e') : e = e' := by
  simp only [busErrorBytes, List.cons.injEq, and_true] at h
  obtain ⟨hkind, hstep, hindex, hstatus, hreleased⟩ := h
  rw [BusError.mk.injEq]
  exact ⟨kindCode_injective hkind, eq_of_stepCode_eq hp hp' hstep hindex, eq_of_statusCode_eq hs hs' hstatus,
    releasedCode_injective hreleased⟩

theorem displayErrorBytes_length (e : DisplayError) : (displayErrorBytes e).length = 8 := by
  obtain ⟨_, command, _⟩ := e
  cases command <;> rfl

end Sys2Proof.Machine

open Sys2Proof Sys2Proof.Machine

/-- Settles O38: every row asks for `seqBusy` before anything else that can fail. -/
theorem requestWhileBusyIsRefused : Obligations.RequestWhileBusyIsRefused :=
  fun _ _ => exec_of_busy

/-- Settles O60: each of the five bytes gives its field back. -/
theorem responseBytesDetermineTheError : Obligations.ResponseBytesDetermineTheError :=
  ⟨fun _ => rfl, fun _ => rfl, displayErrorBytes_length, fun _ _ => eq_of_busErrorBytes_eq⟩

/-- Settles O10: the decoder rejects the bytes, and the host's step gives its reason. -/
theorem illFormedInputIsRefused : Obligations.IllFormedInputIsRefused := by
  intro s e rest more b x y z w k ha
  have illFormed {bytes : List Byte} (hd : decodeSeq bytes = .reject .illFormed)
      (hs : s.host.stream = { fmt := .seq, bytes := bytes, eager := e } :: rest) : step s = .refused .illFormed :=
    step_of_reject ha hs hd
  refine ⟨fun hk => illFormed ?_, fun hk => illFormed ?_, fun hk => illFormed ?_, fun hk => illFormed ?_,
    fun hk => illFormed ?_, fun hs => step_of_reject (why := .accessWidth) ha hs rfl⟩
  · exact orIllFormed_map_none (decodeRole_eq_none.2 hk) (Instr.busSend b) more
  · exact orIllFormed_map_none (decodeBool_eq_none.2 hk) Instr.busRecv more
  · exact orIllFormed_map_none (decodeBool_eq_none.2 hk) (Instr.fbPixel x y) more
  · exact orIllFormed_map_none (decodeBool_eq_none.2 hk) (Instr.fbLine x y z w) more
  · exact decodeSetPage_of_le hk more
end

section
/-! SUPPORT. Reset (70_reset_and_hazards.md R266): TWCR and TWSR as read, and each part of the invariant. -/

namespace Sys2Proof.Machine

theorem Twi.reset_twcr (l : TwcrLayout) : Twi.reset.twcr l = 0x00#8 := by cases l <;> rfl

theorem Twi.reset_twsr : Twi.reset.twsr = 0xF8#8 := by decide

/-- The bus is idle, the unit disabled, and no flag is set. -/
theorem Twi.reset_twiInv (c : Config) : TwiInv c Twi.reset where
  noStatus _ := rfl
  busyNoInt hb := by cases hb
  busyEnabled hb := by cases hb
  heldEnabled hm := absurd rfl hm
  stopFlag he := by cases he
  opMode := opModeOk_none _
  stall hs := by cases hs
  noIe _ := rfl
  status := legalStatus_codeNone

/-- No request is in progress, so no clause reads the locals, which are draws here. -/
theorem Seq.reset_seqInv (c : Config) : SeqInv c Seq.reset where
  reqBusy := rfl
  posBusy := by simp [Seq.reset]
  pollsBelow _ _ hp := by cases hp
  framePage h := by cases h
  gather hp := by cases hp

theorem FbInv.empty (c : Config) : FbInv c [] := ⟨rfl, rfl⟩

end Sys2Proof.Machine

open Sys2Proof Sys2Proof.Machine

/-- Settles O2: an idle unit, an idle sequencer and an empty frame buffer keep every clause. -/
theorem resetMeetsTheInvariant : Obligations.ResetMeetsTheInvariant :=
  fun c hc => ⟨hc, Twi.reset_twiInv c, Seq.reset_seqInv c, FbInv.empty c⟩

/-- Settles O1: TWCR and TWSR are put together of their fields; the rest stands in the reset state as stated. -/
theorem resetLeavesTheSpecValues : Obligations.ResetLeavesTheSpecValues := fun c =>
  ⟨rfl, Twi.reset_twcr c.layout, Twi.reset_twsr, rfl, rfl, rfl, rfl, fun _ => rfl, rfl, rfl, rfl, rfl, rfl, rfl, rfl, rfl⟩

end

section
/-! SUPPORT. Words of the opcode table (30_encoding.md R87, log 10): a word wider than a byte is the bytes of an access. -/

namespace Sys2Proof

/-- Of a word wider than a byte only the ACCESS format is tried. -/
theorem decodeTableWord_access {nbits n : Nat} {i : Instr} (hn : 8 < nbits) (w : Bool) (addr data : Byte)
    (hbytes : tableBytes nbits n = accessBytes w addr data) (hi : accessInstr resetCtx w addr data = some i) :
    decodeTableWord nbits n = some i := by
  have hdecode : decode .access resetCtx (tableBytes nbits n) = .instr i [] :=
    decodeAccess_eq_instr.2 ⟨w, addr, data, by rw [hbytes, List.append_nil], hi⟩
  simp [decodeTableWord, tableFormats, Nat.not_le.2 hn, firstDecoding, hdecode]

end Sys2Proof

open Sys2Proof Sys2Proof.Machine

/-- Settles O11: a table word is W, the register's address and the data; a TWCR byte is on its line; and the bytes of every
other format are the encoding of the instruction. -/
theorem specWordsDecode : Obligations.SpecWordsDecode := by
  have hn : 8 < 24 := by decide
  refine ⟨?rdTwbr, ?wrTwbr, ?twiStart, ?twiStop, ?wrTwcrNointSta, ?twiRxAck, ?fbPixel, ?writeTxn, ?setPageStart,
    ?setContrast, ?ctrlData, ?slaR⟩
  case rdTwbr => exact decodeTableWord_access hn false 0xB8#8 0x00#8 rfl rfl
  case wrTwbr => exact decodeTableWord_access hn true 0xB8#8 0x48#8 rfl rfl
  case twiStart => exact decodeTableWord_access hn true 0xBC#8 0xA1#8 rfl rfl
  case twiStop => exact decodeTableWord_access hn true 0xBC#8 0x91#8 rfl rfl
  case wrTwcrNointSta => exact decodeTableWord_access hn true 0xBC#8 0x21#8 rfl rfl
  case twiRxAck => exact decode_twcrWrite (ctx := { resetCtx with mode := .mr }) rfl 0xC1#8 []
  all_goals exact Iff.mpr (decode_eq_instr nofun) ⟨rfl, rfl, rfl⟩

end
